-- ==== Sys2Proof/Word.lean ====
section
/-! DEFINITION. The words of the hardware: command words, bytes, colours (`00_scope.md` R8, `10_state.md` R40). -/

namespace Sys2Proof

/-- A 32-bit word: a command word (R70), `BW.acc` (R21), `FLT.info` (R34). -/
abbrev Word := BitVec 32

/-- A byte: a sink byte, a staged byte, a pixel index `0 .. 255` (R10, R23, R35). -/
abbrev Byte := BitVec 8

/-- A true-colour pixel, alpha in bits 31:24 (R40). -/
abbrev Color := BitVec 32

/-- A sequence of pixel indices (R10). The rules only speak of non-empty ones. -/
abbrev IndexSeq := List Byte

/-- `TRANSPARENT = 0x00000000` (R40). -/
abbrev transparent : Color := 0x00000000

end Sys2Proof
end

