-- ==== Sys2Proof/Syntax.lean ====
section
/-! DEFINITION. The 14 operations of `spec/opcode_table.json` (R72), with the operand fields of R73 to R76. -/

namespace Sys2Proof

/-- The two ports a command word can arrive on (R78). -/
inductive Port
  | commandPort
  | internalBus
  deriving DecidableEq, Repr

/-- One constructor per row of the opcode table. Every operand is an unsigned field of `arg`, taken as is (R89),
so its type is exactly as wide as the field. -/
inductive Instr
  /-- `LZW.BEGIN paletteSize`, `paletteSize = arg[8:0]` (R73). -/
  | lzwBegin (paletteSize : BitVec 9)
  /-- `LZW.PIXEL p`, `p = arg[7:0]` (R73). -/
  | lzwPixel (p : Byte)
  /-- `LZW.END` (R73). -/
  | lzwEnd
  /-- `LZW.ABORT` (R73). -/
  | lzwAbort
  /-- `CT.RESET` (R75). -/
  | ctReset
  /-- `CT.TRY_GET prefix, last`, `prefix = arg[19:8]`, `last = arg[7:0]` (R75). -/
  | ctTryGet (prefixCode : BitVec 12) (last : Byte)
  /-- `CT.TRY_ADD prefix, last` (R75). -/
  | ctTryAdd (prefixCode : BitVec 12) (last : Byte)
  /-- `BW.WRITE_CODE code, bitWidth`, `code = arg[11:0]`, `bitWidth = arg[15:12]` (R74). -/
  | bwWriteCode (code : BitVec 12) (bitWidth : BitVec 4)
  /-- `BW.FLUSH` (R74). -/
  | bwFlush
  /-- `DE.INIT` (R76). -/
  | deInit
  /-- `DE.DELTA indexed`, `indexed = arg[0]` (R76). -/
  | deDelta (indexed : BitVec 1)
  /-- `DE.TRIM` (R76). -/
  | deTrim
  /-- `DE.DISPOSE hasNext`, `hasNext = arg[0]` (R76). -/
  | deDispose (hasNext : BitVec 1)
  /-- `DE.COMMIT` (R76). -/
  | deCommit
  deriving DecidableEq, Repr

/-- The port column of R72: `LZW.*` and `DE.*` arrive on the command port, `CT.*` and `BW.*` travel on the
internal bus only (R78). -/
def Instr.port : Instr → Port
  | .lzwBegin _ | .lzwPixel _ | .lzwEnd | .lzwAbort => .commandPort
  | .ctReset | .ctTryGet _ _ | .ctTryAdd _ _ | .bwWriteCode _ _ | .bwFlush => .internalBus
  | .deInit | .deDelta _ | .deTrim | .deDispose _ | .deCommit => .commandPort

end Sys2Proof
end

