-- ==== Sys2Proof/WellFormed.lean ====
section
/-! DEFINITION. Which instructions have operands in the range their rule calls legal, as far as that can be
told without the state. That an operand fits its field is in the types of `Instr` already. -/

namespace Sys2Proof

/-- Operands in their legal range: `paletteSize` in `1 .. 256` (R73), `bitWidth` in `1 .. 12` (R74, R101).
What the others must satisfy depends on the state (R143, R75) and is checked by their meanings. -/
def Instr.wellFormed : Instr → Bool
  | .lzwBegin n => 1 ≤ n.toNat && n.toNat ≤ 256
  | .bwWriteCode _ w => 1 ≤ w.toNat && w.toNat ≤ 12
  | .lzwPixel _ | .lzwEnd | .lzwAbort | .ctReset | .ctTryGet _ _ | .ctTryAdd _ _ | .bwFlush
  | .deInit | .deDelta _ | .deTrim | .deDispose _ | .deCommit => true

end Sys2Proof
end

