-- ==== Sys2Proof/Decode.lean ====
section
/-! DEFINITION. The command encoding (`30_encoding.md` part A): the operation map R72 as data, the decoder, total
on every 32-bit word and rejecting by name (R77), and the encoder. -/

namespace Sys2Proof

/-- A row of the operation map R72. -/
structure OpRow where
  mnemonic : String
  /-- A word `w` selects the row when `w &&& mask = pattern`. -/
  pattern : Word
  mask : Word
  port : Port
  deriving DecidableEq, Repr

/-- The operation map (R72). -/
def opRows : List OpRow :=
  [ ⟨"LZW.BEGIN", 0x10000000, 0xFFFFFE00, .commandPort⟩,
    ⟨"LZW.PIXEL", 0x11000000, 0xFFFFFF00, .commandPort⟩,
    ⟨"LZW.END", 0x12000000, 0xFFFFFFFF, .commandPort⟩,
    ⟨"LZW.ABORT", 0x13000000, 0xFFFFFFFF, .commandPort⟩,
    ⟨"CT.RESET", 0x20000000, 0xFFFFFFFF, .internalBus⟩,
    ⟨"CT.TRY_GET", 0x21000000, 0xFFF00000, .internalBus⟩,
    ⟨"CT.TRY_ADD", 0x22000000, 0xFFF00000, .internalBus⟩,
    ⟨"BW.WRITE_CODE", 0x30000000, 0xFFFF0000, .internalBus⟩,
    ⟨"BW.FLUSH", 0x31000000, 0xFFFFFFFF, .internalBus⟩ ] ++
  [ ⟨"DE.INIT", 0x40000000, 0xFFFFFFFF, .commandPort⟩,
    ⟨"DE.DELTA", 0x41000000, 0xFFFFFFFE, .commandPort⟩,
    ⟨"DE.TRIM", 0x42000000, 0xFFFFFFFF, .commandPort⟩,
    ⟨"DE.DISPOSE", 0x43000000, 0xFFFFFFFE, .commandPort⟩,
    ⟨"DE.COMMIT", 0x44000000, 0xFFFFFFFF, .commandPort⟩ ]

/-- Does the word select the row (R72)? -/
def OpRow.selects (r : OpRow) (w : Word) : Bool := w &&& r.mask == r.pattern

/-- The row's name of an instruction. -/
def Instr.mnemonic : Instr → String
  | .lzwBegin _ => "LZW.BEGIN"
  | .lzwPixel _ => "LZW.PIXEL"
  | .lzwEnd => "LZW.END"
  | .lzwAbort => "LZW.ABORT"
  | .ctReset => "CT.RESET"
  | .ctTryGet _ _ => "CT.TRY_GET"
  | .ctTryAdd _ _ => "CT.TRY_ADD"
  | .bwWriteCode _ _ => "BW.WRITE_CODE"
  | .bwFlush => "BW.FLUSH"
  | .deInit => "DE.INIT"
  | .deDelta _ => "DE.DELTA"
  | .deTrim => "DE.TRIM"
  | .deDispose _ => "DE.DISPOSE"
  | .deCommit => "DE.COMMIT"

/-- Why a word is illegal (R77). -/
inductive Illegal
  /-- unit `0` or `5 .. 15` -/
  | noSuchUnit
  /-- an `op` the unit does not have -/
  | noSuchOp
  /-- a must-be-zero bit of `arg` is set -/
  | mustBeZero
  deriving DecidableEq, Repr

/-- The instruction `i`, if the must-be-zero bits `z` of the word are zero (R70, R77). -/
def ifZero {n : Nat} (z : BitVec n) (i : Instr) : Except Illegal Instr :=
  if z = 0 then .ok i else .error .mustBeZero

/-- Unit 1, `LZW` (R72, R73). -/
def decodeLzw (w : Word) : Nat → Except Illegal Instr
  | 0 => ifZero (w.extractLsb' 9 15) (.lzwBegin (w.extractLsb' 0 9))
  | 1 => ifZero (w.extractLsb' 8 16) (.lzwPixel (w.extractLsb' 0 8))
  | 2 => ifZero (w.extractLsb' 0 24) .lzwEnd
  | 3 => ifZero (w.extractLsb' 0 24) .lzwAbort
  | _ => .error .noSuchOp

/-- Unit 2, `CT` (R72, R75). -/
def decodeCt (w : Word) : Nat → Except Illegal Instr
  | 0 => ifZero (w.extractLsb' 0 24) .ctReset
  | 1 => ifZero (w.extractLsb' 20 4) (.ctTryGet (w.extractLsb' 8 12) (w.extractLsb' 0 8))
  | 2 => ifZero (w.extractLsb' 20 4) (.ctTryAdd (w.extractLsb' 8 12) (w.extractLsb' 0 8))
  | _ => .error .noSuchOp

/-- Unit 3, `BW` (R72, R74). -/
def decodeBw (w : Word) : Nat → Except Illegal Instr
  | 0 => ifZero (w.extractLsb' 16 8) (.bwWriteCode (w.extractLsb' 0 12) (w.extractLsb' 12 4))
  | 1 => ifZero (w.extractLsb' 0 24) .bwFlush
  | _ => .error .noSuchOp

/-- Unit 4, `DE` (R72, R76). -/
def decodeDe (w : Word) : Nat → Except Illegal Instr
  | 0 => ifZero (w.extractLsb' 0 24) .deInit
  | 1 => ifZero (w.extractLsb' 1 23) (.deDelta (w.extractLsb' 0 1))
  | 2 => ifZero (w.extractLsb' 0 24) .deTrim
  | 3 => ifZero (w.extractLsb' 1 23) (.deDispose (w.extractLsb' 0 1))
  | 4 => ifZero (w.extractLsb' 0 24) .deCommit
  | _ => .error .noSuchOp

/-- The decoder: `unit = cmd[31:28]`, `op = cmd[27:24]`, `arg = cmd[23:0]` (R70). -/
def decode (w : Word) : Except Illegal Instr :=
  match (w.extractLsb' 28 4).toNat with
  | 1 => decodeLzw w (w.extractLsb' 24 4).toNat
  | 2 => decodeCt w (w.extractLsb' 24 4).toNat
  | 3 => decodeBw w (w.extractLsb' 24 4).toNat
  | 4 => decodeDe w (w.extractLsb' 24 4).toNat
  | _ => .error .noSuchUnit

/-- A command word from its three fields (R70). -/
def cmdWord (unit op : BitVec 4) (arg : BitVec 24) : Word := unit ++ op ++ arg

/-- The encoder: the word of each instruction, from R72 to R76. -/
def encode : Instr → Word
  | .lzwBegin n => cmdWord 1 0 (0#15 ++ n)
  | .lzwPixel p => cmdWord 1 1 (0#16 ++ p)
  | .lzwEnd => cmdWord 1 2 0
  | .lzwAbort => cmdWord 1 3 0
  | .ctReset => cmdWord 2 0 0
  | .ctTryGet pre last => cmdWord 2 1 (0#4 ++ pre ++ last)
  | .ctTryAdd pre last => cmdWord 2 2 (0#4 ++ pre ++ last)
  | .bwWriteCode code bitWidth => cmdWord 3 0 (0#8 ++ bitWidth ++ code)
  | .bwFlush => cmdWord 3 1 0
  | .deInit => cmdWord 4 0 0
  | .deDelta indexed => cmdWord 4 1 (0#23 ++ indexed)
  | .deTrim => cmdWord 4 2 0
  | .deDispose hasNext => cmdWord 4 3 (0#23 ++ hasNext)
  | .deCommit => cmdWord 4 4 0

/-- The word of `nbits` table bits `w`; bits above `nbits` are 0. The one command format has 32 bits (R70). -/
def tableWord (nbits w : Nat) : Word := BitVec.ofNat 32 (w % 2 ^ nbits)

/-- What the decoder reads from an instruction numbered as the opcode table numbers its bits. A command word is not
stored in byte-addressed memory and has no byte order (R58): its 32 bits are the table's. -/
def decodeTableWord (nbits w : Nat) : Option Instr :=
  if nbits ≤ 32 then (decode (tableWord nbits w)).toOption else none

end Sys2Proof
end

