-- ==== Sys2Proof/Config.lean ====
section
/-! DEFINITION. The constants of R6, the parameters of R7, and the free values: what the spec leaves
open, as constants without a body, of which no proof can know a value. -/

namespace Sys2Proof.Config

/-! ### Constants (`00_scope.md` R6) -/

/-- Ceiling on the number of live codes. -/
abbrev maxCodes : Nat := 4096
/-- Largest code width in bits. -/
abbrev maxWidth : Nat := 12
/-- Capacity of the staging buffer and largest sub-block payload, in bytes. -/
abbrev blockMax : Nat := 255
/-- Smallest minimum code size. -/
abbrev mcsMin : Nat := 2
/-- Largest palette size. -/
abbrev paletteMax : Nat := 256
/-- Delay clamp in hundredths of a second. -/
abbrev delayMin : Nat := 1
abbrev delayMax : Nat := 65535
/-- The block terminator byte. -/
abbrev terminator : Byte := 0x00

/-! ### Free values (DESIGN CHOICE of form; the values are open in the spec)

Each is applied to the counter `State.free`, which every use advances. -/

/-- Any value of a register of `w` bits (log entries 6 and 7; `93_implementation_defined.md` U4, U9). -/
opaque freeBits (w : Nat) : Nat → BitVec w
/-- Any value of the staged bytes after a `SINK_IO` fault (log entry 6, U4). -/
opaque freeStaging : Nat → List Byte
/-- Any value of `CT.tab` after a `SINK_IO` fault (log entry 6, U4). -/
opaque freeTable : Nat → List (IndexSeq × BitVec 12)
/-- Any contents of `DE.RB` after a `SINK_IO` fault (log entry 6, U4). -/
opaque freeBuffer : Nat → List (Nat × Color)
/-- Any value of `LZW.cur` where no rule gives it one (log entries 6 and 8). -/
opaque freeMatch : Nat → IndexSeq

/-! ### Parameters (`00_scope.md` R7) -/

/-- How a requested delay that is not whole and above one tick becomes whole
(`93_implementation_defined.md` U6: floor, nearest or ceiling). -/
inductive DelayRounding
  | floor
  | nearest
  | ceiling
  deriving DecidableEq, Repr, Inhabited

/-- The parameters of the block. They are arguments of the operations, so that a statement can be made for
any of them; `params` is the choice of this hardware. -/
structure Params where
  /-- `P_EMIT_MCS`: `LZW.BEGIN` writes the minimum-code-size byte (R142). -/
  emitMcs : Bool
  /-- `P_EOI_GROW`: the width is adjusted between the final match code and the end code (R147). -/
  eoiGrow : Bool
  /-- `P_LAST_DISPOSAL = 2`; otherwise it is 1 (R181). -/
  lastDisposalIsBackground : Bool
  /-- `P_ZERO_DELAY_TICKS` (R186). -/
  zeroDelayTicks : Nat
  /-- `P_CENTER`, a function of `(W, H)` (R178). -/
  center : Nat → Nat → Nat × Nat
  /-- The rounding of a delay that is not whole (R186, U6). -/
  rounding : DelayRounding
  /-- Whether `nearest` sends the tie between `q` and `q + 1` up. -/
  tieUp : Nat → Bool

/-- `P_LAST_DISPOSAL` is open: 1 or 2 (R7, R181, U8; log entry 9). -/
opaque lastDisposalIsBackground : Bool
/-- The rounding is open: floor, nearest or ceiling (U6; log entry 10). -/
opaque delayRounding : DelayRounding
/-- Where `nearest` sends a tie is open (log entry 10). -/
opaque delayTieUp : Nat → Bool

/-- The values taken for this hardware (R7; log entries 9, 10 and 11). -/
def params : Params where
  emitMcs := true
  eoiGrow := false
  lastDisposalIsBackground := lastDisposalIsBackground
  zeroDelayTicks := 10
  center := fun w h => (w / 2, h / 2)
  rounding := delayRounding
  tieUp := delayTieUp

end Sys2Proof.Config
end

