-- ==== Sys2Proof/Machine/State.lean ====
section
/-! DEFINITION. The state of LZWC (`10_state.md`), the inputs its rules read (R44, R45), the ways a step can stop, and
the state after reset (R47). Plain data throughout. -/

namespace Sys2Proof.Machine

/-- Bit Writer registers (R21 to R24). -/
structure BitWriter where
  /-- `BW.acc`, 32 bits, bit 0 the oldest (R21). -/
  acc : Word
  /-- `BW.nbits`, 5 bits: number of valid bits in `BW.acc` (R22). -/
  nbits : Nat
  /-- `BW.stg`, the staging buffer of 255 bytes, as the list of the bytes that hold a value: `BW.stg[i]` is entry `i`
  (R23: a byte at an index `>= BW.scnt` holds no value; log entry 16). -/
  stg : List Byte
  /-- `BW.scnt`, 8 bits: number of bytes held in the staging buffer (R24). -/
  scnt : Nat
  deriving DecidableEq, Repr

/-- Code Table registers, dictionary and result flags (R25 to R29, R33). -/
structure CodeTable where
  /-- `CT.mcs`, 4 bits: the minimum code size (R25). -/
  mcs : Nat
  /-- `CT.width`, 4 bits: the current code width (R26). -/
  width : Nat
  /-- `CT.next`, 13 bits: the next assignable code (R27). -/
  next : Nat
  /-- `CT.tab`: the dictionary, its pairs in the order they were added (R28). -/
  tab : List (IndexSeq × Nat)
  /-- `CT.hit`, 1 bit (R33). -/
  hit : Bool
  /-- `CT.code_q`, 12 bits (R33). -/
  codeQ : Nat
  /-- `CT.added`, 1 bit (R33). -/
  added : Bool
  deriving DecidableEq, Repr

/-- The values of `LZW.st` (R31). -/
inductive LzwSt
  | idle
  | first
  | run
  | done
  deriving DecidableEq, Repr

/-- LZW encoder state (R31, R32). -/
structure Lzw where
  /-- `LZW.st`, 2 bits (R31). -/
  st : LzwSt
  /-- `LZW.cur`: the current match, valid only in `RUN` (R32). -/
  cur : IndexSeq
  deriving DecidableEq, Repr

/-- The values of `FLT.cause` (R201). -/
inductive Cause
  /-- 0: no fault -/
  | none
  /-- 1 `SINK_IO` -/
  | sinkIo
  /-- 2 `ILLEGAL_CMD` -/
  | illegalCmd
  /-- 3 `BAD_STATE` -/
  | badState
  /-- 4 `OPERAND_RANGE` -/
  | operandRange
  /-- 5 `EMPTY_FRAME` -/
  | emptyFrame
  /-- 6 `DE_CONFIG` -/
  | deConfig
  /-- 7 `DE_INVARIANT`, reserved: no rule raises it (R178) -/
  | deInvariant
  deriving DecidableEq, Repr

/-- The fault registers (R34). -/
structure Flt where
  /-- `FLT.cause`, 4 bits. -/
  cause : Cause
  /-- `FLT.info`, 32 bits: the command word that faulted. -/
  info : Word
  deriving DecidableEq, Repr

/-- The values of `DE.step` (R42, R172); the value 3 is unused. -/
inductive DeStep
  /-- 0: frame open -/
  | frameOpen
  /-- 1: trimmed -/
  | trimmed
  /-- 2: disposal decided -/
  | decided
  deriving DecidableEq, Repr

/-- Disposal method values, the encoding of `DE.disp` (R91). -/
inductive Disposal
  /-- 0: unspecified -/
  | unspecified
  /-- 1: do not dispose -/
  | doNotDispose
  /-- 2: restore to background -/
  | restoreBackground
  /-- 3: restore to previous -/
  | restorePrevious
  deriving DecidableEq, Repr

/-- Delta engine state (R41 to R43). -/
structure Delta where
  /-- `DE.RB`, the Render Buffer, by pixel address (R41); an unlisted pixel is `TRANSPARENT`. -/
  rb : List (Nat × Color)
  /-- `DE.ready` (R42). -/
  ready : Bool
  /-- `DE.havePrev` (R42). -/
  havePrev : Bool
  /-- `DE.rbCleared` (R42). -/
  rbCleared : Bool
  /-- `DE.step`, 2 bits (R42). -/
  step : DeStep
  /-- `DE.locX`, 16 bits (R43). -/
  locX : Nat
  /-- `DE.locY`, 16 bits (R43). -/
  locY : Nat
  /-- `DE.frW`, 16 bits (R43). -/
  frW : Nat
  /-- `DE.frH`, 16 bits (R43). -/
  frH : Nat
  /-- `DE.disp`, 3 bits (R43). -/
  disp : Disposal
  deriving DecidableEq, Repr

/-- The configuration inputs `cfg.*` (R44 (a)). -/
structure Cfg where
  /-- `cfg.W`, 16 bits. -/
  w : BitVec 16
  /-- `cfg.H`, 16 bits. -/
  h : BitVec 16
  /-- `cfg.deltaAllowed` -/
  deltaAllowed : Bool
  /-- `cfg.qTransp` -/
  qTransp : Bool
  /-- `cfg.alphaThr`, 8 bits. -/
  alphaThr : Byte
  /-- `cfg.keepBorders` -/
  keepBorders : Bool
  /-- `cfg.looping` -/
  looping : Bool
  /-- `cfg.zeroDelayDefault` -/
  zeroDelayDefault : Bool
  deriving DecidableEq, Repr

/-- The frame memories, owned by the host (R45), by pixel address; an unlisted element reads 0 (log entry 5). -/
structure Frames where
  /-- `WB`, the working buffer. -/
  wb : List (Nat × Color)
  /-- `IDX`, the indexed frame. -/
  idx : List (Nat × Byte)
  /-- `PAL`, 256 entries addressed by index (R50). -/
  pal : List (Nat × Color)
  /-- `palN`, `1 .. 256`. -/
  palN : BitVec 9
  /-- `tIdxValid` -/
  tIdxValid : Bool
  /-- `tIdx` -/
  tIdx : Byte
  /-- `NXT`, the next prepared frame. -/
  nxt : List (Nat × Color)
  deriving DecidableEq, Repr

/-- An answer of the `SinkFail` oracle to one burst (R52). -/
inductive SinkAnswer
  /-- `ok` -/
  | accepted
  /-- `fail(k)`: the first `k` bytes land -/
  | failed (k : Nat)
  deriving DecidableEq, Repr

/-- What the outside does to the block, between two commands (R5, R90; log entry 1). -/
inductive HostEvent
  /-- A command word is presented on a port (R78). -/
  | command (port : Port) (word : Word)
  /-- The reset input `rst` is asserted (R230). -/
  | rst
  /-- The configuration inputs take new values (R44 (a)). -/
  | configure (cfg : Cfg)
  /-- The host writes `WB[y][x]` (R45). -/
  | writeWb (y x : BitVec 16) (c : Color)
  /-- The host writes `IDX[y][x]` (R45). -/
  | writeIdx (y x : BitVec 16) (i : Byte)
  /-- The host writes `PAL[i]` (R45). -/
  | writePal (i : Byte) (c : Color)
  /-- The host writes `NXT[y][x]` (R45). -/
  | writeNxt (y x : BitVec 16) (c : Color)
  /-- The host sets `palN`, `tIdxValid`, `tIdx` (R45). -/
  | describePalette (palN : BitVec 9) (tIdxValid : Bool) (tIdx : Byte)
  deriving DecidableEq, Repr

/-- The state of the block (R20), the sink's record `out` (R35), and the inputs the rules read (R44). -/
structure State where
  /-- `BW.*` -/
  bw : BitWriter
  /-- `CT.*` -/
  ct : CodeTable
  /-- `LZW.*` -/
  lzw : Lzw
  /-- `FLT.*` -/
  flt : Flt
  /-- `DE.*` -/
  de : Delta
  /-- `out`: the bytes written to the sink since reset, oldest first (R35). -/
  out : List Byte
  /-- `cfg.*` (R44 (a)). -/
  cfg : Cfg
  /-- The frame memories (R44 (c)). -/
  frames : Frames
  /-- The `SinkFail` oracle's answers to the coming bursts, next one first; a burst with none left is accepted
  (R44 (d), log entry 3). -/
  sinkFail : List SinkAnswer
  /-- What the host does next, in order: the command stream (R44 (b)) and its other actions (log entry 1). -/
  events : List HostEvent
  /-- The model's own counter of free values used (log entries 6 to 8). -/
  free : Nat
  deriving DecidableEq, Repr

/-- The reasons the machine stops. The faults of the spec are none of these: they are taken, and lead to the
fault state (R210). -/
inductive Fault
  /-- Raised by `LZW.PIXEL` and `LZW.END` in `RUN` when `LZW.cur` has no code. R141 gives `CodeOf` no value there and R150 says
  it cannot happen. Safe: no claim is made of such a state (log entry 14). -/
  | matchWithoutCode
  /-- Raised when the host writes a pixel outside the canvas, which does not exist (R45). Safe (log entry 18). -/
  | noSuchPixel
  deriving DecidableEq, Repr

/-- The commands the spec gives no meaning. -/
inductive Refusal
  /-- An instruction without a meaning yet, by its mnemonic. Raised by `exec` alone. Safe. -/
  | notModelled (mnemonic : String)
  /-- `BW.WRITE_CODE` with a reserved `bitWidth`, 0 or 13 to 15 (R101, U2). Safe (log entry 12). -/
  | reservedBitWidth
  /-- `CT.TRY_GET` or `CT.TRY_ADD` on the bus with operands that spell no sequence (R75, U10). Safe (log entry 13). -/
  | noSuchSequence
  /-- `CT.TRY_ADD` of a sequence already stored (R124, U3). Safe (log entry 13). -/
  | alreadyStored
  /-- A word on the internal bus that is no `CT` or `BW` operation (R78, R203). Safe (log entry 2). -/
  | noSuchBusWord
  deriving DecidableEq, Repr

/-- The Bit Writer after reset: empty (R47). -/
def BitWriter.empty : BitWriter := ⟨0, 0, [], 0⟩

/-- The block's registers and the sink's record as the reset input leaves them (R47, R230), with the inputs of `s`. Values R47
leaves unspecified: `CT.*`, `LZW.cur`, `DE.RB`, `DE.loc*`, `DE.fr*`, `DE.disp` (DESIGN CHOICE, log entry 4). -/
def State.afterReset (s : State) : State :=
  { s with
    bw := .empty
    ct := ⟨2, 3, 6, [], false, 0, false⟩
    lzw := ⟨.idle, []⟩
    flt := ⟨.none, 0⟩
    de := ⟨[], false, false, false, .frameOpen, 0, 0, 1, 1, .unspecified⟩
    out := [] }

/-- The inputs before the host has set any (DESIGN CHOICE, log entry 5). -/
def Cfg.initial : Cfg := ⟨1, 1, false, false, 0, false, false, false⟩
def Frames.initial : Frames := ⟨[], [], [], 1, false, 0, []⟩

/-- The machine right after reset (R47), no command presented yet. Its list of the oracle's answers is empty, so that every burst of a
run from here is accepted (DESIGN CHOICE, unsafe, log entry 3: R7 and R52 give the oracle no initial value); its inputs are log
entry 5's, and the values that R47 leaves unspecified log entry 4's. -/
def State.reset : State where
  bw := .empty
  ct := ⟨2, 3, 6, [], false, 0, false⟩
  lzw := ⟨.idle, []⟩
  flt := ⟨.none, 0⟩
  de := ⟨[], false, false, false, .frameOpen, 0, 0, 1, 1, .unspecified⟩
  out := []
  cfg := .initial
  frames := .initial
  sinkFail := []
  events := []
  free := 0

end Sys2Proof.Machine
end

