-- ==== Sys2Proof/Machine/Memory.lean ====
section
/-! DEFINITION. The memories addressed `[y][x]` (R50, R57) and `PAL`: lists of (address, value) pairs in one canonical
form, and the operations that keep it. `d` is what an unlisted address reads as. -/

namespace Sys2Proof.Machine.Memory

/-- The canonical form: addresses strictly rising, no value equal to `d`. -/
abbrev wf {α : Type} [DecidableEq α] (d : α) (m : List (Nat × α)) : Prop :=
  (m.map Prod.fst).Pairwise (· < ·) ∧ ∀ e ∈ m, e.2 ≠ d

/-- The value at address `a`. -/
def read {α : Type} (d : α) : List (Nat × α) → Nat → α
  | [], _ => d
  | (k, v) :: m, a => if k = a then v else read d m a

/-- Put `v` at address `a`; writing `d` removes the entry. -/
def write {α : Type} [DecidableEq α] (d : α) : List (Nat × α) → Nat → α → List (Nat × α)
  | [], a, v => if v = d then [] else [(a, v)]
  | (k, u) :: m, a, v =>
    if a < k then (if v = d then (k, u) :: m else (a, v) :: (k, u) :: m)
    else if a = k then (if v = d then m else (a, v) :: m)
    else (k, u) :: write d m a v

/-- The memory with these contents; of two values for one address the later one stays. -/
def ofList {α : Type} [DecidableEq α] (d : α) (es : List (Nat × α)) : List (Nat × α) :=
  es.foldl (fun m e => write d m e.1 e.2) []

/-- The address of pixel `[y][x]` (DESIGN CHOICE, log entry 17: R57 leaves the mapping open and no rule depends on it).
Columns are below `2 ^ 16`, so no two pixels share an address. -/
def pixel (y x : Nat) : Nat := y * 65536 + x

/-- The pixels `(y, x)` of a canvas of `w` columns and `h` rows, row by row. -/
def canvas (w h : Nat) : List (Nat × Nat) :=
  (List.range h).flatMap fun y => (List.range w).map fun x => (y, x)

/-- "for every y, x" of the canvas: the value at `[y][x]` becomes `f y x` of the value there. -/
def update {α : Type} [DecidableEq α] (d : α) (w h : Nat) (f : Nat → Nat → α → α) (m : List (Nat × α)) :
    List (Nat × α) :=
  (canvas w h).foldl (fun m p => write d m (pixel p.1 p.2) (f p.1 p.2 (read d m (pixel p.1 p.2)))) m

end Sys2Proof.Machine.Memory
end

