-- ==== Sys2Proof/Machine/Operands.lean ====
section
/-! DEFINITION. The values the rules read: number helpers (R8, R9), the code constants of a frame (R80), the codes of
sequences (R141) and the sequences of codes (R55, R75), the pixel predicates (R174). -/

namespace Sys2Proof.Machine

/-! ### Numbers -/

/-- The shifts `n` with `v < 1 << n` tried in turn, at most `fuel` of them. -/
def bitlenFrom (v : Nat) : Nat → Nat → Nat
  | 0, n => n
  | fuel + 1, n => if v < 1 <<< n then n else bitlenFrom v fuel (n + 1)

/-- `bitlen(v)`: the least `n` with `v < (1 << n)` (R8). -/
def bitlen (v : Nat) : Nat := bitlenFrom v v 0

/-- `bitsNeededFor(n) = bitlen(n - 1)` (R9). -/
def bitsNeededFor (n : Nat) : Nat := bitlen (n - 1)

/-- The minimum code size of a palette size, `max(2, bitsNeededFor(paletteSize))` (R130). -/
def minCodeSize (paletteSize : Nat) : Nat := max Config.mcsMin (bitsNeededFor paletteSize)

/-! ### Codes (R80) -/

def CodeTable.clearCode (ct : CodeTable) : Nat := 1 <<< ct.mcs
def CodeTable.eoi (ct : CodeTable) : Nat := ct.clearCode + 1
def CodeTable.firstCode (ct : CodeTable) : Nat := ct.clearCode + 2

/-- The phases of a clear cycle (R29). -/
inductive Phase
  | start
  | growing
  | full
  deriving DecidableEq, Repr

/-- The phase is a function of `CT.next`, not a register (R29). -/
def CodeTable.phase (ct : CodeTable) : Phase :=
  if ct.next = ct.firstCode then .start else if ct.next = Config.maxCodes then .full else .growing

/-- The code stored with a sequence, compared by its content (R54, R121). -/
def lookup (s : IndexSeq) : List (IndexSeq × Nat) → Option Nat
  | [] => none
  | (t, c) :: tab => if t = s then some c else lookup s tab

/-- The sequence stored with a code. -/
def storedSeq (c : Nat) : List (IndexSeq × Nat) → Option IndexSeq
  | [] => none
  | (s, d) :: tab => if d = c then some s else storedSeq c tab

/-- `CodeOf(s)` (R141); no code where the rule gives none. -/
def codeOf (ct : CodeTable) : IndexSeq → Option Nat
  | [] => none
  | [i] => some i.toNat
  | s => lookup s ct.tab

/-- `SeqOf(c)`: a literal's one-index sequence, or the sequence stored with the code (R55); none for `ClearCode`, `EOI` and
codes not given out. -/
def seqOf (ct : CodeTable) (c : Nat) : Option IndexSeq :=
  if c < ct.clearCode then some [BitVec.ofNat 8 c] else storedSeq c ct.tab

/-- The sequence that `CT.TRY_GET` and `CT.TRY_ADD` name on the bus, `SeqOf(prefix) ++ [last]` (R75); none where the
operands are not legal (U10). -/
def busSeq (ct : CodeTable) (prefixCode : BitVec 12) (last : Byte) : Option IndexSeq :=
  if last.toNat < ct.clearCode then (seqOf ct prefixCode.toNat).map (· ++ [last]) else none

/-! ### Pixels (R40, R174) -/

/-- `a = c[31:24]` (R40). -/
def alpha (c : Color) : Byte := c.extractLsb' 24 8

/-- `vis(x, y)`: the indexed frame's pixel is not the transparent index. -/
def Frames.vis (f : Frames) (y x : Nat) : Bool :=
  !(f.tIdxValid && Memory.read 0 f.idx (Memory.pixel y x) == f.tIdx)

/-- `col(x, y) = PAL[IDX[y][x]]`. -/
def Frames.col (f : Frames) (y x : Nat) : Color :=
  Memory.read transparent f.pal (Memory.read 0 f.idx (Memory.pixel y x)).toNat

/-- `comp(x, y)`: the frame's composited result, before the commit. -/
def State.comp (s : State) (y x : Nat) : Color :=
  if s.frames.vis y x then s.frames.col y x else Memory.read transparent s.de.rb (Memory.pixel y x)

/-- `transpQ(c)`: `alpha(c) < cfg.alphaThr`. -/
def Cfg.transpQ (cfg : Cfg) (c : Color) : Bool := alpha c < cfg.alphaThr

/-- `opaqueQ(c)`: not `transpQ(c)`. -/
def Cfg.opaqueQ (cfg : Cfg) (c : Color) : Bool := !cfg.transpQ c

end Sys2Proof.Machine
end

