-- ==== Sys2Proof/Machine/Flags.lean ====
section
/-! DEFINITION. The flags: the Code Table's result flags `CT.hit`, `CT.code_q`, `CT.added` (R33) and the flags of the delta
engine (R42). Each is set in one place. -/

namespace Sys2Proof.Machine

/-- `CT.hit` and `CT.code_q` after a lookup (R121). A miss leaves `CT.code_q` no value: it takes the free value numbered `n`
(U9, log entry 7). -/
def CodeTable.setLookup (ct : CodeTable) (n : Nat) : Option Nat → CodeTable
  | some c => { ct with hit := true, codeQ := c }
  | none => { ct with hit := false, codeQ := (Config.freeBits 12 n).toNat }

/-- `CT.added` after an insertion attempt (R124). -/
def CodeTable.setAdded (ct : CodeTable) (b : Bool) : CodeTable := { ct with added := b }

/-- The flags as `DE.INIT` sets them (R173). -/
def Delta.setStarted (de : Delta) : Delta :=
  { de with rbCleared := true, havePrev := false, step := .frameOpen, ready := true }

/-- The Render Buffer has been cleared by disposal inference (R181). -/
def Delta.setCleared (de : Delta) : Delta := { de with rbCleared := true }

/-- Something has been composited since (R184). -/
def Delta.setComposited (de : Delta) : Delta := { de with rbCleared := false }

/-- A frame has been committed (R184). -/
def Delta.setCommitted (de : Delta) : Delta := { de with havePrev := true, step := .frameOpen }

end Sys2Proof.Machine
end

