-- ==== Sys2Proof/Machine/Ops.lean ====
section
/-! DEFINITION. The shared operations: field updates, taking a fault and the way out of it, and the sink burst. -/

namespace Sys2Proof.Machine

/-- What an instruction answers. -/
abbrev Answer := Host.Outcome State Fault Refusal

/-! ### Updates -/

def State.setBw (s : State) (b : BitWriter) : State := { s with bw := b }
def State.setCt (s : State) (c : CodeTable) : State := { s with ct := c }
def State.setLzw (s : State) (l : Lzw) : State := { s with lzw := l }
def State.setDe (s : State) (d : Delta) : State := { s with de := d }
def State.setFrames (s : State) (f : Frames) : State := { s with frames := f }
/-- `k` free values have been used. -/
def State.useFree (s : State) (k : Nat) : State := { s with free := s.free + k }

/-! ### Taking a fault (R210) -/

/-- The number of a cause (R201). -/
def Cause.code : Cause → BitVec 4
  | .none => 0
  | .sinkIo => 1
  | .illegalCmd => 2
  | .badState => 3
  | .operandRange => 4
  | .emptyFrame => 5
  | .deConfig => 6
  | .deInvariant => 7

/-- The state register of a 2-bit value (R31). -/
def LzwSt.ofBits (b : BitVec 2) : LzwSt :=
  if b = 0 then .idle else if b = 1 then .first else if b = 2 then .run else .done

/-- `raise X(cmd)`: `FLT.cause <- code of X`, `FLT.info <- cmd`, and nothing else is saved (R210). -/
def State.raise (c : Cause) (cmd : Word) (s : State) : State := { s with flt := ⟨c, cmd⟩ }

/-- The step register of a 2-bit value; the value 3 is unused (R42, U13). -/
def DeStep.ofBits (b : BitVec 2) : DeStep :=
  if b = 0 then .frameOpen else if b = 1 then .trimmed else .decided

/-- The disposal of a 2-bit value; the values 4 to 7 of the register are never produced (R91, U13). -/
def Disposal.ofBits (b : BitVec 2) : Disposal :=
  if b = 0 then .unspecified else if b = 1 then .doNotDispose else if b = 2 then .restoreBackground else .restorePrevious

/-! Free values for each unit, each within its register's width, numbered from `n` (log entry 6). -/

/-- The free bit numbered `n`. -/
def freeBit (n : Nat) : Bool := Config.freeBits 1 n == 1

/-- Any state of the Bit Writer. -/
def BitWriter.unspecified (n : Nat) : BitWriter :=
  ⟨Config.freeBits 32 n, (Config.freeBits 5 (n + 1)).toNat, (Config.freeStaging n).take Config.blockMax, (Config.freeBits 8 (n + 2)).toNat⟩

/-- Any state of the Code Table. -/
def CodeTable.unspecified (n : Nat) : CodeTable :=
  ⟨(Config.freeBits 4 (n + 3)).toNat, (Config.freeBits 4 (n + 4)).toNat, (Config.freeBits 13 (n + 5)).toNat,
    (Config.freeTable n).map (fun e => (e.1, e.2.toNat)), freeBit (n + 6), (Config.freeBits 12 (n + 7)).toNat,
    freeBit (n + 8)⟩

/-- Any state of the encoder. -/
def Lzw.unspecified (n : Nat) : Lzw := ⟨.ofBits (Config.freeBits 2 (n + 9)), Config.freeMatch n⟩

/-- Any state of the delta engine. -/
def Delta.unspecified (n : Nat) : Delta :=
  ⟨Memory.ofList transparent (Config.freeBuffer n), freeBit (n + 10), freeBit (n + 11), freeBit (n + 12),
    .ofBits (Config.freeBits 2 (n + 13)), (Config.freeBits 16 (n + 14)).toNat, (Config.freeBits 16 (n + 15)).toNat,
    (Config.freeBits 16 (n + 16)).toNat, (Config.freeBits 16 (n + 17)).toNat, .ofBits (Config.freeBits 2 (n + 18))⟩

/-- Free values in all state of the block but `FLT.*` and `out` (R210, `93_implementation_defined.md` U4, log entry 6). -/
def State.scramble (s : State) : State :=
  { s with
    bw := .unspecified s.free
    ct := .unspecified s.free
    lzw := .unspecified s.free
    de := .unspecified s.free
    free := s.free + 19 }

/-- The end of a command that may fail at a sink burst: it completes, or `SINK_IO` is raised and the block's state is
unspecified from then on (R207, R210, U4). -/
def finish (cmd : Word) : Except State State → Answer
  | .ok s => .next s
  | .error s => .next (s.scramble.raise .sinkIo cmd)

/-- In the fault state every command is accepted and ignored (R210); it is the first check (R202). -/
def unlessFaulted (s : State) (a : Answer) : Answer :=
  if s.flt.cause = .none then a else .next s

/-- The way out of the fault state: the reset input, and nothing else (R210, R230; log entry 20). -/
def State.takeReset (s : State) : State := s.afterReset

/-! ### The sink (R51, R52) -/

/-- How many bytes of a failed burst of `n` bytes land: fewer than `n` (R52, log entry 3). -/
def landed (k n : Nat) : Nat := min k (n - 1)

/-- `SinkWrite(bytes)`, one burst (R52). An error holds the state in which `SINK_IO` is raised. -/
def sinkWrite (bytes : List Byte) (s : State) : Except State State :=
  match s.sinkFail with
  | [] => .ok { s with out := s.out ++ bytes }
  | .accepted :: rest => .ok { s with out := s.out ++ bytes, sinkFail := rest }
  | .failed k :: rest => .error { s with out := s.out ++ bytes.take (landed k bytes.length), sinkFail := rest }

end Sys2Proof.Machine
end

