-- ==== Sys2Proof/Machine/DeltaEngine.lean ====
section
/-! DEFINITION. The frame-delta engine (`43_delta_engine.md`): `DE.INIT`, `DE.DELTA`, `DE.TRIM`, `DE.DISPOSE`, `DE.COMMIT`, and the
delay normalisation of R186. -/

namespace Sys2Proof.Machine

def Cfg.width (cfg : Cfg) : Nat := cfg.w.toNat
def Cfg.height (cfg : Cfg) : Nat := cfg.h.toNat

/-- The cleared Render Buffer: every pixel `TRANSPARENT` (R41), so nothing is listed. -/
def clearedBuffer : List (Nat × Color) := []

/-- A delta engine command is legal with `DE.ready = 1` and in its step only; otherwise it raises `BAD_STATE` (R172). -/
def inStep (step : DeStep) (cmd : Word) (s : State) (a : Answer) : Answer :=
  unlessFaulted s <|
    if s.de.ready = true ∧ s.de.step = step then a else .next (s.raise .badState cmd)

/-- `DE.INIT` after its check (R173). -/
def initCanvas (s : State) : State :=
  s.setDe { s.de with rb := clearedBuffer }.setStarted

/-- "only if delta-frames are enabled, a previous committed frame exists, and the active quantizer supports a transparent
color" (R175). -/
def deltaApplies (s : State) : Bool := s.cfg.deltaAllowed && s.de.havePrev && s.cfg.qTransp

/-- `DE.DELTA 0`: the working buffer (R175). -/
def deltaWorking (s : State) : State :=
  s.setFrames { s.frames with
    wb := Memory.update transparent s.cfg.width s.cfg.height
      (fun y x c => if c = Memory.read transparent s.de.rb (Memory.pixel y x) then transparent else c) s.frames.wb }

/-- `DE.DELTA 1`: the indexed frame (R175). -/
def deltaIndexed (s : State) : State :=
  s.setFrames { s.frames with
    idx := Memory.update 0 s.cfg.width s.cfg.height
      (fun y x i =>
        if Memory.read transparent s.frames.pal i.toNat = Memory.read transparent s.de.rb (Memory.pixel y x)
        then s.frames.tIdx else i) s.frames.idx }

/-- `DE.DELTA` after its check (R175). -/
def deltaFrame (indexed : BitVec 1) (s : State) : State :=
  if deltaApplies s then
    if indexed = 0 then deltaWorking s
    else if s.frames.tIdxValid then deltaIndexed s else s
  else s

/-- Some pixel of column `x` is visible. -/
def State.visCol (s : State) (x : Nat) : Bool := (List.range s.cfg.height).any fun y => s.frames.vis y x

/-- Some pixel of row `y` is visible. -/
def State.visRow (s : State) (y : Nat) : Bool := (List.range s.cfg.width).any fun x => s.frames.vis y x

/-- `(locX, locY, frW, frH)` as `DE.TRIM` finds them (R178): the whole canvas, or the least and greatest visible columns and
rows, or one pixel at the centre. -/
def trimBox (par : Config.Params) (s : State) : Nat × Nat × Nat × Nat :=
  if s.cfg.keepBorders then (0, 0, s.cfg.width, s.cfg.height)
  else
    match (List.range s.cfg.width).find? s.visCol, (List.range s.cfg.width).reverse.find? s.visCol,
      (List.range s.cfg.height).find? s.visRow, (List.range s.cfg.height).reverse.find? s.visRow with
    | some x0, some x1, some y0, some y1 => (x0, y0, x1 - x0 + 1, y1 - y0 + 1)
    | _, _, _, _ =>
      ((par.center s.cfg.width s.cfg.height).1, (par.center s.cfg.width s.cfg.height).2, 1, 1)

/-- `DE.TRIM` after its check (R178). -/
def trimFrame (par : Config.Params) (s : State) : State :=
  match trimBox par s with
  | (x, y, w, h) => s.setDe { s.de with locX := x, locY := y, frW := w, frH := h, step := .trimmed }

/-- Some pixel opaque in the composited result is transparent in the next frame (R181, `90_conflicts.md` C2). -/
def newlyTransparent (s : State) : Bool :=
  (Memory.canvas s.cfg.width s.cfg.height).any fun p =>
    s.cfg.opaqueQ (s.comp p.1 p.2) && s.cfg.transpQ (Memory.read transparent s.frames.nxt (Memory.pixel p.1 p.2))

/-- `P_LAST_DISPOSAL` (R181). -/
def lastDisposal (par : Config.Params) : Disposal :=
  if par.lastDisposalIsBackground then .restoreBackground else .doNotDispose

/-- `DE.DISPOSE` after its check (R181). -/
def disposeFrame (par : Config.Params) (hasNext : BitVec 1) (s : State) : State :=
  if s.cfg.deltaAllowed = false then
    s.setDe { s.de with
      disp := if hasNext = 1 ∨ s.cfg.looping = true then .restoreBackground else lastDisposal par
      step := .decided }
  else if s.cfg.qTransp = true ∧ hasNext = 1 ∧ newlyTransparent s = true then
    s.setDe { s.de with disp := .restoreBackground, rb := clearedBuffer, step := .decided }.setCleared
  else s.setDe { s.de with disp := .doNotDispose, step := .decided }

/-- Is the pixel inside the clipped frame? -/
def Delta.inClip (de : Delta) (y x : Nat) : Bool :=
  de.locY ≤ y && y < de.locY + de.frH && de.locX ≤ x && x < de.locX + de.frW

/-- The visible pixels of the clipped frame over the Render Buffer (R184); only pixels of the canvas exist (log entry 17). -/
def composited (s : State) : List (Nat × Color) :=
  Memory.update transparent s.cfg.width s.cfg.height
    (fun y x c => if s.de.inClip y x && s.frames.vis y x then s.frames.col y x else c) s.de.rb

/-- `DE.COMMIT` after its check (R184): nothing is composited when the disposal is 2 (`90_conflicts.md` C3). -/
def commitFrame (s : State) : State :=
  if s.de.disp = .restoreBackground then s.setDe s.de.setCommitted
  else s.setDe { s.de with rb := composited s }.setComposited.setCommitted

/-- `DE.INIT` (R173, R206). -/
def execDeInit (s : State) : Answer :=
  unlessFaulted s <|
    if s.cfg.width = 0 ∨ s.cfg.height = 0 then .next (s.raise .deConfig (encode .deInit))
    else .next (initCanvas s)

/-- `DE.DELTA indexed` (R175). -/
def execDeDelta (indexed : BitVec 1) (s : State) : Answer :=
  inStep .frameOpen (encode (.deDelta indexed)) s <| .next (deltaFrame indexed s)

/-- `DE.TRIM` (R178). -/
def execDeTrim (s : State) : Answer :=
  inStep .frameOpen (encode .deTrim) s <| .next (trimFrame Config.params s)

/-- `DE.DISPOSE hasNext` (R181). -/
def execDeDispose (hasNext : BitVec 1) (s : State) : Answer :=
  inStep .trimmed (encode (.deDispose hasNext)) s <| .next (disposeFrame Config.params hasNext s)

/-- `DE.COMMIT` (R184). -/
def execDeCommit (s : State) : Answer :=
  inStep .decided (encode .deCommit) s <| .next (commitFrame s)

/-! ### Delay normalisation (R186) -/

/-- The delay `num / den` hundredths, not whole, made whole (U6). -/
def roundDelay (par : Config.Params) (num den : Nat) : Nat :=
  match par.rounding with
  | .floor => num / den
  | .ceiling => num / den + 1
  | .nearest =>
    if 2 * (num % den) < den then num / den
    else if den < 2 * (num % den) then num / den + 1
    else if par.tieUp (num / den) then num / den + 1 else num / den

/-- `NormDelay(d)` for `d = num / den` hundredths of a second (R186); `den = 0` is no number, and gives none. -/
def normDelay (par : Config.Params) (cfg : Cfg) (num den : Nat) : Option Nat :=
  if den = 0 then none
  else if num = 0 then some (if cfg.zeroDelayDefault then par.zeroDelayTicks else 0)
  else if num < den then some Config.delayMin
  else if Config.delayMax * den < num then some Config.delayMax
  else some (if num % den = 0 then num / den else roundDelay par num den)

end Sys2Proof.Machine
end

