-- ==== Sys2Proof/Machine/BitWriter.lean ====
section
/-! DEFINITION. The Bit Writer (`40_bit_writer.md`): `PushByte`, `EmitBlock`, `BW.WRITE_CODE`, `BW.FLUSH`. -/

namespace Sys2Proof.Machine

/-- `EmitBlock()` (R103): the staged bytes as one sub-block, one burst. -/
def emitBlock (s : State) : Except State State :=
  (sinkWrite (BitVec.ofNat 8 s.bw.scnt :: s.bw.stg.take s.bw.scnt) s).map fun s =>
    s.setBw { s.bw with stg := [], scnt := 0 }

/-- `PushByte(b)` (R102): eager, the 255th byte emits the block. -/
def pushByte (b : Byte) (s : State) : Except State State :=
  let s := s.setBw { s.bw with stg := s.bw.stg.take s.bw.scnt ++ [b], scnt := s.bw.scnt + 1 }
  if s.bw.scnt = Config.blockMax then emitBlock s else .ok s

/-- The loop of R100: whole bytes leave the accumulator, oldest first. -/
def drain : Nat → State → Except State State
  | 0, s => .ok s
  | fuel + 1, s =>
    if 8 ≤ s.bw.nbits then
      (pushByte (s.bw.acc.setWidth 8) s).bind fun s =>
        drain fuel (s.setBw { s.bw with acc := s.bw.acc >>> 8, nbits := s.bw.nbits - 8 })
    else .ok s

/-- `BW.WRITE_CODE(code, bitWidth)` as an operation (R100). Every turn of the loop takes 8 bits, so `BW.nbits` turns are
enough. -/
def writeCode (code bitWidth : Nat) (s : State) : Except State State :=
  let v : Word := BitVec.ofNat 32 (code % (1 <<< bitWidth))
  let nbits := s.bw.nbits + bitWidth
  drain nbits (s.setBw { s.bw with acc := s.bw.acc ||| (v <<< s.bw.nbits), nbits := nbits })

/-- The zero-padded last byte of R104, if there is one. -/
def flushBits (s : State) : Except State State :=
  if 0 < s.bw.nbits then
    (pushByte (s.bw.acc.setWidth 8) s).map fun s => s.setBw { s.bw with acc := 0, nbits := 0 }
  else .ok s

/-- The partial sub-block of R104, if there is one. -/
def flushBlock (s : State) : Except State State :=
  if 0 < s.bw.scnt then emitBlock s else .ok s

/-- `BW.FLUSH()` as an operation (R104); the terminator is written here and nowhere else (`90_conflicts.md` C1). -/
def flush (s : State) : Except State State :=
  (flushBits s).bind fun s => (flushBlock s).bind fun s => sinkWrite [Config.terminator] s

/-- `BW.WRITE_CODE code, bitWidth` (R100); a reserved width is refused (R101). -/
def execBwWriteCode (code : BitVec 12) (bitWidth : BitVec 4) (s : State) : Answer :=
  unlessFaulted s <|
    if 1 ≤ bitWidth.toNat ∧ bitWidth.toNat ≤ Config.maxWidth then
      finish (encode (.bwWriteCode code bitWidth)) (writeCode code.toNat bitWidth.toNat s)
    else .refused .reservedBitWidth

/-- `BW.FLUSH` (R104). -/
def execBwFlush (s : State) : Answer :=
  unlessFaulted s <| finish (encode .bwFlush) (flush s)

end Sys2Proof.Machine
end

