-- ==== Sys2Proof/Machine/CodeTable.lean ====
section
/-! DEFINITION. The Code Table (`41_code_table.md`): `CT.RESET`, `CT.TRY_GET`, `CT.TRY_ADD`. -/

namespace Sys2Proof.Machine

/-- `CT.RESET()` as an operation (R120); the result flags keep their values. -/
def ctReset (s : State) : State :=
  s.setCt { s.ct with tab := [], width := s.ct.mcs + 1, next := s.ct.firstCode }

/-- What a lookup of `seq` finds (R121): a one-index sequence has its index as its code, a longer one the code it is
stored with. -/
def ctFind (ct : CodeTable) (seq : IndexSeq) : Option Nat := codeOf ct seq

/-- `CT.TRY_GET(s)` as an operation (R121). -/
def ctTryGet (seq : IndexSeq) (s : State) : State :=
  match ctFind s.ct seq with
  | some c => s.setCt (s.ct.setLookup s.free (some c))
  | none => (s.setCt (s.ct.setLookup s.free none)).useFree 1

/-- The growth test of R124: the width grows when the code about to be assigned is `1 << width`. -/
def CodeTable.grow (ct : CodeTable) : CodeTable :=
  if ct.next = 1 <<< ct.width then { ct with width := ct.width + 1 } else ct

/-- The insertion of R124: the next code goes to `seq`. -/
def CodeTable.insert (ct : CodeTable) (seq : IndexSeq) : CodeTable :=
  { ct with tab := ct.tab ++ [(seq, ct.next)], next := ct.next + 1 }

/-- `CT.TRY_ADD(s)` as an operation (R124): full test, growth test, assignment. -/
def ctTryAdd (seq : IndexSeq) (s : State) : State :=
  if s.ct.next = Config.maxCodes then s.setCt (s.ct.setAdded false)
  else s.setCt ((s.ct.grow.insert seq).setAdded true)

/-- `CT.RESET` (R120). -/
def execCtReset (s : State) : Answer :=
  unlessFaulted s <| .next (ctReset s)

/-- `CT.TRY_GET prefix, last` (R121, R75). -/
def execCtTryGet (prefixCode : BitVec 12) (last : Byte) (s : State) : Answer :=
  unlessFaulted s <|
    match busSeq s.ct prefixCode last with
    | some seq => .next (ctTryGet seq s)
    | none => .refused .noSuchSequence

/-- `CT.TRY_ADD prefix, last` (R124, R75); a sequence already stored is refused (U3). -/
def execCtTryAdd (prefixCode : BitVec 12) (last : Byte) (s : State) : Answer :=
  unlessFaulted s <|
    match busSeq s.ct prefixCode last with
    | none => .refused .noSuchSequence
    | some seq =>
      match lookup seq s.ct.tab with
      | some _ => .refused .alreadyStored
      | none => .next (ctTryAdd seq s)

end Sys2Proof.Machine
end

