-- ==== Sys2Proof/Machine/LzwEncoder.lean ====
section
/-! DEFINITION. The LZW Encoder (`42_lzw_encoder.md`): `LZW.BEGIN`, `LZW.PIXEL`, `LZW.END`, `LZW.ABORT`. The checks of R202
come before any state is written. -/

namespace Sys2Proof.Machine

/-- `Emit(c)` (R145): the code at the Code Table's current width. -/
def emit (code : Nat) (s : State) : Except State State := writeCode code s.ct.width s

/-- The minimum-code-size byte, if the block writes it (R142, `P_EMIT_MCS`). -/
def writeMcs (par : Config.Params) (s : State) : Except State State :=
  if par.emitMcs then sinkWrite [BitVec.ofNat 8 s.ct.mcs] s else .ok s

/-- `LZW.BEGIN` after its checks (R142). `LZW.cur` is re-initialised (R20) to no stated value (log entry 8). -/
def beginFrame (par : Config.Params) (paletteSize : Nat) (s : State) : Except State State :=
  let s := (s.setCt { s.ct with mcs := minCodeSize paletteSize }).setBw .empty
  (writeMcs par s).bind fun s =>
    (writeCode s.ct.clearCode (s.ct.mcs + 1) s).map fun s =>
      ((ctReset s).setLzw ⟨.first, Config.freeMatch s.free⟩).useFree 1

/-- `LZW.PIXEL` in `RUN` when the extended sequence is not in the table (R144): `code` is that of the match, `ext` the
extended sequence. -/
def newMatch (code : Nat) (ext : IndexSeq) (p : Byte) (s : State) : Except State State :=
  (emit code s).bind fun s =>
    let s := ctTryAdd ext (s.setLzw { s.lzw with cur := [p] })
    if s.ct.added then .ok s else (emit s.ct.clearCode s).map ctReset

/-- `LZW.PIXEL` in `RUN` after its checks (R144). -/
def nextPixel (cmd : Word) (p : Byte) (s : State) : Answer :=
  let ext := s.lzw.cur ++ [p]
  let t := ctTryGet ext s
  if t.ct.hit then .next (t.setLzw { t.lzw with cur := ext })
  else
    match codeOf t.ct t.lzw.cur with
    | none => .fault .matchWithoutCode
    | some code => finish cmd (newMatch code ext p t)

/-- The width of the end code (R147, `P_EOI_GROW`). -/
def eoiWidth (par : Config.Params) (ct : CodeTable) : Nat :=
  if par.eoiGrow ∧ ct.next = 1 <<< ct.width ∧ ct.width < Config.maxWidth then ct.width + 1 else ct.width

/-- `LZW.END` after its checks (R147): `code` is that of the final match. -/
def endFrame (par : Config.Params) (code : Nat) (s : State) : Except State State :=
  (emit code s).bind fun s =>
    (writeCode s.ct.eoi (eoiWidth par s.ct) s).bind fun s =>
      (flush s).map fun s => s.setLzw { s.lzw with st := .done }

/-- `LZW.ABORT` (R148). -/
def abortFrame (s : State) : State :=
  ((s.setBw .empty).setCt { s.ct with tab := [] }).setLzw { s.lzw with st := .idle }

/-- `LZW.BEGIN paletteSize` (R142). -/
def execLzwBegin (paletteSize : BitVec 9) (s : State) : Answer :=
  let cmd := encode (.lzwBegin paletteSize)
  unlessFaulted s <|
    match s.lzw.st with
    | .first | .run => .next (s.raise .badState cmd)
    | .idle | .done =>
      if paletteSize.toNat = 0 ∨ Config.paletteMax < paletteSize.toNat then .next (s.raise .operandRange cmd)
      else finish cmd (beginFrame Config.params paletteSize.toNat s)

/-- `LZW.PIXEL p` (R143, R144). -/
def execLzwPixel (p : Byte) (s : State) : Answer :=
  let cmd := encode (.lzwPixel p)
  unlessFaulted s <|
    match s.lzw.st with
    | .idle | .done => .next (s.raise .badState cmd)
    | .first =>
      if s.ct.clearCode ≤ p.toNat then .next (s.raise .operandRange cmd)
      else .next (s.setLzw ⟨.run, [p]⟩)
    | .run =>
      if s.ct.clearCode ≤ p.toNat then .next (s.raise .operandRange cmd)
      else nextPixel cmd p s

/-- `LZW.END` (R147). -/
def execLzwEnd (s : State) : Answer :=
  let cmd := encode .lzwEnd
  unlessFaulted s <|
    match s.lzw.st with
    | .idle | .done => .next (s.raise .badState cmd)
    | .first => .next (s.raise .emptyFrame cmd)
    | .run =>
      match codeOf s.ct s.lzw.cur with
      | none => .fault .matchWithoutCode
      | some code => finish cmd (endFrame Config.params code s)

/-- `LZW.ABORT` (R148): legal in every state, no fault, nothing written to the sink. -/
def execLzwAbort (s : State) : Answer :=
  unlessFaulted s <| .next (abortFrame s)

end Sys2Proof.Machine
end

