-- ==== Sys2Proof/Machine/Dispatch.lean ====
section
/-! DEFINITION. One arm per operation of the opcode table. -/

namespace Sys2Proof.Machine

def exec (i : Instr) (s : State) : Host.Outcome State Fault Refusal :=
  match i with
  | .lzwBegin n => Sys2Proof.Machine.execLzwBegin n s
  | .lzwPixel p => Sys2Proof.Machine.execLzwPixel p s
  | .lzwEnd => Sys2Proof.Machine.execLzwEnd s
  | .lzwAbort => Sys2Proof.Machine.execLzwAbort s
  | .ctReset => Sys2Proof.Machine.execCtReset s
  | .ctTryGet pre last => Sys2Proof.Machine.execCtTryGet pre last s
  | .ctTryAdd pre last => Sys2Proof.Machine.execCtTryAdd pre last s
  | .bwWriteCode code w => Sys2Proof.Machine.execBwWriteCode code w s
  | .bwFlush => Sys2Proof.Machine.execBwFlush s
  | .deInit => Sys2Proof.Machine.execDeInit s
  | .deDelta indexed => Sys2Proof.Machine.execDeDelta indexed s
  | .deTrim => Sys2Proof.Machine.execDeTrim s
  | .deDispose hasNext => Sys2Proof.Machine.execDeDispose hasNext s
  | .deCommit => Sys2Proof.Machine.execDeCommit s

end Sys2Proof.Machine
end

