-- ==== Sys2Proof/Machine/Ports.lean ====
section
/-! DEFINITION. What arrives at the block: a command word on a port (R78, R202), the reset input (R230), the host's writes to the
inputs (R44, R45). -/

namespace Sys2Proof.Machine

/-- A command word on a port. The order is R202's: the fault state ignores it; a word that is no operation of the port is
`ILLEGAL_CMD` (R203); the operation checks the rest. The internal bus carries `CT` and `BW` words only (R78, log entry 2). -/
def command (port : Port) (w : Word) (s : State) : Answer :=
  unlessFaulted s <|
    match port, decode w with
    | .commandPort, .ok i => if i.port = .commandPort then exec i s else .next (s.raise .illegalCmd w)
    | .commandPort, .error _ => .next (s.raise .illegalCmd w)
    | .internalBus, .ok i => if i.port = .internalBus then exec i s else .refused .noSuchBusWord
    | .internalBus, .error _ => .refused .noSuchBusWord

/-- A host write to a pixel of the canvas (R45); another pixel does not exist (log entry 18). -/
def onCanvas (y x : BitVec 16) (s : State) (f : Frames) : Answer :=
  if y.toNat < s.cfg.height ∧ x.toNat < s.cfg.width then .next (s.setFrames f) else .fault .noSuchPixel

/-- What one event does. -/
def occur (s : State) : HostEvent → Answer
  | .command port w => command port w s
  | .rst => .next s.takeReset
  | .configure cfg => .next { s with cfg := cfg }
  | .writeWb y x c =>
    onCanvas y x s { s.frames with wb := Memory.write transparent s.frames.wb (Memory.pixel y.toNat x.toNat) c }
  | .writeIdx y x i =>
    onCanvas y x s { s.frames with idx := Memory.write 0 s.frames.idx (Memory.pixel y.toNat x.toNat) i }
  | .writePal i c => .next (s.setFrames { s.frames with pal := Memory.write transparent s.frames.pal i.toNat c })
  | .writeNxt y x c =>
    onCanvas y x s { s.frames with nxt := Memory.write transparent s.frames.nxt (Memory.pixel y.toNat x.toNat) c }
  | .describePalette n valid i => .next (s.setFrames { s.frames with palN := n, tIdxValid := valid, tIdx := i })

/-- The next event is taken from the stream; with none, the block is idle with its state held (R214, log entry 21). -/
def nextEvent (s : State) : Answer :=
  match s.events with
  | [] => .next s
  | e :: rest => occur { s with events := rest } e

/-- The port a table word travels on: the internal bus for the words of `CT` and `BW` operations (R78). -/
def portOf (w : Word) : Port :=
  match decode w with
  | .ok i => i.port
  | .error _ => .commandPort

/-- The word is presented next, on its port. -/
def State.present (s : State) (w : Word) : State :=
  { s with events := .command (portOf w) w :: s.events }

end Sys2Proof.Machine
end

