-- ==== Sys2Proof/Machine/Step.lean ====
section
/-! DEFINITION. One step: one command, to its end, or one action of the host between two commands (R5, R12). -/

namespace Sys2Proof.Machine

/-- One step. -/
def step (s : State) : Host.Outcome State Fault Refusal := nextEvent s

/-- `s` with the opcode table's word presented as the next command, on the port the table gives the row. The hardware fetches no
instructions (R37, R66): commands arrive in the order the host sends them (log entry 1). -/
def State.withFetchWord (s : State) (nbits w : Nat) : State := s.present (tableWord nbits w)

end Sys2Proof.Machine
end

