-- ==== Sys2Proof/Machine/Status.lean ====
section
/-! DEFINITION. The status port (R39): every state element of the block, read-only, at the width the spec gives it. Reading it has
no side effect: it is a function of the state. -/

namespace Sys2Proof.Machine

/-- `LZW.st` on the status port (R31). -/
def LzwSt.code : LzwSt → BitVec 2
  | .idle => 0
  | .first => 1
  | .run => 2
  | .done => 3

/-- `DE.step` (R42). -/
def DeStep.code : DeStep → BitVec 2
  | .frameOpen => 0
  | .trimmed => 1
  | .decided => 2

/-- `DE.disp` (R91). -/
def Disposal.code : Disposal → BitVec 3
  | .unspecified => 0
  | .doNotDispose => 1
  | .restoreBackground => 2
  | .restorePrevious => 3

/-- Every state element of the block, each at the width the spec gives it (R21 to R34, R41 to R43). Of `BW.stg` the bytes
that hold a value (R23). -/
structure Status where
  bwStg : List Byte
  ctTab : List (IndexSeq × BitVec 12)
  lzwCur : IndexSeq
  deRb : List (Nat × Color)
  bwAcc : BitVec 32
  bwNbits : BitVec 5
  bwScnt : BitVec 8
  ctMcs : BitVec 4
  ctWidth : BitVec 4
  ctNext : BitVec 13
  ctHit : Bool
  ctCodeQ : BitVec 12
  ctAdded : Bool
  lzwSt : BitVec 2
  fltCause : BitVec 4
  fltInfo : BitVec 32
  deReady : Bool
  deHavePrev : Bool
  deRbCleared : Bool
  deStep : BitVec 2
  deLocX : BitVec 16
  deLocY : BitVec 16
  deFrW : BitVec 16
  deFrH : BitVec 16
  deDisp : BitVec 3
  deriving DecidableEq, Repr

/-- What the host reads on the status port (R39): "all state" of the block (`92_eei_decisions.md` D4). -/
def State.status (s : State) : Status where
  bwStg := s.bw.stg.take s.bw.scnt
  ctTab := s.ct.tab.map fun e => (e.1, BitVec.ofNat 12 e.2)
  lzwCur := s.lzw.cur
  deRb := s.de.rb
  bwAcc := s.bw.acc
  bwNbits := BitVec.ofNat 5 s.bw.nbits
  bwScnt := BitVec.ofNat 8 s.bw.scnt
  ctMcs := BitVec.ofNat 4 s.ct.mcs
  ctWidth := BitVec.ofNat 4 s.ct.width
  ctNext := BitVec.ofNat 13 s.ct.next
  ctHit := s.ct.hit
  ctCodeQ := BitVec.ofNat 12 s.ct.codeQ
  ctAdded := s.ct.added
  lzwSt := s.lzw.st.code
  fltCause := s.flt.cause.code
  fltInfo := s.flt.info
  deReady := s.de.ready
  deHavePrev := s.de.havePrev
  deRbCleared := s.de.rbCleared
  deStep := s.de.step.code
  deLocX := BitVec.ofNat 16 s.de.locX
  deLocY := BitVec.ofNat 16 s.de.locY
  deFrW := BitVec.ofNat 16 s.de.frW
  deFrH := BitVec.ofNat 16 s.de.frH
  deDisp := s.de.disp.code

end Sys2Proof.Machine
end

