-- ==== Sys2Proof/Machine/OutputFormat.lean ====
section
/-! DEFINITION. The output encoding (`30_encoding.md` part B) and the frame function (`42_lzw_encoder.md` R149), written from
their own rules: what the machine's output is to be compared with. No meaning of an instruction calls them. -/

namespace Sys2Proof.Machine

/-- A code with the width it is emitted at (R83). -/
abbrev Emitted := Nat × Nat

/-- `V = sum over i of c_i << (w_1 + ... + w_(i-1))` (R83), each code taken modulo its width (R106). -/
def packedValue : List Emitted → Nat
  | [] => 0
  | (c, w) :: rest => c % (1 <<< w) + packedValue rest <<< w

/-- `L = w_1 + ... + w_k` (R83). -/
def packedLength (codes : List Emitted) : Nat := (codes.map Prod.snd).sum

/-- Data byte `j` is `(V >> (8 j)) mod 256`; there are `ceil(L / 8)` of them (R83). -/
def dataBytes (codes : List Emitted) : List Byte :=
  (List.range ((packedLength codes + 7) / 8)).map fun j => BitVec.ofNat 8 (packedValue codes >>> (8 * j) % 256)

/-- Sub-blocks of at most 255 data bytes, each after its length (R84); `fuel` bounds their number. -/
def subBlocksUpTo : Nat → List Byte → List Byte
  | 0, _ => []
  | fuel + 1, data =>
    if data = [] then []
    else BitVec.ofNat 8 (data.take Config.blockMax).length :: data.take Config.blockMax ++
      subBlocksUpTo fuel (data.drop Config.blockMax)

/-- The sub-blocks of the data bytes (R84). -/
def subBlocks (data : List Byte) : List Byte := subBlocksUpTo data.length data

/-- The data as sub-blocks, then the terminator: what the Bit Writer makes of a stream of codes (R106). -/
def blockStream (codes : List Emitted) : List Byte := subBlocks (dataBytes codes) ++ [Config.terminator]

/-- The image data block of a frame (R85). -/
def imageData (mcs : Nat) (codes : List Emitted) : List Byte := BitVec.ofNat 8 mcs :: blockStream codes

/-- The variables of the frame function (R149): the codes so far, and `tab`, `width`, `next`, `cur`. -/
structure Parse where
  codes : List Emitted
  tab : List (IndexSeq × Nat)
  width : Nat
  next : Nat
  cur : IndexSeq
  deriving DecidableEq, Repr

/-- `CodeOf(cur)` over the dictionary of the frame function. -/
def Parse.code (f : Parse) : Option Nat :=
  match f.cur with
  | [] => none
  | [i] => some i.toNat
  | s => lookup s f.tab

/-- The frame function before its loop, for the first pixel (R149). -/
def Parse.start (m : Nat) (p : Byte) : Parse := ⟨[(1 <<< m, m + 1)], [], m + 1, (1 <<< m) + 2, [p]⟩

/-- One turn of the loop of R149. -/
def Parse.pixel (m : Nat) (f : Parse) (p : Byte) : Option Parse :=
  let ext := f.cur ++ [p]
  match lookup ext f.tab with
  | some _ => some { f with cur := ext }
  | none =>
    f.code.map fun c =>
      if f.next = 4096 then
        ⟨f.codes ++ [(c, f.width), (1 <<< m, f.width)], [], m + 1, (1 <<< m) + 2, [p]⟩
      else
        ⟨f.codes ++ [(c, f.width)], f.tab ++ [(ext, f.next)],
          if f.next = 1 <<< f.width then f.width + 1 else f.width, f.next + 1, [p]⟩

/-- The loop of R149. -/
def Parse.pixels (m : Nat) : Parse → List Byte → Option Parse
  | f, [] => some f
  | f, p :: ps => (f.pixel m p).bind fun f => Parse.pixels m f ps

/-- The last line of R149: the final match's code and `EOI`. -/
def Parse.finish (m : Nat) (f : Parse) : Option (List Emitted) :=
  f.code.map fun c => f.codes ++ [(c, f.width), ((1 <<< m) + 1, f.width)]

/-- The (code, width) list of a frame (R149); none for a frame without a pixel. -/
def frameCodes (m : Nat) : List Byte → Option (List Emitted)
  | [] => none
  | p :: ps => (Parse.pixels m (Parse.start m p) ps).bind (Parse.finish m)

end Sys2Proof.Machine
end

