-- ==== Sys2Proof/Safety.lean ====
section
/-! DEFINITION. What a safe run is, in the terms the statements use: a block without a fault, a sink that accepts, registers in
their ranges, and the invariants the spec states of the units. -/

namespace Sys2Proof.Machine

/-! ### Conditions on a state -/

/-- No fault has been taken (R34). -/
abbrev State.running (s : State) : Prop := s.flt.cause = .none

/-- The sink accepts every coming burst (R52). -/
def State.sinkAccepts (s : State) : Prop := ∀ a ∈ s.sinkFail, a = .accepted

/-- Every coming command is on the command port: the internal bus carries the LZW unit's own calls only (R78). -/
def State.busQuiet (s : State) : Prop := ∀ w, HostEvent.command .internalBus w ∉ s.events

/-- The host holds `cfg.*` constant (R44 (a)). -/
def State.cfgHeld (s : State) : Prop := ∀ c, HostEvent.configure c ∉ s.events

/-! ### Invariants -/

/-- The Bit Writer between commands (R105, R21, R22, R24); the staged bytes that hold a value are `BW.stg[0 .. BW.scnt - 1]`
(R23). -/
def BitWriter.ok (b : BitWriter) : Prop :=
  b.nbits ≤ 7 ∧ b.acc.toNat < 1 <<< b.nbits ∧ b.scnt ≤ 254 ∧ b.stg.length = b.scnt

/-- The Code Table's counters (R25 to R27, R30 (b), R128). -/
def CodeTable.ok (ct : CodeTable) : Prop :=
  2 ≤ ct.mcs ∧ ct.mcs ≤ 8 ∧ ct.firstCode ≤ ct.next ∧ ct.next ≤ 4096 ∧ ct.width = bitlen (ct.next - 1)

/-- A sequence has a code: one index, or stored (R30 (d), R150 (a)). -/
def CodeTable.has (ct : CodeTable) (s : IndexSeq) : Prop := s.length = 1 ∨ s ∈ ct.tab.map Prod.fst

/-- The dictionary is a map both ways (R28, R54, R55): no sequence and no code is stored twice; it holds sequences of two indices or
more, under codes already assigned. -/
def CodeTable.mapOk (ct : CodeTable) : Prop :=
  (ct.tab.map Prod.fst).Nodup ∧ (ct.tab.map Prod.snd).Nodup ∧
  ∀ e ∈ ct.tab, 2 ≤ e.1.length ∧ ct.firstCode ≤ e.2 ∧ e.2 < ct.next

/-- The dictionary (R30): (a) its codes are exactly `FirstCode .. CT.next - 1`, each once, and no sequence is stored twice;
(c) every code fits the width; (d) it holds sequences of two indices or more, and is prefix-closed. -/
def CodeTable.tabOk (ct : CodeTable) : Prop :=
  ct.tab.map Prod.snd = List.range' ct.firstCode (ct.next - ct.firstCode) ∧
  (ct.tab.map Prod.fst).Nodup ∧
  (∀ e ∈ ct.tab, e.2 < 1 <<< ct.width) ∧
  ∀ e ∈ ct.tab, 2 ≤ e.1.length ∧ ct.has e.1.dropLast

/-- The current match in `RUN` has a code (R32, R150 (a)), and its indices are below `ClearCode` (R143). -/
def State.matchOk (s : State) : Prop :=
  s.lzw.st = .run → s.ct.has s.lzw.cur ∧ ∀ i ∈ s.lzw.cur, i.toNat < s.ct.clearCode

/-- Every register's value fits the register's width (R13; the widths of R22 to R43), and the staged bytes the buffer (R23). -/
def State.fits (s : State) : Prop :=
  s.bw.nbits < 2 ^ 5 ∧ s.bw.scnt < 2 ^ 8 ∧ s.bw.stg.length ≤ 255 ∧ s.ct.mcs < 2 ^ 4 ∧ s.ct.width < 2 ^ 4 ∧ s.ct.next < 2 ^ 13 ∧
  s.ct.codeQ < 2 ^ 12 ∧ (∀ e ∈ s.ct.tab, e.2 < 2 ^ 12) ∧
  s.de.locX < 2 ^ 16 ∧ s.de.locY < 2 ^ 16 ∧ s.de.frW < 2 ^ 16 ∧ s.de.frH < 2 ^ 16

/-- The Bit Writer and the Code Table are in order, unless a sink failure has left them unspecified (R210, U4). -/
def State.unitsOk (s : State) : Prop := s.flt.cause ≠ .sinkIo → s.bw.ok ∧ s.ct.ok ∧ s.ct.mapOk

/-- The encoder's invariant (R30, R150): the dictionary from the end of `LZW.BEGIN` on, and the current match. Nothing is said of the
dictionary in `IDLE`: R148 empties `CT.tab` and leaves `CT.next`, so that R30 (a) fails after `LZW.ABORT`, although R30 names no
end to its span (the model follows R148's pseudocode, log entry 25). -/
def State.encoderOk (s : State) : Prop :=
  s.flt.cause ≠ .sinkIo → s.bw.ok ∧ s.ct.ok ∧ (s.lzw.st ≠ .idle → s.ct.tabOk) ∧ s.matchOk

/-- The memories have their canonical form. -/
def State.memoriesWf (s : State) : Prop :=
  Memory.wf transparent s.de.rb ∧ Memory.wf transparent s.frames.wb ∧ Memory.wf (0 : Byte) s.frames.idx ∧
  Memory.wf transparent s.frames.pal ∧ Memory.wf transparent s.frames.nxt

/-- The clipped frame lies in the canvas, and is not empty (R43, R13). -/
def State.clipOk (s : State) : Prop :=
  1 ≤ s.de.frW ∧ 1 ≤ s.de.frH ∧ s.de.locX + s.de.frW ≤ s.cfg.w.toNat ∧ s.de.locY + s.de.frH ≤ s.cfg.h.toNat

/-- The delta engine's invariant: a canvas once it is ready (R173), a clip in the canvas once trimmed (R172, R178), a disposal of
1 or 2 once decided (R91), and a Render Buffer marked cleared is clear (R42), unless a sink failure has left it all unspecified
(R210, U4). -/
def State.deltaOk (s : State) : Prop := s.flt.cause ≠ .sinkIo →
  (s.de.ready = true → 0 < s.cfg.w.toNat ∧ 0 < s.cfg.h.toNat) ∧
  (s.de.ready = true → s.de.step ≠ .frameOpen → s.clipOk) ∧
  (s.de.ready = true → s.de.step = .decided → s.de.disp = .doNotDispose ∨ s.de.disp = .restoreBackground) ∧
  (s.de.rbCleared = true → s.de.rb = [])

/-! ### Sequences of instructions -/

/-- Instructions one after another, stopping at the first that does not answer a next state. -/
def execAll : List Instr → State → Answer
  | [], s => .next s
  | i :: is, s =>
    match exec i s with
    | .next t => execAll is t
    | .fault r => .fault r
    | .refused r => .refused r

/-! ### What the rules' tables say -/

/-- A cell of the table of R140: the next state of `LZW.st`, or the fault raised; none for an operation the table does not list. -/
def encoderCell (st : LzwSt) : Instr → Option (LzwSt ⊕ Cause)
  | .lzwBegin _ =>
    match st with
    | .idle | .done => some (.inl .first)
    | .first | .run => some (.inr .badState)
  | .lzwPixel _ =>
    match st with
    | .first | .run => some (.inl .run)
    | .idle | .done => some (.inr .badState)
  | .lzwEnd =>
    match st with
    | .run => some (.inl .done)
    | .first => some (.inr .emptyFrame)
    | .idle | .done => some (.inr .badState)
  | .lzwAbort => some (.inl .idle)
  | _ => none

/-- The causes a command can raise (R201, R215). -/
def causesOf : Instr → List Cause
  | .lzwBegin _ => [.badState, .operandRange, .sinkIo]
  | .lzwPixel _ => [.badState, .operandRange, .sinkIo]
  | .lzwEnd => [.badState, .emptyFrame, .sinkIo]
  | .lzwAbort => []
  | .ctReset | .ctTryGet _ _ | .ctTryAdd _ _ => []
  | .bwWriteCode _ _ | .bwFlush => [.sinkIo]
  | .deInit => [.deConfig]
  | .deDelta _ | .deTrim | .deDispose _ | .deCommit => [.badState]

/-- The step a delta engine command needs (R172); none for `DE.INIT`, which is legal in any, and for other operations. -/
def neededStep : Instr → Option DeStep
  | .deDelta _ | .deTrim => some .frameOpen
  | .deDispose _ => some .trimmed
  | .deCommit => some .decided
  | _ => none

/-- The operations of the delta engine. -/
def isDelta : Instr → Bool
  | .deInit | .deDelta _ | .deTrim | .deDispose _ | .deCommit => true
  | _ => false

/-- The operand of `CT.TRY_GET` and `CT.TRY_ADD` spells the sequence `q` (R75, R55): a literal code, or a stored one. -/
def CodeTable.spells (ct : CodeTable) (c : Nat) (q : IndexSeq) : Prop :=
  (c < 1 <<< ct.mcs ∧ q = [BitVec.ofNat 8 c]) ∨ (q, c) ∈ ct.tab

/-- The sequence `q` has the code `c` (R141). -/
def CodeTable.coded (ct : CodeTable) (q : IndexSeq) (c : Nat) : Prop :=
  (∃ i : Byte, q = [i] ∧ c = i.toNat) ∨ (2 ≤ q.length ∧ (q, c) ∈ ct.tab)

/-! ### Observations -/

/-- The bits appended by `BW.WRITE_CODE` that are still in the block, oldest first (R46): the staged bytes, then the
accumulator. -/
def bitsOf (v n : Nat) : List Bool := (List.range n).map v.testBit

/-- The bits of bytes, each from its bit 0 up (R58). -/
def bitsOfBytes (bytes : List Byte) : List Bool := bytes.flatMap fun b => bitsOf b.toNat 8

def BitWriter.pending (b : BitWriter) : List Bool := bitsOfBytes b.stg ++ bitsOf b.acc.toNat b.nbits

/-- A full sub-block of 255 data bytes, as the sink receives it (R107). -/
def fullBlock (data : List Byte) : List Byte := 0xFF :: data

/-- From `s` to `t` the bits `bits` were appended to the stream, and what went to the sink are whole sub-blocks of 255 data bytes
(R100, R107). -/
def State.appends (s t : State) (bits : List Bool) : Prop :=
  ∃ blocks : List (List Byte), (∀ b ∈ blocks, b.length = 255) ∧ t.out = s.out ++ blocks.flatMap fullBlock ∧
    bitsOfBytes blocks.flatten ++ t.bw.pending = s.bw.pending ++ bits

/-- The data bytes that `BW.FLUSH` still has to write: the staged ones, and the zero-padded last one (R104). -/
def BitWriter.lastData (b : BitWriter) : List Byte := b.stg ++ if 0 < b.nbits then [b.acc.setWidth 8] else []

/-- One sub-block of at most 255 data bytes, none if there are no data (R84). -/
def shortBlock (data : List Byte) : List Byte :=
  if data = [] then [] else BitVec.ofNat 8 data.length :: data

/-- The bursts that write the data bytes, up to 510 of them, as sub-blocks, and then the terminator (R103, R104). -/
def closingBursts (data : List Byte) : List (List Byte) :=
  (if data = [] then []
    else if data.length ≤ 255 then [shortBlock data]
    else [shortBlock (data.take 255), shortBlock (data.drop 255)]) ++ [[0x00]]

/-- The instruction makes the bursts `bursts`, in this order, and at any of them the oracle can fail it (R52, R207): the bursts before
are in the sink, and of the failed one the first `k` bytes. -/
def State.breaksIn (s : State) (i : Instr) (bursts : List (List Byte)) : Prop :=
  ∀ (before : List (List Byte)) (burst : List Byte) (after : List (List Byte)) (k : Nat) (rest : List SinkAnswer),
    bursts = before ++ burst :: after → k < burst.length →
    s.sinkFail = List.replicate before.length .accepted ++ .failed k :: rest →
    ∃ t, exec i s = .next t ∧ t.flt = ⟨.sinkIo, encode i⟩ ∧ t.sinkFail = rest ∧
      t.out = s.out ++ before.flatten ++ burst.take k

/-- With `bits` appended to what is still in the block, the sub-block of the 255 data bytes `data` is complete (R100, R102). -/
def State.fills (s : State) (bits : List Bool) (data : List Byte) : Prop :=
  data.length = 255 ∧ bitsOfBytes data <+: s.bw.pending ++ bits

/-- `bits` appended to what is still in the block are, zero-padded, the data bytes `data` (R83). -/
def State.packs (s : State) (bits : List Bool) (data : List Byte) : Prop :=
  ∃ pad < 8, bitsOfBytes data = s.bw.pending ++ bits ++ List.replicate pad false

/-- Pixel `(y, x)` of a memory of colours. -/
def colorAt (m : List (Nat × Color)) (y x : Nat) : Color := Memory.read transparent m (Memory.pixel y x)

/-- Pixel `(y, x)` of the indexed frame. -/
def indexAt (m : List (Nat × Byte)) (y x : Nat) : Byte := Memory.read 0 m (Memory.pixel y x)

/-- Pixel `(y, x)` is on the canvas. -/
def Cfg.has (cfg : Cfg) (y x : Nat) : Prop := y < cfg.h.toNat ∧ x < cfg.w.toNat

end Sys2Proof.Machine
end

