-- ==== Sys2Proof/Certificates/Slice0/Obligations.lean ====
section
/-! DEFINITION. The statements for the provers. -/

open Sys2Proof Sys2Proof.Machine

/-! ### Encoding -/

/-- The assembler examples of R79 decode to the instructions they stand for (R72 to R76). -/
def Obligations.AssemblerExamplesDecode : Prop :=
  decode 0x10000004 = .ok (.lzwBegin 4) ∧ decode 0x11000003 = .ok (.lzwPixel 3) ∧
  decode 0x12000000 = .ok .lzwEnd ∧ decode 0x13000000 = .ok .lzwAbort ∧
  decode 0x21000601 = .ok (.ctTryGet 6 1) ∧ decode 0x22010241 = .ok (.ctTryAdd 258 0x41) ∧
  decode 0x20000000 = .ok .ctReset ∧ decode 0x30003004 = .ok (.bwWriteCode 4 3) ∧
  decode 0x31000000 = .ok .bwFlush ∧ decode 0x40000000 = .ok .deInit ∧
  decode 0x41000000 = .ok (.deDelta 0) ∧ decode 0x41000001 = .ok (.deDelta 1) ∧
  decode 0x42000000 = .ok .deTrim ∧ decode 0x43000001 = .ok (.deDispose 1) ∧
  decode 0x44000000 = .ok .deCommit

/-- The decoder reads back every instruction, with every operand at every value its field admits (R70, R89). -/
def Obligations.DecodeOfEncodeIsTheInstruction : Prop :=
  ∀ i : Instr, decode (encode i) = .ok i

/-- A word has one meaning: what decodes to an instruction is that instruction's word. -/
def Obligations.DecodedWordsAreTheirEncodings : Prop :=
  ∀ (w : Word) (i : Instr), decode w = .ok i → encode i = w

/-- The decoder is the operation map R72: a word decodes exactly if it selects a row, to that row's operation and port; it selects
no other row; and the operands are the row's fields of `arg`. -/
def Obligations.DecoderFollowsTheOperationMap : Prop :=
  ∀ w : Word,
    (∀ i, decode w = .ok i → ∃ r ∈ opRows, r.selects w = true ∧ r.mnemonic = i.mnemonic ∧ r.port = i.port) ∧
    (∀ r ∈ opRows, r.selects w = true → ∃ i, decode w = .ok i ∧ i.mnemonic = r.mnemonic) ∧
    (∀ r ∈ opRows, ∀ r' ∈ opRows, r.selects w = true → r'.selects w = true → r = r') ∧
    (∀ n, decode w = .ok (.lzwBegin n) → n = w.extractLsb' 0 9) ∧
    (∀ p, decode w = .ok (.lzwPixel p) → p = w.extractLsb' 0 8) ∧
    (∀ pre last, decode w = .ok (.ctTryGet pre last) → pre = w.extractLsb' 8 12 ∧ last = w.extractLsb' 0 8) ∧
    (∀ pre last, decode w = .ok (.ctTryAdd pre last) → pre = w.extractLsb' 8 12 ∧ last = w.extractLsb' 0 8) ∧
    (∀ code n, decode w = .ok (.bwWriteCode code n) → n = w.extractLsb' 12 4 ∧ code = w.extractLsb' 0 12) ∧
    (∀ b, decode w = .ok (.deDelta b) → b = w.extractLsb' 0 1) ∧
    (∀ b, decode w = .ok (.deDispose b) → b = w.extractLsb' 0 1)

/-- R77, the list of illegal words: they match no row. -/
def Obligations.WordsOutsideTheMapAreIllegal : Prop :=
  ∀ w : Word,
    ((∀ r ∈ opRows, r.selects w = false) ↔ ∃ e, decode w = .error e) ∧
    (w.extractLsb' 28 4 = 0 ∨ 5 ≤ (w.extractLsb' 28 4).toNat → ∃ e, decode w = .error e) ∧
    (w.extractLsb' 28 4 = 1 → 4 ≤ (w.extractLsb' 24 4).toNat → ∃ e, decode w = .error e) ∧
    (w.extractLsb' 28 4 = 2 → 3 ≤ (w.extractLsb' 24 4).toNat → ∃ e, decode w = .error e) ∧
    (w.extractLsb' 28 4 = 3 → 2 ≤ (w.extractLsb' 24 4).toNat → ∃ e, decode w = .error e) ∧
    (w.extractLsb' 28 4 = 4 → 5 ≤ (w.extractLsb' 24 4).toNat → ∃ e, decode w = .error e)

/-! ### Steps, faults, reset -/

/-- A step takes the next event from the stream (the model's choice, log entry 1); a command word that decodes to an operation of the
port it stands on is that operation (R12, R78). -/
def Obligations.StepRunsTheDecodedCommand : Prop :=
  ∀ (s : State) (rest : List HostEvent) (w : Word) (i : Instr),
    s.running → decode w = .ok i → s.events = .command i.port w :: rest →
    step s = exec i { s with events := rest }

/-- R203 with R77 and R78: on the command port a word that selects no row of a command port operation faults with `ILLEGAL_CMD`; `FLT.info`
gets the word, and nothing else changes (beside the command leaving the stream). -/
def Obligations.IllegalWordsFault : Prop :=
  ∀ (s : State) (rest : List HostEvent) (w : Word),
    s.running → s.events = .command .commandPort w :: rest →
    (∀ r ∈ opRows, r.selects w = true → r.port = .internalBus) →
    step s = .next { s with events := rest, flt := ⟨.illegalCmd, w⟩ }

/-- The internal bus carries `CT` and `BW` operations only; the model refuses other words there (log entry 2). -/
def Obligations.OtherWordsOnTheBusAreRefused : Prop :=
  ∀ (s : State) (rest : List HostEvent) (w : Word),
    s.running → s.events = .command .internalBus w :: rest →
    (∀ r ∈ opRows, r.selects w = true → r.port = .commandPort) →
    step s = .refused .noSuchBusWord

/-- R210, R202 item 1: in the fault state every command, legal or not, is accepted and ignored. -/
def Obligations.FaultStateIgnoresEveryCommand : Prop :=
  ∀ s : State, ¬ s.running →
    (∀ i, exec i s = .next s) ∧
    ∀ port w rest, s.events = .command port w :: rest → step s = .next { s with events := rest }

/-- R34: a fault is sticky. No event but the reset input changes the fault registers of a faulted block or lets it write to the sink, and the
reset input clears them both. -/
def Obligations.OnlyResetLeavesTheFaultState : Prop :=
  ∀ s t : State, ¬ s.running → step s = .next t →
    (s.events.head? ≠ some .rst → t.flt = s.flt ∧ t.out = s.out) ∧
    (s.events.head? = some .rst → t.flt = ⟨.none, 0⟩)

/-- R47, the values the spec gives: after the reset input in any state, and in the state after reset. -/
def Obligations.ResetGivesTheStatedValues : Prop :=
  (∀ (s : State) (rest : List HostEvent), s.events = .rst :: rest →
    ∃ t, step s = .next t ∧
      t.lzw.st = .idle ∧ t.flt = ⟨.none, 0⟩ ∧ t.de.ready = false ∧ t.de.havePrev = false ∧
      t.de.rbCleared = false ∧ t.de.step = .frameOpen ∧ t.bw.acc = 0 ∧ t.bw.nbits = 0 ∧ t.bw.scnt = 0 ∧
      t.out = []) ∧
  (State.reset.lzw.st = .idle ∧ State.reset.flt = ⟨.none, 0⟩ ∧ State.reset.de.ready = false ∧
    State.reset.de.havePrev = false ∧ State.reset.de.rbCleared = false ∧ State.reset.de.step = .frameOpen ∧
    State.reset.bw.acc = 0 ∧ State.reset.bw.nbits = 0 ∧ State.reset.bw.scnt = 0 ∧ State.reset.out = [])

/-- The host's own actions change the inputs alone (R44, R45), and the reset input leaves them as they are (the model's choice, log
entry 20; the events are log entry 1's). -/
def Obligations.HostActionsChangeOnlyTheInputs : Prop :=
  ∀ (s t : State) (e : HostEvent) (rest : List HostEvent), s.events = e :: rest → step s = .next t →
    (∀ port w, e ≠ .command port w) →
    t.events = rest ∧ t.sinkFail = s.sinkFail ∧ t.free = s.free ∧
    (e = .rst → t.cfg = s.cfg ∧ t.frames = s.frames) ∧
    (e ≠ .rst → t = { s with events := rest, cfg := t.cfg, frames := t.frames }) ∧
    (∀ cfg, e = .configure cfg → t.cfg = cfg ∧ t.frames = s.frames) ∧
    ((∀ cfg, e ≠ .configure cfg) → t.cfg = s.cfg)

/-- The state after reset meets every invariant below. -/
def Obligations.ResetMeetsTheInvariants : Prop :=
  State.reset.fits ∧ State.reset.unitsOk ∧ State.reset.memoriesWf ∧ State.reset.encoderOk ∧ State.reset.deltaOk

/-- Between commands nothing happens: with no event the block holds its state (R214; that such a step is taken at all is the model's choice,
log entry 21). -/
def Obligations.IdleBlockHoldsItsState : Prop :=
  ∀ s : State, s.events = [] → step s = .next s

/-- R202 with R210: a fault found by a check changes the fault registers and nothing else, and `FLT.info` is the command's word. -/
def Obligations.CheckFaultsChangeOnlyTheFaultRegisters : Prop :=
  ∀ (i : Instr) (s t : State), s.running → exec i s = .next t → ¬ t.running → t.flt.cause ≠ .sinkIo →
    t = { s with flt := ⟨t.flt.cause, encode i⟩ }

/-- R207, R52: `SINK_IO` is raised exactly at the first burst the oracle fails. The bytes before stay, the inputs are untouched, `FLT.info`
is the command's word (for a `BW` operation alone on the bus: its own word, the model's reading, log entry 19). Nothing is said of the other
state of the block, the delta engine's included: U4 leaves all of it any value (log entry 6). -/
def Obligations.SinkFailureRaisesSinkIo : Prop :=
  ∀ (i : Instr) (s t : State), s.running → exec i s = .next t →
    (t.flt.cause = .sinkIo →
      t.flt.info = encode i ∧ s.out <+: t.out ∧ t.cfg = s.cfg ∧ t.frames = s.frames ∧
      t.events = s.events ∧
      ∃ pre k, s.sinkFail = pre ++ .failed k :: t.sinkFail ∧ ∀ a ∈ pre, a = .accepted) ∧
    (t.flt.cause ≠ .sinkIo → ∃ pre, s.sinkFail = pre ++ t.sinkFail ∧ ∀ a ∈ pre, a = .accepted)

/-- R201, R215: each command raises only the causes its row names; `DE_INVARIANT` is raised by none. -/
def Obligations.CommandsRaiseOnlyTheirCauses : Prop :=
  ∀ (i : Instr) (s t : State), s.running → exec i s = .next t → t.running ∨ t.flt.cause ∈ causesOf i

/-- R51: the sink is append-only, also in a command that fails. -/
def Obligations.SinkIsAppendOnly : Prop :=
  ∀ (i : Instr) (s t : State), exec i s = .next t → s.out <+: t.out

/-- R20, R215: the encoder and the delta engine share no state. No command of the one changes a register, a memory or the sink
record of the other, but for a command that ends in `SINK_IO`, after which U4 leaves all state of the block any value, the delta
engine's included (the model's reading of R210 and U4, log entry 6); none changes `cfg.*` or a frame memory but `DE.DELTA`, which changes `WB` or `IDX` only (R44, R45). -/
def Obligations.UnitsShareNoState : Prop :=
  ∀ (i : Instr) (s t : State), exec i s = .next t →
    t.cfg = s.cfg ∧ t.events = s.events ∧
    (isDelta i = false → t.frames = s.frames ∧ (t.de = s.de ∨ (s.running ∧ t.flt.cause = .sinkIo))) ∧
    (isDelta i = true → t.bw = s.bw ∧ t.ct = s.ct ∧ t.lzw = s.lzw ∧ t.out = s.out ∧ t.sinkFail = s.sinkFail ∧
      t.free = s.free) ∧
    ((∀ b, i ≠ .deDelta b) → t.frames = s.frames) ∧
    (i = .deDelta 0 → t.frames = { s.frames with wb := t.frames.wb }) ∧
    (i = .deDelta 1 → t.frames = { s.frames with idx := t.frames.idx })

/-- R39: the status port shows every state element of the block: in a state whose registers fit their widths nothing is lost on the way.
The codes are those of R31 (`LZW.st`), R201 (`FLT.cause`), R42 (`DE.step`) and R91 (`DE.disp`); of `BW.stg` the bytes that hold a value
(R23). -/
def Obligations.StatusPortShowsEveryRegister : Prop :=
  ∀ s : State, s.fits →
    s.status.bwStg = s.bw.stg.take s.bw.scnt ∧ s.status.ctTab.map (fun e => (e.1, e.2.toNat)) = s.ct.tab ∧
    s.status.lzwCur = s.lzw.cur ∧ s.status.deRb = s.de.rb ∧
    s.status.bwAcc = s.bw.acc ∧ s.status.bwNbits.toNat = s.bw.nbits ∧ s.status.bwScnt.toNat = s.bw.scnt ∧
    s.status.ctMcs.toNat = s.ct.mcs ∧ s.status.ctWidth.toNat = s.ct.width ∧ s.status.ctNext.toNat = s.ct.next ∧
    s.status.ctHit = s.ct.hit ∧ s.status.ctCodeQ.toNat = s.ct.codeQ ∧ s.status.ctAdded = s.ct.added ∧
    s.status.fltInfo = s.flt.info ∧ s.status.deReady = s.de.ready ∧ s.status.deHavePrev = s.de.havePrev ∧
    s.status.deRbCleared = s.de.rbCleared ∧ s.status.deLocX.toNat = s.de.locX ∧
    s.status.deLocY.toNat = s.de.locY ∧ s.status.deFrW.toNat = s.de.frW ∧ s.status.deFrH.toNat = s.de.frH ∧
    (s.status.lzwSt = match s.lzw.st with
      | .idle => 0
      | .first => 1
      | .run => 2
      | .done => 3) ∧
    (s.status.fltCause = match s.flt.cause with
      | .none => 0
      | .sinkIo => 1
      | .illegalCmd => 2
      | .badState => 3
      | .operandRange => 4
      | .emptyFrame => 5
      | .deConfig => 6
      | .deInvariant => 7) ∧
    (s.status.deStep = match s.de.step with
      | .frameOpen => 0
      | .trimmed => 1
      | .decided => 2) ∧
    (s.status.deDisp = match s.de.disp with
      | .unspecified => 0
      | .doNotDispose => 1
      | .restoreBackground => 2
      | .restorePrevious => 3) ∧
    ∀ s' : State, (s'.status.lzwSt = s.status.lzwSt → s'.lzw.st = s.lzw.st) ∧
      (s'.status.fltCause = s.status.fltCause → s'.flt.cause = s.flt.cause) ∧
      (s'.status.deStep = s.status.deStep → s'.de.step = s.de.step) ∧
      (s'.status.deDisp = s.status.deDisp → s'.de.disp = s.de.disp)

/-! ### Invariants -/

/-- R13, R105, R128: whatever happens, every register's value fits its width, the Bit Writer and the Code Table's counters stay in
their ranges (until a sink failure leaves them unspecified), and the memories keep their canonical form. -/
def Obligations.StepKeepsRegistersInRange : Prop :=
  ∀ s t : State, s.fits → s.unitsOk → s.memoriesWf → step s = .next t → t.fits ∧ t.unitsOk ∧ t.memoriesWf

/-- R30, R150 (a) to (c): driven by the LZW unit, the dictionary's codes are exactly `FirstCode .. CT.next - 1`, no sequence is stored
twice, every code fits the width, the dictionary is prefix-closed, and the current match has a code. -/
def Obligations.StepKeepsTheDictionaryInOrder : Prop :=
  ∀ s t : State, s.encoderOk → s.busQuiet → step s = .next t → t.encoderOk ∧ t.busQuiet

/-- R43, R13, R42: while the host holds `cfg.*`, the clipped frame lies in the canvas and is not empty, the disposal decided is 1 or 2, and
a Render Buffer marked cleared is clear (until a sink failure leaves all of it unspecified, log entry 6). -/
def Obligations.StepKeepsTheClipInTheCanvas : Prop :=
  ∀ s t : State, s.deltaOk → s.cfgHeld → step s = .next t → t.deltaOk ∧ t.cfgHeld

/-! ### Bit Writer -/

/-- R100: `BW.WRITE_CODE` completes and appends the low `bitWidth` bits of `code`, least significant first; whole bytes move to the
staging buffer, and only full sub-blocks go to the sink. Nothing else changes. -/
def Obligations.WriteCodeAppendsItsBits : Prop :=
  ∀ (s : State) (code : BitVec 12) (bitWidth : BitVec 4),
    s.running → s.bw.ok → s.sinkAccepts → 1 ≤ bitWidth.toNat → bitWidth.toNat ≤ 12 →
    ∃ t, exec (.bwWriteCode code bitWidth) s = .next t ∧
      t = { s with bw := t.bw, out := t.out, sinkFail := t.sinkFail } ∧
      t.bw.ok ∧ t.sinkFail <:+ s.sinkFail ∧ s.appends t (bitsOf code.toNat bitWidth.toNat)

/-- R101: a reserved `bitWidth` has no meaning, and is refused. -/
def Obligations.ReservedWidthsAreRefused : Prop :=
  ∀ (s : State) (code : BitVec 12) (bitWidth : BitVec 4),
    s.running → bitWidth = 0 ∨ 13 ≤ bitWidth.toNat →
    exec (.bwWriteCode code bitWidth) s = .refused .reservedBitWidth

/-- R104: `BW.FLUSH` completes: the partial byte, zero-padded, and the partial sub-block, if there are any, then one terminator; the unit is
empty. Nothing else changes. -/
def Obligations.FlushDrainsAndTerminates : Prop :=
  ∀ s : State, s.running → s.bw.ok → s.sinkAccepts →
    ∃ t, exec .bwFlush s = .next t ∧
      t = { s with bw := ⟨0, 0, [], 0⟩, out := s.out ++ shortBlock s.bw.lastData ++ [0x00], sinkFail := t.sinkFail } ∧
      t.sinkFail <:+ s.sinkFail

/-- R52, R207: a failed burst, `k` below its length, wherever a command makes one: the minimum-code-size byte of `LZW.BEGIN`; the sub-block
that `BW.WRITE_CODE` or a miss in `LZW.PIXEL` completes; each sub-block and the terminator of `LZW.END` and of `BW.FLUSH`. The bursts before it
and its first `k` bytes land, nothing follows, and `SINK_IO` is raised with the command's word (for a `BW` operation alone on the bus its own,
the model's reading, log entry 19). -/
def Obligations.FailedBurstLandsInPart : Prop :=
  ∀ s : State, s.running →
    (∀ n : BitVec 9, s.lzw.st = .idle ∨ s.lzw.st = .done → 1 ≤ n.toNat → n.toNat ≤ 256 →
      s.breaksIn (.lzwBegin n) [[BitVec.ofNat 8 (minCodeSize n.toNat)]]) ∧
    (∀ (code : BitVec 12) (w : BitVec 4) (data : List Byte), s.bw.ok → 1 ≤ w.toNat → w.toNat ≤ 12 →
      s.fills (bitsOf code.toNat w.toNat) data → s.breaksIn (.bwWriteCode code w) [fullBlock data]) ∧
    (∀ (p : Byte) (c : Nat) (data : List Byte), s.encoderOk → s.lzw.st = .run → p.toNat < 2 ^ s.ct.mcs →
      (∀ d, (s.lzw.cur ++ [p], d) ∉ s.ct.tab) → s.ct.coded s.lzw.cur c →
      s.fills (if s.ct.next < 4096 then bitsOf c s.ct.width else bitsOf c 12 ++ bitsOf (2 ^ s.ct.mcs) 12) data →
      s.breaksIn (.lzwPixel p) [fullBlock data]) ∧
    (∀ (c : Nat) (data : List Byte), s.encoderOk → s.lzw.st = .run → s.ct.coded s.lzw.cur c →
      s.packs (bitsOf c s.ct.width ++ bitsOf (2 ^ s.ct.mcs + 1) s.ct.width) data →
      s.breaksIn .lzwEnd (closingBursts data)) ∧
    (s.bw.ok → s.breaksIn .bwFlush (closingBursts s.bw.lastData))

/-- R106: the stream law. From an empty Bit Writer, a sequence of `BW.WRITE_CODE` and then `BW.FLUSH` append to the sink exactly the
sub-blocks of the packed codes (R83, R84) and the terminator; before the flush, every full sub-block whose last byte is complete has been
written, and nothing else. -/
def Obligations.CodeStreamIsPackedIntoSubBlocks : Prop :=
  ∀ (s : State) (codes : List (BitVec 12 × BitVec 4)),
    s.running → s.bw = ⟨0, 0, [], 0⟩ → s.sinkAccepts →
    (∀ e ∈ codes, 1 ≤ e.2.toNat ∧ e.2.toNat ≤ 12) →
    ∃ emitted n, emitted = codes.map (fun e => (e.1.toNat, e.2.toNat)) ∧ n = (packedLength emitted + 7) / 8 ∧
    (∃ u, execAll (codes.map fun e => .bwWriteCode e.1 e.2) s = .next u ∧
      u.out = s.out ++ subBlocks ((dataBytes emitted).take (255 * (packedLength emitted / (8 * 255))))) ∧
    ∃ t, execAll (codes.map (fun e => .bwWriteCode e.1 e.2) ++ [.bwFlush]) s = .next t ∧
      t.out = s.out ++ blockStream emitted ∧ t.bw = ⟨0, 0, [], 0⟩ ∧
      t.out.length = s.out.length + n + (n + 254) / 255 + 1

/-! ### Code Table -/

/-- R120: `CT.RESET` discards all entries, restores the width to `mcs + 1` and starts the codes at `ClearCode + 2`; the result flags
keep their values, and nothing else changes. -/
def Obligations.TableResetStartsAClearCycle : Prop :=
  (∀ s : State, s.running →
    exec .ctReset s =
      .next { s with ct := { s.ct with tab := [], width := s.ct.mcs + 1, next := 2 ^ s.ct.mcs + 2 } }) ∧
  encode .ctReset = 0x20000000 ∧ Instr.ctReset.port = .internalBus

/-- R121: `CT.TRY_GET` finds a sequence exactly if it is stored, by its content, and gives its code; a miss leaves `CT.code_q` no
value. It changes nothing else. A sequence of one index, which the bus cannot name, has its index as its code. -/
def Obligations.LookupIsByContent : Prop :=
  (∀ (s : State) (prefixCode : BitVec 12) (last : Byte) (q : IndexSeq),
    s.running → s.ct.mapOk → s.ct.spells prefixCode.toNat q → last.toNat < 2 ^ s.ct.mcs →
    (∀ c, (q ++ [last], c) ∈ s.ct.tab →
      exec (.ctTryGet prefixCode last) s = .next { s with ct := { s.ct with hit := true, codeQ := c } }) ∧
    ((∀ c, (q ++ [last], c) ∉ s.ct.tab) →
      ∃ t, exec (.ctTryGet prefixCode last) s = .next t ∧
        t = { s with ct := { s.ct with hit := false, codeQ := t.ct.codeQ }, free := t.free })) ∧
  (∀ (s : State) (i : Byte), ctTryGet [i] s = { s with ct := { s.ct with hit := true, codeQ := i.toNat } }) ∧
  ∀ (prefixCode : BitVec 12) (last : Byte),
    encode (.ctTryGet prefixCode last) = 0x21000000#32 ||| prefixCode.setWidth 32 <<< 8 ||| last.setWidth 32

/-- R124: `CT.TRY_ADD` of a sequence not stored. A full table answers false and nothing else changes; otherwise the sequence gets the next
code, after the width has grown if that code is `1 << width`. The addition of a sequence already stored is refused. -/
def Obligations.AdditionAssignsTheNextCode : Prop :=
  (∀ (s : State) (prefixCode : BitVec 12) (last : Byte) (q : IndexSeq),
    s.running → s.ct.ok → s.ct.mapOk → s.ct.spells prefixCode.toNat q → last.toNat < 2 ^ s.ct.mcs →
    (∀ c, (q ++ [last], c) ∈ s.ct.tab → exec (.ctTryAdd prefixCode last) s = .refused .alreadyStored) ∧
    ((∀ c, (q ++ [last], c) ∉ s.ct.tab) →
      (s.ct.next = 4096 →
        exec (.ctTryAdd prefixCode last) s = .next { s with ct := { s.ct with added := false } }) ∧
      (s.ct.next < 4096 →
        exec (.ctTryAdd prefixCode last) s =
          .next { s with ct := { s.ct with
            width := if s.ct.next = 2 ^ s.ct.width then s.ct.width + 1 else s.ct.width
            tab := s.ct.tab ++ [(q ++ [last], s.ct.next)]
            next := s.ct.next + 1
            added := true } }))) ∧
  ∀ (prefixCode : BitVec 12) (last : Byte),
    encode (.ctTryAdd prefixCode last) = 0x22000000#32 ||| prefixCode.setWidth 32 <<< 8 ||| last.setWidth 32

/-- R75, U10 (log entry 13): bus operands that spell no sequence are refused. -/
def Obligations.BusOperandsWithoutMeaningAreRefused : Prop :=
  ∀ (s : State) (prefixCode : BitVec 12) (last : Byte), s.running →
    2 ^ s.ct.mcs ≤ last.toNat ∨ (∀ q, ¬ s.ct.spells prefixCode.toNat q) →
      exec (.ctTryGet prefixCode last) s = .refused .noSuchSequence ∧
      exec (.ctTryAdd prefixCode last) s = .refused .noSuchSequence

/-- R127: the phases of a clear cycle. `CT.RESET` starts one, an addition leads to *growing*, or to *full* with code 4095, a full table
stays full and answers false, and a lookup changes no phase. Each addition is of a sequence not stored. -/
def Obligations.PhasesOfTheClearCycle : Prop :=
  ∀ s t : State, s.running → s.ct.ok →
    (exec .ctReset s = .next t → t.ct.phase = .start) ∧
    (∀ prefixCode last, exec (.ctTryGet prefixCode last) s = .next t → t.ct.phase = s.ct.phase) ∧
    (∀ prefixCode last, exec (.ctTryAdd prefixCode last) s = .next t →
      (s.ct.phase = .full → t.ct.phase = .full ∧ t.ct.added = false) ∧
      (s.ct.phase ≠ .full → t.ct.added = true ∧
        t.ct.phase = if s.ct.next = 4095 then .full else .growing))

/-! ### LZW Encoder -/

/-- R130: the minimum code size is `max(2, bitsNeededFor(paletteSize))` (R9), never 1; `LZW.BEGIN` computes it, and no other instruction
changes it. -/
def Obligations.MinimumCodeSizeOfAPalette : Prop :=
  (∀ n, minCodeSize n = max 2 (bitsNeededFor n)) ∧
  (∀ n b, 1 ≤ n → (bitsNeededFor n ≤ b ↔ n ≤ 2 ^ b)) ∧
  (∀ n, 1 ≤ n → n ≤ 256 →
    minCodeSize n =
      if n ≤ 4 then 2 else if n ≤ 8 then 3 else if n ≤ 16 then 4 else if n ≤ 32 then 5
      else if n ≤ 64 then 6 else if n ≤ 128 then 7 else 8) ∧
  (∀ (s t : State) (n : BitVec 9), s.running → exec (.lzwBegin n) s = .next t → t.running →
    t.ct.mcs = minCodeSize n.toNat) ∧
  ∀ (i : Instr) (s t : State), s.running → exec i s = .next t → t.running → (∀ n, i ≠ .lzwBegin n) →
    t.ct.mcs = s.ct.mcs

/-- R142: `LZW.BEGIN` in `IDLE` or `DONE` completes: it writes the minimum code size to the sink, starts a clear cycle and emits `ClearCode` at
width `mcs + 1` into a fresh Bit Writer. `LZW.cur` is left no stated value (log entry 8). Nothing else changes. That `CT.hit`, `CT.code_q` and
`CT.added` are kept is the model's reading too (log entry 8): R142 and R20 speak of all of `CT.*`, and the pseudocode assigns none of the
three. -/
def Obligations.BeginOpensAFrame : Prop :=
  ∀ (s : State) (n : BitVec 9), s.running → s.sinkAccepts → s.lzw.st = .idle ∨ s.lzw.st = .done →
    1 ≤ n.toNat → n.toNat ≤ 256 →
    ∃ t, exec (.lzwBegin n) s = .next t ∧
      (∃ m, m = minCodeSize n.toNat ∧
        t = { s with
          bw := t.bw
          ct := { s.ct with mcs := m, width := m + 1, next := 2 ^ m + 2, tab := [] }
          lzw := ⟨.first, t.lzw.cur⟩
          out := s.out ++ [BitVec.ofNat 8 m]
          sinkFail := s.sinkFail.tail
          free := t.free } ∧
        (m ≤ 6 → t.bw = ⟨BitVec.ofNat 32 (2 ^ m), m + 1, [], 0⟩) ∧
        (m = 7 → t.bw = ⟨0, 0, [0x80], 1⟩) ∧
        (m = 8 → t.bw = ⟨1, 1, [0x00], 1⟩))

/-- R143: the checks of `LZW.PIXEL`, in their order, and the first pixel: it becomes the current match, and nothing is emitted. -/
def Obligations.FirstPixelStartsTheMatch : Prop :=
  (∀ p : Byte, encode (.lzwPixel p) = 0x11000000#32 ||| p.setWidth 32) ∧
  ∀ (s : State) (p : Byte), s.running →
    (s.lzw.st = .idle ∨ s.lzw.st = .done →
      exec (.lzwPixel p) s = .next { s with flt := ⟨.badState, encode (.lzwPixel p)⟩ }) ∧
    (s.lzw.st = .first ∨ s.lzw.st = .run → 2 ^ s.ct.mcs ≤ p.toNat →
      exec (.lzwPixel p) s = .next { s with flt := ⟨.operandRange, encode (.lzwPixel p)⟩ }) ∧
    (s.lzw.st = .first → p.toNat < 2 ^ s.ct.mcs →
      exec (.lzwPixel p) s = .next { s with lzw := ⟨.run, [p]⟩ })

/-- R144: `LZW.PIXEL` in `RUN`. A stored extension becomes the match and nothing is emitted. Otherwise the match's code is emitted at the width
before the addition, a new match starts at `p`, and the extension gets the next code; on a full table `ClearCode` is emitted too, and
the table is reset instead. -/
def Obligations.PixelInRun : Prop :=
  ∀ (s : State) (p : Byte), s.running → s.encoderOk → s.sinkAccepts → s.lzw.st = .run → p.toNat < 2 ^ s.ct.mcs →
    (∀ c, (s.lzw.cur ++ [p], c) ∈ s.ct.tab →
      exec (.lzwPixel p) s =
        .next { s with lzw := ⟨.run, s.lzw.cur ++ [p]⟩, ct := { s.ct with hit := true, codeQ := c } }) ∧
    (∀ c, (∀ d, (s.lzw.cur ++ [p], d) ∉ s.ct.tab) → s.ct.coded s.lzw.cur c → s.ct.next < 4096 →
      ∃ t, exec (.lzwPixel p) s = .next t ∧
        t = { s with
          bw := t.bw, out := t.out, sinkFail := t.sinkFail, free := t.free
          lzw := ⟨.run, [p]⟩
          ct := { s.ct with
            hit := false
            codeQ := t.ct.codeQ
            added := true
            width := if s.ct.next = 2 ^ s.ct.width then s.ct.width + 1 else s.ct.width
            tab := s.ct.tab ++ [(s.lzw.cur ++ [p], s.ct.next)]
            next := s.ct.next + 1 } } ∧
        t.bw.ok ∧ s.appends t (bitsOf c s.ct.width)) ∧
    (∀ c, (∀ d, (s.lzw.cur ++ [p], d) ∉ s.ct.tab) → s.ct.coded s.lzw.cur c → s.ct.next = 4096 →
      ∃ t, exec (.lzwPixel p) s = .next t ∧
        t = { s with
          bw := t.bw, out := t.out, sinkFail := t.sinkFail, free := t.free
          lzw := ⟨.run, [p]⟩
          ct := { s.ct with
            hit := false
            codeQ := t.ct.codeQ
            added := false
            width := s.ct.mcs + 1
            tab := []
            next := 2 ^ s.ct.mcs + 2 } } ∧
        s.ct.width = 12 ∧ t.bw.ok ∧ s.appends t (bitsOf c 12 ++ bitsOf (2 ^ s.ct.mcs) 12))

/-- R147: `LZW.END` in `RUN` emits the final match's code and then `EOI`, both at the current width (`P_EOI_GROW = false`), and flushes: what
it appends ends in the one terminator, and the Bit Writer is empty. In the other states it faults. -/
def Obligations.EndClosesTheFrame : Prop :=
  ∀ s : State, s.running →
    (s.lzw.st = .idle ∨ s.lzw.st = .done →
      exec .lzwEnd s = .next { s with flt := ⟨.badState, encode .lzwEnd⟩ }) ∧
    (s.lzw.st = .first → exec .lzwEnd s = .next { s with flt := ⟨.emptyFrame, encode .lzwEnd⟩ }) ∧
    (∀ c, s.encoderOk → s.sinkAccepts → s.lzw.st = .run → s.ct.coded s.lzw.cur c →
      ∃ t, exec .lzwEnd s = .next t ∧
        t = { s with
          bw := ⟨0, 0, [], 0⟩, out := t.out, sinkFail := t.sinkFail
          lzw := { s.lzw with st := .done } } ∧
        ∃ u : State, u.bw.ok ∧
          s.appends u (bitsOf c s.ct.width ++ bitsOf (2 ^ s.ct.mcs + 1) s.ct.width) ∧
          t.out = u.out ++ shortBlock u.bw.lastData ++ [0x00])

/-- R147, R144 with R141 and R150 (log entry 14): a current match without a code, which only the operations issued alone on the internal bus
can bring about, has no meaning. `LZW.END` stops, and so does `LZW.PIXEL` when the extended sequence is not stored. -/
def Obligations.MatchWithoutCodeStops : Prop :=
  ∀ s : State, s.running → s.ct.mapOk → s.lzw.st = .run → (∀ c, ¬ s.ct.coded s.lzw.cur c) →
    exec .lzwEnd s = .fault .matchWithoutCode ∧
    ∀ p : Byte, p.toNat < 2 ^ s.ct.mcs → (∀ c, ¬ s.ct.coded (s.lzw.cur ++ [p]) c) →
      exec (.lzwPixel p) s = .fault .matchWithoutCode

/-- R148: `LZW.ABORT` completes in every state: the Bit Writer and the dictionary are empty, the encoder is `IDLE`, the sink is not
touched, and nothing else changes. In the fault state it is ignored. -/
def Obligations.AbortAbandonsTheFrame : Prop :=
  (∀ s : State, s.running →
    exec .lzwAbort s =
      .next { s with
        bw := ⟨0, 0, [], 0⟩
        ct := { s.ct with tab := [] }
        lzw := { s.lzw with st := .idle } }) ∧
  (∀ s : State, ¬ s.running → exec .lzwAbort s = .next s) ∧
  encode .lzwAbort = 0x13000000

/-- R140: every cell of the encoder's state table, for operands in their range and an accepting sink: the next state, or the fault, which
changes nothing but the fault registers. -/
def Obligations.EncoderStateTable : Prop :=
  ∀ (i : Instr) (s : State), s.running → s.encoderOk → s.sinkAccepts → i.wellFormed = true →
    (∀ p, i = .lzwPixel p → p.toNat < 2 ^ s.ct.mcs) →
    (∀ st, encoderCell s.lzw.st i = some (.inl st) → ∃ t, exec i s = .next t ∧ t.lzw.st = st ∧ t.running) ∧
    (∀ c, encoderCell s.lzw.st i = some (.inr c) → exec i s = .next { s with flt := ⟨c, encode i⟩ })

/-- R202: the state is checked before the operand. `LZW.BEGIN` with any operand faults with `BAD_STATE` while a frame is open; with a palette size
outside `1 .. 256` it faults with `OPERAND_RANGE` in the other states (R142). -/
def Obligations.StateIsCheckedBeforeOperands : Prop :=
  ∀ (s : State) (n : BitVec 9), s.running →
    (s.lzw.st = .first ∨ s.lzw.st = .run →
      exec (.lzwBegin n) s = .next { s with flt := ⟨.badState, encode (.lzwBegin n)⟩ }) ∧
    (s.lzw.st = .idle ∨ s.lzw.st = .done → n = 0 ∨ 257 ≤ n.toNat →
      exec (.lzwBegin n) s = .next { s with flt := ⟨.operandRange, encode (.lzwBegin n)⟩ })

/-- R149: a whole frame. `LZW.BEGIN`, one `LZW.PIXEL` per pixel and `LZW.END`, presented one after another, append exactly the image data
block of the codes that the frame function computes, and leave the encoder in `DONE`. -/
def Obligations.FrameGivesItsImageData : Prop :=
  ∀ (s : State) (n : BitVec 9) (pixels : List Byte) (rest : List HostEvent),
    s.running → s.sinkAccepts → s.lzw.st = .idle ∨ s.lzw.st = .done →
    1 ≤ n.toNat → n.toNat ≤ 256 → pixels ≠ [] → (∀ p ∈ pixels, p.toNat < 2 ^ minCodeSize n.toNat) →
    s.events = ((Instr.lzwBegin n :: pixels.map Instr.lzwPixel ++ [Instr.lzwEnd]).map
      fun i => HostEvent.command .commandPort (encode i)) ++ rest →
    ∃ codes t, frameCodes (minCodeSize n.toNat) pixels = some codes ∧
      3 ≤ codes.length ∧
      codes.length ≤ pixels.length + 1 + (codes.filter fun e => e.1 = 2 ^ minCodeSize n.toNat).length ∧
      core.run (pixels.length + 2) s = .next t ∧
      t.out = s.out ++ imageData (minCodeSize n.toNat) codes ∧
      t.lzw.st = .done ∧ t.running ∧ t.bw = ⟨0, 0, [], 0⟩ ∧ t.de = s.de ∧ t.cfg = s.cfg ∧ t.frames = s.frames ∧
      t.events = rest

/-- R81, R82, R86, R129 of the codes that the frame function computes (which are those of a frame, by the statement before): each fits its
width, `mcs + 1` to 12 bits; the first is `ClearCode`; the last is `EOI`, and no other is; and the widths never fall, except to `mcs + 1`
after a `ClearCode`. -/
def Obligations.FrameCodesFitTheirWidths : Prop :=
  ∀ (m : Nat) (pixels : List Byte) (codes : List Emitted), 2 ≤ m → m ≤ 8 → (∀ p ∈ pixels, p.toNat < 2 ^ m) →
    frameCodes m pixels = some codes →
    (∀ e ∈ codes, e.1 < 2 ^ e.2 ∧ m + 1 ≤ e.2 ∧ e.2 ≤ 12) ∧
    codes.head? = some (2 ^ m, m + 1) ∧
    (∃ body w, codes = body ++ [(2 ^ m + 1, w)] ∧ ∀ e ∈ body, e.1 ≠ 2 ^ m + 1) ∧
    ∀ before e e' after, codes = before ++ e :: e' :: after → e.2 ≤ e'.2 ∨ (e.1 = 2 ^ m ∧ e'.2 = m + 1)

/-! ### Delta engine -/

/-- R173: `DE.INIT` completes on a canvas, in any step: the Render Buffer is all `TRANSPARENT`, and the flags are as the rule says; with
`cfg.W = 0` or `cfg.H = 0` it faults with `DE_CONFIG`. Nothing else changes. -/
def Obligations.InitStartsAnAnimation : Prop :=
  ∀ s : State, s.running →
    (s.cfg.w ≠ 0 → s.cfg.h ≠ 0 →
      ∃ t, exec .deInit s = .next t ∧
        t = { s with de := { s.de with
          rb := t.de.rb, rbCleared := true, havePrev := false, step := .frameOpen, ready := true } } ∧
        ∀ y x, colorAt t.de.rb y x = 0x00000000) ∧
    (s.cfg.w = 0 ∨ s.cfg.h = 0 → exec .deInit s = .next { s with flt := ⟨.deConfig, 0x40000000⟩ })

/-- R172: a delta engine command that needs a step faults with `BAD_STATE` before `DE.INIT` or in another step, and completes without a
fault in its own, where it moves the step on; `DE.INIT` is legal in any. -/
def Obligations.DeltaEngineOrderIsEnforced : Prop :=
  ∀ (i : Instr) (s : State), s.running →
    (∀ step, neededStep i = some step →
      (s.de.ready = false ∨ s.de.step ≠ step → exec i s = .next { s with flt := ⟨.badState, encode i⟩ }) ∧
      (s.de.ready = true → s.de.step = step →
        ∃ t, exec i s = .next t ∧ t.running ∧ t.de.ready = true ∧
          t.de.step =
            match i with
            | .deTrim => .trimmed
            | .deDispose _ => .decided
            | _ => .frameOpen)) ∧
    (s.cfg.w ≠ 0 → s.cfg.h ≠ 0 → ∃ t, exec .deInit s = .next t ∧ t.running ∧ t.de.step = .frameOpen)

/-- R175: `DE.DELTA` completes. Where delta frames apply, every pixel of the canvas that equals the Render Buffer's becomes `TRANSPARENT` in
`WB` (operand 0) or the transparent index in `IDX` (operand 1, if there is one), and the others stay; otherwise no pixel changes. No
register changes. Out of its step it faults. -/
def Obligations.DeltaReplacesUnchangedPixels : Prop :=
  (∀ b : BitVec 1, encode (.deDelta b) = 0x41000000#32 ||| b.setWidth 32) ∧
  (∀ (b : BitVec 1) (s : State), s.running → s.de.ready = false ∨ s.de.step ≠ .frameOpen →
    exec (.deDelta b) s = .next { s with flt := ⟨.badState, encode (.deDelta b)⟩ }) ∧
  ∀ s : State, s.running → s.memoriesWf → s.de.ready = true → s.de.step = .frameOpen →
    (∃ t, exec (.deDelta 0) s = .next t ∧ t = { s with frames := { s.frames with wb := t.frames.wb } } ∧
      ∀ y x, s.cfg.has y x → colorAt t.frames.wb y x =
        if s.cfg.deltaAllowed = true ∧ s.de.havePrev = true ∧ s.cfg.qTransp = true ∧
          colorAt s.frames.wb y x = colorAt s.de.rb y x
        then 0x00000000 else colorAt s.frames.wb y x) ∧
    (∃ t, exec (.deDelta 1) s = .next t ∧ t = { s with frames := { s.frames with idx := t.frames.idx } } ∧
      ∀ y x, s.cfg.has y x → indexAt t.frames.idx y x =
        if s.cfg.deltaAllowed = true ∧ s.de.havePrev = true ∧ s.cfg.qTransp = true ∧ s.frames.tIdxValid = true ∧
          Memory.read 0x00000000 s.frames.pal (indexAt s.frames.idx y x).toNat = colorAt s.de.rb y x
        then s.frames.tIdx else indexAt s.frames.idx y x)

/-- R178: `DE.TRIM` completes with the whole canvas, with the least rectangle that holds every visible pixel, or with one pixel at the
centre. Nothing else changes. Out of its step it faults. -/
def Obligations.TrimGivesTheBoundingBox : Prop :=
  encode .deTrim = 0x42000000 ∧
  (∀ s : State, s.running → s.de.ready = false ∨ s.de.step ≠ .frameOpen →
    exec .deTrim s = .next { s with flt := ⟨.badState, 0x42000000⟩ }) ∧
  ∀ s : State, s.running → s.de.ready = true → s.de.step = .frameOpen →
    ∃ t, exec .deTrim s = .next t ∧
      t = { s with de := { s.de with
        locX := t.de.locX, locY := t.de.locY, frW := t.de.frW, frH := t.de.frH, step := .trimmed } } ∧
      (s.cfg.keepBorders = true →
        t.de.locX = 0 ∧ t.de.locY = 0 ∧ t.de.frW = s.cfg.w.toNat ∧ t.de.frH = s.cfg.h.toNat) ∧
      (s.cfg.keepBorders = false → (∃ y x, s.cfg.has y x ∧ s.frames.vis y x = true) →
        (∀ y x, s.cfg.has y x → s.frames.vis y x = true → t.de.inClip y x = true) ∧
        (∃ y, s.cfg.has y t.de.locX ∧ s.frames.vis y t.de.locX = true) ∧
        (∃ y, s.cfg.has y (t.de.locX + t.de.frW - 1) ∧ s.frames.vis y (t.de.locX + t.de.frW - 1) = true) ∧
        (∃ x, s.cfg.has t.de.locY x ∧ s.frames.vis t.de.locY x = true) ∧
        (∃ x, s.cfg.has (t.de.locY + t.de.frH - 1) x ∧ s.frames.vis (t.de.locY + t.de.frH - 1) x = true) ∧
        1 ≤ t.de.frW ∧ 1 ≤ t.de.frH) ∧
      (s.cfg.keepBorders = false → (∀ y x, s.cfg.has y x → s.frames.vis y x = false) →
        t.de.locX = s.cfg.w.toNat / 2 ∧ t.de.locY = s.cfg.h.toNat / 2 ∧ t.de.frW = 1 ∧ t.de.frH = 1)

/-- R181: `DE.DISPOSE` completes. Without delta frames the frame disposes to background, but for the last of an animation that does not loop,
whose disposal is 1 or 2 (open, log entry 9). With them it disposes to background, and clears the Render Buffer, exactly if a pixel opaque in
the composited result is transparent in the next frame. Nothing else changes. Out of its step it faults. -/
def Obligations.DisposalIsInferred : Prop :=
  (∀ b : BitVec 1, encode (.deDispose b) = 0x43000000#32 ||| b.setWidth 32) ∧
  (∀ (b : BitVec 1) (s : State), s.running → s.de.ready = false ∨ s.de.step ≠ .trimmed →
    exec (.deDispose b) s = .next { s with flt := ⟨.badState, encode (.deDispose b)⟩ }) ∧
  ∀ (s : State) (hasNext : BitVec 1), s.running → s.de.ready = true → s.de.step = .trimmed →
    ∃ t, exec (.deDispose hasNext) s = .next t ∧
      t = { s with de := { s.de with
        rb := t.de.rb, rbCleared := t.de.rbCleared, disp := t.de.disp, step := .decided } } ∧
      (s.cfg.deltaAllowed = false →
        (hasNext = 1 ∨ s.cfg.looping = true → t.de.disp = .restoreBackground) ∧
        (hasNext = 0 → s.cfg.looping = false →
          t.de.disp = .doNotDispose ∨ t.de.disp = .restoreBackground) ∧
        t.de.rb = s.de.rb ∧ t.de.rbCleared = s.de.rbCleared) ∧
      (s.cfg.deltaAllowed = true → s.cfg.qTransp = true → hasNext = 1 →
        (∃ y x, s.cfg.has y x ∧ ¬ alpha (s.comp y x) < s.cfg.alphaThr ∧
          alpha (colorAt s.frames.nxt y x) < s.cfg.alphaThr) →
        t.de.disp = .restoreBackground ∧ t.de.rbCleared = true ∧ ∀ y x, colorAt t.de.rb y x = 0x00000000) ∧
      (s.cfg.deltaAllowed = true →
        (s.cfg.qTransp = false ∨ hasNext = 0 ∨
          ∀ y x, s.cfg.has y x → ¬ alpha (s.comp y x) < s.cfg.alphaThr →
            ¬ alpha (colorAt s.frames.nxt y x) < s.cfg.alphaThr) →
        t.de.disp = .doNotDispose ∧ t.de.rb = s.de.rb ∧ t.de.rbCleared = s.de.rbCleared)

/-- R184: `DE.COMMIT` completes. The visible pixels of the clipped frame overwrite the Render Buffer's, and the others stay; after a disposal
to background nothing is composited. Nothing else changes. -/
def Obligations.CommitComposites : Prop :=
  ∀ s : State, s.running → s.memoriesWf → s.de.ready = true → s.de.step = .decided →
    (s.de.disp = .restoreBackground →
      exec .deCommit s = .next { s with de := { s.de with havePrev := true, step := .frameOpen } }) ∧
    (s.de.disp ≠ .restoreBackground →
      ∃ t, exec .deCommit s = .next t ∧
        t = { s with de := { s.de with rb := t.de.rb, rbCleared := false, havePrev := true, step := .frameOpen } } ∧
        ∀ y x, s.cfg.has y x → colorAt t.de.rb y x =
          if s.de.locY ≤ y ∧ y < s.de.locY + s.de.frH ∧ s.de.locX ≤ x ∧ x < s.de.locX + s.de.frW ∧
            s.frames.vis y x = true
          then s.frames.col y x else colorAt s.de.rb y x)

/-- R184's Render Buffer invariant: after a frame is trimmed, its disposal inferred and committed, the Render Buffer equals the frame's composited
result at every pixel of the canvas if the disposal is not 2, and is all `TRANSPARENT` if it is 2 and delta frames are enabled. -/
def Obligations.RenderBufferFollowsTheFrame : Prop :=
  ∀ (s : State) (hasNext : BitVec 1), s.running → s.memoriesWf → s.de.ready = true → s.de.step = .frameOpen →
    ∃ t, execAll [.deTrim, .deDispose hasNext, .deCommit] s = .next t ∧ t.running ∧
      (t.de.disp ≠ .restoreBackground → ∀ y x, s.cfg.has y x → colorAt t.de.rb y x = s.comp y x) ∧
      (t.de.disp = .restoreBackground → s.cfg.deltaAllowed = true →
        ∀ y x, colorAt t.de.rb y x = 0x00000000)

/-- KGS's delta idempotence, R175 corner case (e): where every pixel of the working buffer equals the Render Buffer's and delta frames
apply, `DE.DELTA 0` leaves every pixel of the working buffer `TRANSPARENT`, and a second one changes nothing. -/
def Obligations.UnchangedFrameBecomesTransparent : Prop :=
  ∀ s : State, s.running → s.memoriesWf → s.de.ready = true → s.de.step = .frameOpen →
    s.cfg.deltaAllowed = true → s.de.havePrev = true → s.cfg.qTransp = true →
    (∀ y x, s.cfg.has y x → colorAt s.frames.wb y x = colorAt s.de.rb y x) →
    ∃ t, exec (.deDelta 0) s = .next t ∧ (∀ y x, s.cfg.has y x → colorAt t.frames.wb y x = 0x00000000) ∧
      exec (.deDelta 0) t = .next t

/-- R186: the delay normalisation of `num / den` hundredths of a second, for the default `P_ZERO_DELAY_TICKS = 10` and any rounding: zero by the
zero-delay policy, below one tick up, above 65535 down, whole numbers as they are, and the others to one of the two nearest. -/
def Obligations.DelayIsNormalised : Prop :=
  ∀ (par : Config.Params) (cfg : Cfg) (num den : Nat), 0 < den →
    (num = 0 → normDelay par cfg num den = some (if cfg.zeroDelayDefault then par.zeroDelayTicks else 0)) ∧
    (0 < num → num < den → normDelay par cfg num den = some 1) ∧
    (65535 * den < num → normDelay par cfg num den = some 65535) ∧
    (∀ d, 1 ≤ d → d ≤ 65535 → num = d * den → normDelay par cfg num den = some d) ∧
    (den < num → num ≤ 65535 * den →
      ∃ d, normDelay par cfg num den = some d ∧ 1 ≤ d ∧ d ≤ 65535 ∧ (d = num / den ∨ d = num / den + 1)) ∧
    Config.params.zeroDelayTicks = 10

/-! ### The host's inputs -/

/-- The host writes the frame memories (R45; the events are the model's choice, log entry 1): one pixel of `WB`, `IDX` or `NXT`, or one entry of
`PAL`, reads as written, every other one of that memory as before, and nothing else changes; `palN`, `tIdxValid` and `tIdx` take the values set.
A pixel outside the canvas does not exist (the model's choice to stop there, log entry 18). -/
def Obligations.HostWritesOnePixel : Prop :=
  (∀ (s : State) (rest : List HostEvent) (y x : BitVec 16) (c : Color), s.memoriesWf → s.events = .writeWb y x c :: rest →
    (s.cfg.has y.toNat x.toNat →
      ∃ t, step s = .next t ∧
        t = { s with events := rest, frames := { s.frames with wb := t.frames.wb } } ∧
        colorAt t.frames.wb y.toNat x.toNat = c ∧
        ∀ y' x', x' < 65536 → (y', x') ≠ (y.toNat, x.toNat) →
          colorAt t.frames.wb y' x' = colorAt s.frames.wb y' x') ∧
    (¬ s.cfg.has y.toNat x.toNat → step s = .fault .noSuchPixel)) ∧
  (∀ (s : State) (rest : List HostEvent) (y x : BitVec 16) (i : Byte), s.memoriesWf → s.events = .writeIdx y x i :: rest →
    (s.cfg.has y.toNat x.toNat →
      ∃ t, step s = .next t ∧
        t = { s with events := rest, frames := { s.frames with idx := t.frames.idx } } ∧
        indexAt t.frames.idx y.toNat x.toNat = i ∧
        ∀ y' x', x' < 65536 → (y', x') ≠ (y.toNat, x.toNat) →
          indexAt t.frames.idx y' x' = indexAt s.frames.idx y' x') ∧
    (¬ s.cfg.has y.toNat x.toNat → step s = .fault .noSuchPixel)) ∧
  (∀ (s : State) (rest : List HostEvent) (y x : BitVec 16) (c : Color), s.memoriesWf → s.events = .writeNxt y x c :: rest →
    (s.cfg.has y.toNat x.toNat →
      ∃ t, step s = .next t ∧
        t = { s with events := rest, frames := { s.frames with nxt := t.frames.nxt } } ∧
        colorAt t.frames.nxt y.toNat x.toNat = c ∧
        ∀ y' x', x' < 65536 → (y', x') ≠ (y.toNat, x.toNat) →
          colorAt t.frames.nxt y' x' = colorAt s.frames.nxt y' x') ∧
    (¬ s.cfg.has y.toNat x.toNat → step s = .fault .noSuchPixel)) ∧
  (∀ (s : State) (rest : List HostEvent) (i : Byte) (c : Color), s.memoriesWf → s.events = .writePal i c :: rest →
    ∃ t, step s = .next t ∧
      t = { s with events := rest, frames := { s.frames with pal := t.frames.pal } } ∧
      Memory.read 0x00000000 t.frames.pal i.toNat = c ∧
      ∀ j, j ≠ i.toNat → Memory.read 0x00000000 t.frames.pal j = Memory.read 0x00000000 s.frames.pal j) ∧
  ∀ (s : State) (rest : List HostEvent) (n : BitVec 9) (valid : Bool) (i : Byte),
    s.events = .describePalette n valid i :: rest →
    step s = .next { s with events := rest, frames := { s.frames with palN := n, tIdxValid := valid, tIdx := i } }
end

