-- ==== Sys2Proof/Laws/State.lean ====
section
/-! SUPPORT. One lemma per field per update of the state, all true by `rfl`. -/

namespace Sys2Proof.Machine.State

@[simp] theorem setBw_bw (s : State) (b : BitWriter) : (s.setBw b).bw = b := rfl
@[simp] theorem setBw_ct (s : State) (b : BitWriter) : (s.setBw b).ct = s.ct := rfl
@[simp] theorem setBw_lzw (s : State) (b : BitWriter) : (s.setBw b).lzw = s.lzw := rfl
@[simp] theorem setBw_flt (s : State) (b : BitWriter) : (s.setBw b).flt = s.flt := rfl
@[simp] theorem setBw_de (s : State) (b : BitWriter) : (s.setBw b).de = s.de := rfl
@[simp] theorem setBw_out (s : State) (b : BitWriter) : (s.setBw b).out = s.out := rfl
@[simp] theorem setBw_cfg (s : State) (b : BitWriter) : (s.setBw b).cfg = s.cfg := rfl
@[simp] theorem setBw_frames (s : State) (b : BitWriter) : (s.setBw b).frames = s.frames := rfl
@[simp] theorem setBw_sinkFail (s : State) (b : BitWriter) : (s.setBw b).sinkFail = s.sinkFail := rfl
@[simp] theorem setBw_events (s : State) (b : BitWriter) : (s.setBw b).events = s.events := rfl
@[simp] theorem setBw_free (s : State) (b : BitWriter) : (s.setBw b).free = s.free := rfl

@[simp] theorem setCt_bw (s : State) (c : CodeTable) : (s.setCt c).bw = s.bw := rfl
@[simp] theorem setCt_ct (s : State) (c : CodeTable) : (s.setCt c).ct = c := rfl
@[simp] theorem setCt_lzw (s : State) (c : CodeTable) : (s.setCt c).lzw = s.lzw := rfl
@[simp] theorem setCt_flt (s : State) (c : CodeTable) : (s.setCt c).flt = s.flt := rfl
@[simp] theorem setCt_de (s : State) (c : CodeTable) : (s.setCt c).de = s.de := rfl
@[simp] theorem setCt_out (s : State) (c : CodeTable) : (s.setCt c).out = s.out := rfl
@[simp] theorem setCt_cfg (s : State) (c : CodeTable) : (s.setCt c).cfg = s.cfg := rfl
@[simp] theorem setCt_frames (s : State) (c : CodeTable) : (s.setCt c).frames = s.frames := rfl
@[simp] theorem setCt_sinkFail (s : State) (c : CodeTable) : (s.setCt c).sinkFail = s.sinkFail := rfl
@[simp] theorem setCt_events (s : State) (c : CodeTable) : (s.setCt c).events = s.events := rfl
@[simp] theorem setCt_free (s : State) (c : CodeTable) : (s.setCt c).free = s.free := rfl

@[simp] theorem setLzw_bw (s : State) (l : Lzw) : (s.setLzw l).bw = s.bw := rfl
@[simp] theorem setLzw_ct (s : State) (l : Lzw) : (s.setLzw l).ct = s.ct := rfl
@[simp] theorem setLzw_lzw (s : State) (l : Lzw) : (s.setLzw l).lzw = l := rfl
@[simp] theorem setLzw_flt (s : State) (l : Lzw) : (s.setLzw l).flt = s.flt := rfl
@[simp] theorem setLzw_de (s : State) (l : Lzw) : (s.setLzw l).de = s.de := rfl
@[simp] theorem setLzw_out (s : State) (l : Lzw) : (s.setLzw l).out = s.out := rfl
@[simp] theorem setLzw_cfg (s : State) (l : Lzw) : (s.setLzw l).cfg = s.cfg := rfl
@[simp] theorem setLzw_frames (s : State) (l : Lzw) : (s.setLzw l).frames = s.frames := rfl
@[simp] theorem setLzw_sinkFail (s : State) (l : Lzw) : (s.setLzw l).sinkFail = s.sinkFail := rfl
@[simp] theorem setLzw_events (s : State) (l : Lzw) : (s.setLzw l).events = s.events := rfl
@[simp] theorem setLzw_free (s : State) (l : Lzw) : (s.setLzw l).free = s.free := rfl

@[simp] theorem setDe_bw (s : State) (d : Delta) : (s.setDe d).bw = s.bw := rfl
@[simp] theorem setDe_ct (s : State) (d : Delta) : (s.setDe d).ct = s.ct := rfl
@[simp] theorem setDe_lzw (s : State) (d : Delta) : (s.setDe d).lzw = s.lzw := rfl
@[simp] theorem setDe_flt (s : State) (d : Delta) : (s.setDe d).flt = s.flt := rfl
@[simp] theorem setDe_de (s : State) (d : Delta) : (s.setDe d).de = d := rfl
@[simp] theorem setDe_out (s : State) (d : Delta) : (s.setDe d).out = s.out := rfl
@[simp] theorem setDe_cfg (s : State) (d : Delta) : (s.setDe d).cfg = s.cfg := rfl
@[simp] theorem setDe_frames (s : State) (d : Delta) : (s.setDe d).frames = s.frames := rfl
@[simp] theorem setDe_sinkFail (s : State) (d : Delta) : (s.setDe d).sinkFail = s.sinkFail := rfl
@[simp] theorem setDe_events (s : State) (d : Delta) : (s.setDe d).events = s.events := rfl
@[simp] theorem setDe_free (s : State) (d : Delta) : (s.setDe d).free = s.free := rfl

@[simp] theorem setFrames_bw (s : State) (f : Frames) : (s.setFrames f).bw = s.bw := rfl
@[simp] theorem setFrames_ct (s : State) (f : Frames) : (s.setFrames f).ct = s.ct := rfl
@[simp] theorem setFrames_lzw (s : State) (f : Frames) : (s.setFrames f).lzw = s.lzw := rfl
@[simp] theorem setFrames_flt (s : State) (f : Frames) : (s.setFrames f).flt = s.flt := rfl
@[simp] theorem setFrames_de (s : State) (f : Frames) : (s.setFrames f).de = s.de := rfl
@[simp] theorem setFrames_out (s : State) (f : Frames) : (s.setFrames f).out = s.out := rfl
@[simp] theorem setFrames_cfg (s : State) (f : Frames) : (s.setFrames f).cfg = s.cfg := rfl
@[simp] theorem setFrames_frames (s : State) (f : Frames) : (s.setFrames f).frames = f := rfl
@[simp] theorem setFrames_sinkFail (s : State) (f : Frames) : (s.setFrames f).sinkFail = s.sinkFail := rfl
@[simp] theorem setFrames_events (s : State) (f : Frames) : (s.setFrames f).events = s.events := rfl
@[simp] theorem setFrames_free (s : State) (f : Frames) : (s.setFrames f).free = s.free := rfl

@[simp] theorem useFree_bw (s : State) (k : Nat) : (s.useFree k).bw = s.bw := rfl
@[simp] theorem useFree_ct (s : State) (k : Nat) : (s.useFree k).ct = s.ct := rfl
@[simp] theorem useFree_lzw (s : State) (k : Nat) : (s.useFree k).lzw = s.lzw := rfl
@[simp] theorem useFree_flt (s : State) (k : Nat) : (s.useFree k).flt = s.flt := rfl
@[simp] theorem useFree_de (s : State) (k : Nat) : (s.useFree k).de = s.de := rfl
@[simp] theorem useFree_out (s : State) (k : Nat) : (s.useFree k).out = s.out := rfl
@[simp] theorem useFree_cfg (s : State) (k : Nat) : (s.useFree k).cfg = s.cfg := rfl
@[simp] theorem useFree_frames (s : State) (k : Nat) : (s.useFree k).frames = s.frames := rfl
@[simp] theorem useFree_sinkFail (s : State) (k : Nat) : (s.useFree k).sinkFail = s.sinkFail := rfl
@[simp] theorem useFree_events (s : State) (k : Nat) : (s.useFree k).events = s.events := rfl
@[simp] theorem useFree_free (s : State) (k : Nat) : (s.useFree k).free = s.free + k := rfl

@[simp] theorem raise_bw (s : State) (c : Cause) (w : Word) : (s.raise c w).bw = s.bw := rfl
@[simp] theorem raise_ct (s : State) (c : Cause) (w : Word) : (s.raise c w).ct = s.ct := rfl
@[simp] theorem raise_lzw (s : State) (c : Cause) (w : Word) : (s.raise c w).lzw = s.lzw := rfl
@[simp] theorem raise_flt (s : State) (c : Cause) (w : Word) : (s.raise c w).flt = ⟨c, w⟩ := rfl
@[simp] theorem raise_de (s : State) (c : Cause) (w : Word) : (s.raise c w).de = s.de := rfl
@[simp] theorem raise_out (s : State) (c : Cause) (w : Word) : (s.raise c w).out = s.out := rfl
@[simp] theorem raise_cfg (s : State) (c : Cause) (w : Word) : (s.raise c w).cfg = s.cfg := rfl
@[simp] theorem raise_frames (s : State) (c : Cause) (w : Word) : (s.raise c w).frames = s.frames := rfl
@[simp] theorem raise_sinkFail (s : State) (c : Cause) (w : Word) : (s.raise c w).sinkFail = s.sinkFail := rfl
@[simp] theorem raise_events (s : State) (c : Cause) (w : Word) : (s.raise c w).events = s.events := rfl
@[simp] theorem raise_free (s : State) (c : Cause) (w : Word) : (s.raise c w).free = s.free := rfl

@[simp] theorem scramble_flt (s : State) : s.scramble.flt = s.flt := rfl
@[simp] theorem scramble_bw (s : State) : s.scramble.bw = .unspecified s.free := rfl
@[simp] theorem scramble_ct (s : State) : s.scramble.ct = .unspecified s.free := rfl
@[simp] theorem scramble_lzw (s : State) : s.scramble.lzw = .unspecified s.free := rfl
@[simp] theorem scramble_de (s : State) : s.scramble.de = .unspecified s.free := rfl
@[simp] theorem scramble_free (s : State) : s.scramble.free = s.free + 19 := rfl
@[simp] theorem scramble_out (s : State) : s.scramble.out = s.out := rfl
@[simp] theorem scramble_cfg (s : State) : s.scramble.cfg = s.cfg := rfl
@[simp] theorem scramble_frames (s : State) : s.scramble.frames = s.frames := rfl
@[simp] theorem scramble_sinkFail (s : State) : s.scramble.sinkFail = s.sinkFail := rfl
@[simp] theorem scramble_events (s : State) : s.scramble.events = s.events := rfl

@[simp] theorem takeReset_cfg (s : State) : s.takeReset.cfg = s.cfg := rfl
@[simp] theorem takeReset_frames (s : State) : s.takeReset.frames = s.frames := rfl
@[simp] theorem takeReset_sinkFail (s : State) : s.takeReset.sinkFail = s.sinkFail := rfl
@[simp] theorem takeReset_events (s : State) : s.takeReset.events = s.events := rfl
@[simp] theorem takeReset_free (s : State) : s.takeReset.free = s.free := rfl
@[simp] theorem takeReset_out (s : State) : s.takeReset.out = [] := rfl
@[simp] theorem takeReset_flt (s : State) : s.takeReset.flt = ⟨.none, 0⟩ := rfl

/-- The state after reset is what the reset input makes of it. -/
theorem reset_takeReset : reset.takeReset = reset := rfl

end Sys2Proof.Machine.State
end

