-- ==== Sys2Proof/Laws/Sink.lean ====
section
/-! SUPPORT. What an operation that may write to the sink can do, said once: if it completes, only the Bit Writer, the record and
the oracle have changed, and the burst answers used were acceptances; if it fails, the answer used last was a failure. -/

namespace Sys2Proof.Machine

/-- Only `BW.*`, `out` and the oracle differ. -/
def BwFrame (s t : State) : Prop := t = { s with bw := t.bw, out := t.out, sinkFail := t.sinkFail }

/-- The operation completed. -/
structure Sunk (s t : State) : Prop where
  frame : BwFrame s t
  grows : s.out <+: t.out
  answers : ∃ pre, s.sinkFail = pre ++ t.sinkFail ∧ ∀ a ∈ pre, a = SinkAnswer.accepted

/-- The operation failed at a burst. -/
structure FailedAt (s t : State) : Prop where
  frame : BwFrame s t
  grows : s.out <+: t.out
  answers : ∃ pre k, s.sinkFail = pre ++ SinkAnswer.failed k :: t.sinkFail ∧ ∀ a ∈ pre, a = SinkAnswer.accepted

/-- What an operation over the sink can answer. -/
def Sinks (s : State) : Except State State → Prop
  | .ok t => Sunk s t
  | .error t => FailedAt s t

theorem BwFrame.refl (s : State) : BwFrame s s := rfl

theorem BwFrame.trans {s t u : State} (h : BwFrame s t) (k : BwFrame t u) : BwFrame s u := by
  unfold BwFrame at *; rw [k, h]

@[simp] theorem bwFrame_setBw (s : State) (b : BitWriter) : BwFrame s (s.setBw b) := rfl

section
variable {s t : State} (h : BwFrame s t)
include h
theorem BwFrame.ct : t.ct = s.ct := by rw [h]
theorem BwFrame.lzw : t.lzw = s.lzw := by rw [h]
theorem BwFrame.flt : t.flt = s.flt := by rw [h]
theorem BwFrame.de : t.de = s.de := by rw [h]
theorem BwFrame.cfg : t.cfg = s.cfg := by rw [h]
theorem BwFrame.frames : t.frames = s.frames := by rw [h]
theorem BwFrame.events : t.events = s.events := by rw [h]
theorem BwFrame.free : t.free = s.free := by rw [h]
end

theorem Sunk.refl (s : State) : Sunk s s := ⟨.refl s, List.prefix_rfl, [], by simp⟩

theorem Sunk.trans {s t u : State} (h : Sunk s t) (k : Sunk t u) : Sunk s u := by
  obtain ⟨p, hp, ha⟩ := h.answers
  obtain ⟨q, hq, hb⟩ := k.answers
  refine ⟨h.frame.trans k.frame, h.grows.trans k.grows, p ++ q, by rw [hp, hq, List.append_assoc], ?_⟩
  intro a h; rcases List.mem_append.1 h with h | h
  exacts [ha a h, hb a h]

theorem Sunk.failed {s t u : State} (h : Sunk s t) (k : FailedAt t u) : FailedAt s u := by
  obtain ⟨p, hp, ha⟩ := h.answers
  obtain ⟨q, j, hq, hb⟩ := k.answers
  refine ⟨h.frame.trans k.frame, h.grows.trans k.grows, p ++ q, j, by rw [hp, hq, List.append_assoc], ?_⟩
  intro a h; rcases List.mem_append.1 h with h | h
  exacts [ha a h, hb a h]

theorem sunk_setBw (s : State) (b : BitWriter) : Sunk s (s.setBw b) := ⟨rfl, List.prefix_rfl, [], by simp⟩

theorem Sunk.sinks {s t : State} (h : Sunk s t) {r : Except State State} (k : Sinks t r) : Sinks s r := by
  cases r with
  | ok u => exact h.trans k
  | error u => exact h.failed k

theorem Sinks.bind {s : State} {r : Except State State} {f : State → Except State State} (h : Sinks s r)
    (k : ∀ t, r = .ok t → Sinks t (f t)) : Sinks s (r.bind f) := by
  cases r with
  | ok t => exact Sunk.sinks h (k t rfl)
  | error t => exact h

theorem Sinks.map {s : State} {r : Except State State} {f : State → State} (h : Sinks s r)
    (k : ∀ t, Sunk t (f t)) : Sinks s (r.map f) := by
  cases r with
  | ok t => exact Sunk.trans h (k t)
  | error t => exact h

/-- A failure is answered by the oracle. -/
theorem Sinks.ok_of_accepts {s : State} {r : Except State State} (h : Sinks s r) (ha : s.sinkAccepts) : ∃ t, r = .ok t := by
  cases r with
  | ok t => exact ⟨t, rfl⟩
  | error t =>
    obtain ⟨p, k, hp, -⟩ := FailedAt.answers h
    have := ha (.failed k) (by rw [hp]; simp)
    cases this

theorem Sunk.accepts {s t : State} (h : Sunk s t) (ha : s.sinkAccepts) : t.sinkAccepts := by
  obtain ⟨p, hp, -⟩ := h.answers
  intro a hm; exact ha a (by rw [hp]; simp [hm])

theorem sinks_sinkWrite (bytes : List Byte) (s : State) : Sinks s (sinkWrite bytes s) := by
  unfold sinkWrite
  split
  · rename_i h; exact ⟨rfl, List.prefix_append _ _, [], by simp⟩
  · rename_i rest h; exact ⟨rfl, List.prefix_append _ _, [.accepted], by simp [h]⟩
  · rename_i k rest h; exact ⟨rfl, List.prefix_append _ _, [], k, by simp [h]⟩

/-- An accepted burst. -/
theorem sinkWrite_ok {bytes : List Byte} {s t : State} (h : sinkWrite bytes s = .ok t) :
    t = { s with out := s.out ++ bytes, sinkFail := s.sinkFail.tail } := by
  unfold sinkWrite at h
  split at h
  · rename_i hs; cases h; rw [hs, List.tail_nil, ← hs]
  · rename_i hs; cases h; rw [hs]; rfl
  · cases h

theorem sinks_emitBlock (s : State) : Sinks s (emitBlock s) :=
  (sinks_sinkWrite _ s).map fun t => sunk_setBw t _

theorem sinks_pushByte (b : Byte) (s : State) : Sinks s (pushByte b s) := by
  unfold pushByte
  dsimp only
  split
  · exact (sunk_setBw s _).sinks (sinks_emitBlock _)
  · exact sunk_setBw s _

theorem sinks_drain (n : Nat) (s : State) : Sinks s (drain n s) := by
  induction n generalizing s with
  | zero => exact Sunk.refl s
  | succ n ih =>
    unfold drain
    split
    · exact (sinks_pushByte _ s).bind fun t _ => (sunk_setBw t _).sinks (ih _)
    · exact Sunk.refl s

theorem sinks_writeCode (c w : Nat) (s : State) : Sinks s (writeCode c w s) :=
  (sunk_setBw s _).sinks (sinks_drain _ _)

theorem sinks_flush (s : State) : Sinks s (flush s) := by
  refine Sinks.bind ?_ fun t _ => Sinks.bind ?_ fun u _ => sinks_sinkWrite _ u
  · unfold flushBits; split
    · exact (sinks_pushByte _ s).map fun t => sunk_setBw t _
    · exact Sunk.refl s
  · unfold flushBlock; split
    · exact sinks_emitBlock t
    · exact Sunk.refl t

end Sys2Proof.Machine
end

