-- ==== Sys2Proof/Laws/BitWriter.lean ====
section
/-! SUPPORT. The Bit Writer from a state in order: `PushByte`, the drain loop and `BW.WRITE_CODE` append exactly their bits
(R100, R102), and `BW.FLUSH` writes what is left (R104). -/

namespace Sys2Proof.Machine

/-! ### Bits -/

@[simp] theorem length_bitsOf (v n : Nat) : (bitsOf v n).length = n := by simp [bitsOf]

@[simp] theorem bitsOf_zero (v : Nat) : bitsOf v 0 = [] := rfl

theorem bitsOf_getElem (v n i : Nat) (h : i < (bitsOf v n).length) : (bitsOf v n)[i] = v.testBit i := by
  simp [bitsOf]

/-- The low bits, then the rest. -/
theorem bitsOf_add (v a b : Nat) : bitsOf v (a + b) = bitsOf v a ++ bitsOf (v >>> a) b := by
  refine List.ext_getElem (by simp) fun i h1 h2 => ?_
  rw [bitsOf_getElem, List.getElem_append]
  split
  · rw [bitsOf_getElem]
  · rename_i h
    rw [bitsOf_getElem, Nat.testBit_shiftRight, length_bitsOf]
    rw [length_bitsOf] at h
    congr 1; omega

/-- Bits above `n` do not matter. -/
theorem bitsOf_congr {v u n : Nat} (h : ∀ i < n, v.testBit i = u.testBit i) : bitsOf v n = bitsOf u n := by
  refine List.ext_getElem (by simp) fun i h1 h2 => ?_
  rw [bitsOf_getElem, bitsOf_getElem]
  exact h i (by simpa using h1)

theorem bitsOf_mod (v n : Nat) : bitsOf (v % (1 <<< n)) n = bitsOf v n :=
  bitsOf_congr fun i hi => by rw [Nat.one_shiftLeft, Nat.testBit_mod_two_pow]; simp [hi]

@[simp] theorem bitsOfBytes_nil : bitsOfBytes [] = [] := rfl

theorem bitsOfBytes_append (a b : List Byte) : bitsOfBytes (a ++ b) = bitsOfBytes a ++ bitsOfBytes b := by
  simp [bitsOfBytes]

@[simp] theorem bitsOfBytes_singleton (b : Byte) : bitsOfBytes [b] = bitsOf b.toNat 8 := by simp [bitsOfBytes]

@[simp] theorem length_bitsOfBytes (a : List Byte) : (bitsOfBytes a).length = 8 * a.length := by
  induction a with
  | nil => rfl
  | cons b a ih => rw [← List.singleton_append, bitsOfBytes_append]; simp [ih]; omega

/-! ### Appending -/

theorem appends_refl (s : State) : s.appends s [] := ⟨[], by simp, by simp, by simp⟩

theorem State.appends.trans {s t u : State} {a b : List Bool} (h : s.appends t a) (k : t.appends u b) :
    s.appends u (a ++ b) := by
  obtain ⟨p, p1, p2, p3⟩ := h
  obtain ⟨q, q1, q2, q3⟩ := k
  refine ⟨p ++ q, ?_, ?_, ?_⟩
  · intro x hx; rcases List.mem_append.1 hx with hx | hx
    exacts [p1 x hx, q1 x hx]
  · rw [q2, p2, List.flatMap_append, List.append_assoc]
  · rw [List.flatten_append, bitsOfBytes_append, List.append_assoc, q3, ← List.append_assoc, p3, List.append_assoc]

/-- `PushByte` between commands: the byte joins the staged ones, and the 255th sends them as one full sub-block. -/
theorem pushByte_ok {b : Byte} {s t : State} (hs : s.bw.scnt ≤ 254) (hl : s.bw.stg.length = s.bw.scnt)
    (h : pushByte b s = .ok t) :
    t.bw.acc = s.bw.acc ∧ t.bw.nbits = s.bw.nbits ∧
      ((s.bw.scnt < 254 ∧ t.bw.stg = s.bw.stg ++ [b] ∧ t.bw.scnt = s.bw.scnt + 1 ∧ t.out = s.out) ∨
        (s.bw.scnt = 254 ∧ t.bw.stg = [] ∧ t.bw.scnt = 0 ∧ t.out = s.out ++ fullBlock (s.bw.stg ++ [b]))) := by
  unfold pushByte at h
  dsimp only at h
  have htake : s.bw.stg.take s.bw.scnt = s.bw.stg := List.take_of_length_le hl.le
  rw [htake] at h
  split at h
  · rename_i hc
    replace hc : s.bw.scnt + 1 = 255 := hc
    rw [emitBlock] at h
    dsimp only [State.setBw_bw] at h
    cases hw : sinkWrite (BitVec.ofNat 8 (s.bw.scnt + 1) :: (s.bw.stg ++ [b]).take (s.bw.scnt + 1))
        (s.setBw { s.bw with stg := s.bw.stg ++ [b], scnt := s.bw.scnt + 1 }) with
    | error u => rw [hw] at h; cases h
    | ok u =>
      rw [hw] at h
      cases h
      rw [sinkWrite_ok hw, List.take_of_length_le (by simp [hl])]
      refine ⟨rfl, rfl, .inr ⟨by omega, rfl, rfl, ?_⟩⟩
      simp only [State.setBw_out, hc]
      rfl
  · rename_i hc
    replace hc : ¬ s.bw.scnt + 1 = 255 := hc
    cases h
    exact ⟨rfl, rfl, .inl ⟨by omega, rfl, rfl, rfl⟩⟩

/-- One byte taken from the accumulator moves 8 bits on. -/
theorem drain_turn {s t : State} (hs : s.bw.scnt ≤ 254) (hl : s.bw.stg.length = s.bw.scnt) (hn : 8 ≤ s.bw.nbits)
    (h : pushByte (s.bw.acc.setWidth 8) s = .ok t) :
    s.appends (t.setBw { t.bw with acc := t.bw.acc >>> 8, nbits := t.bw.nbits - 8 }) [] ∧
      t.bw.scnt ≤ 254 ∧ t.bw.stg.length = t.bw.scnt ∧ t.bw.acc = s.bw.acc ∧ t.bw.nbits = s.bw.nbits := by
  obtain ⟨h1, h2, h3⟩ := pushByte_ok hs hl h
  have hbits : bitsOf s.bw.acc.toNat s.bw.nbits =
      bitsOf (s.bw.acc.setWidth 8).toNat 8 ++ bitsOf (s.bw.acc >>> 8).toNat (s.bw.nbits - 8) := by
    have hsplit := bitsOf_add s.bw.acc.toNat 8 (s.bw.nbits - 8)
    rw [show 8 + (s.bw.nbits - 8) = s.bw.nbits by omega] at hsplit
    rw [hsplit]
    congr 1
    · rw [← bitsOf_mod s.bw.acc.toNat 8]; simp [BitVec.toNat_setWidth]
  rcases h3 with ⟨ha, hb, hc, hd⟩ | ⟨ha, hb, hc, hd⟩
  · refine ⟨⟨[], by simp, by simp [hd], ?_⟩, by omega, by rw [hb, hc]; simp [hl], h1, h2⟩
    simp [BitWriter.pending, hb, h1, h2, bitsOfBytes_append, hbits]
  · refine ⟨⟨[s.bw.stg ++ [s.bw.acc.setWidth 8]], by simp [hl, ha], by simp [hd], ?_⟩, by omega,
      by rw [hb, hc]; rfl, h1, h2⟩
    simp [BitWriter.pending, hb, h1, h2, bitsOfBytes_append, hbits]

/-- The loop of R100 leaves fewer than 8 bits in the accumulator and loses none. -/
theorem drain_ok {n : Nat} {s t : State} (hs : s.bw.scnt ≤ 254) (hl : s.bw.stg.length = s.bw.scnt)
    (hn : s.bw.nbits ≤ n) (ha : s.bw.acc.toNat < 1 <<< s.bw.nbits) (h : drain n s = .ok t) :
    t.bw.ok ∧ s.appends t [] := by
  induction n generalizing s with
  | zero =>
    cases h
    exact ⟨⟨by omega, ha, hs, hl⟩, appends_refl _⟩
  | succ n ih =>
    unfold drain at h
    by_cases hc : 8 ≤ s.bw.nbits
    · rw [if_pos hc] at h
      cases hp : pushByte (s.bw.acc.setWidth 8) s with
      | error u => rw [hp] at h; cases h
      | ok u =>
        rw [hp] at h
        obtain ⟨k1, k2, k3, k4, k5⟩ := drain_turn hs hl hc hp
        have := ih (s := u.setBw { u.bw with acc := u.bw.acc >>> 8, nbits := u.bw.nbits - 8 }) k2 k3
          (by simp only [State.setBw_bw]; omega) ?_ h
        · exact ⟨this.1, by simpa using k1.trans this.2⟩
        · simp only [State.setBw_bw, k4, k5, BitVec.toNat_ushiftRight]
          rw [Nat.one_shiftLeft] at ha ⊢
          rw [Nat.shiftRight_eq_div_pow, Nat.div_lt_iff_lt_mul (by decide), ← Nat.pow_add]
          rwa [show s.bw.nbits - 8 + 8 = s.bw.nbits by omega]
    · rw [if_neg hc] at h
      cases h
      exact ⟨⟨by omega, ha, hs, hl⟩, appends_refl _⟩

theorem one_shiftLeft_add (a b : Nat) : 1 <<< (a + b) = 1 <<< a * 1 <<< b := by
  simp [Nat.one_shiftLeft, Nat.pow_add]

/-- The accumulator after `BW.acc | (v << BW.nbits)`, as a number: nothing is lost while it has room. -/
theorem toNat_or_shift {acc : Word} {n v w : Nat} (hv : v < 1 <<< w) (hw : n + w ≤ 32) :
    (acc ||| (BitVec.ofNat 32 v) <<< n).toNat = acc.toNat ||| v <<< n := by
  rw [Nat.one_shiftLeft] at hv
  have h1 : v * 2 ^ n < 2 ^ w * 2 ^ n := Nat.mul_lt_mul_of_pos_right hv (Nat.two_pow_pos n)
  have h2 : 2 ^ w * 2 ^ n ≤ 2 ^ 32 := by rw [← Nat.pow_add]; exact Nat.pow_le_pow_right (by decide) (by omega)
  have h3 : v < 2 ^ 32 := lt_of_lt_of_le hv (Nat.pow_le_pow_right (by decide) (by omega))
  rw [BitVec.toNat_or, BitVec.toNat_shiftLeft, BitVec.toNat_ofNat, Nat.mod_eq_of_lt h3, Nat.shiftLeft_eq,
    Nat.mod_eq_of_lt (lt_of_lt_of_le h1 h2)]

/-- The accumulator when `w` bits of a code have joined it (R100): they stand above the bits already held, and it has room. -/
theorem acc_appended {b : BitWriter} (hb : b.ok) {w : Nat} (hw : w ≤ 25) (c : Nat) :
    (b.acc ||| (BitVec.ofNat 32 (c % (1 <<< w))) <<< b.nbits).toNat < 1 <<< (b.nbits + w) ∧
      bitsOf (b.acc ||| (BitVec.ofNat 32 (c % (1 <<< w))) <<< b.nbits).toNat (b.nbits + w) =
        bitsOf b.acc.toNat b.nbits ++ bitsOf c w := by
  obtain ⟨h1, h2, -, -⟩ := hb
  have hv : c % (1 <<< w) < 1 <<< w := Nat.mod_lt _ (by simp [Nat.one_shiftLeft])
  rw [toNat_or_shift (acc := b.acc) (n := b.nbits) (w := w) hv (by omega)]
  constructor
  · rw [Nat.one_shiftLeft] at h2 hv ⊢
    rw [Nat.one_shiftLeft]
    refine Nat.or_lt_two_pow ?_ ?_
    · exact lt_of_lt_of_le h2 (Nat.pow_le_pow_right (by decide) (by omega))
    · rw [Nat.shiftLeft_eq, Nat.pow_add, Nat.mul_comm (2 ^ b.nbits)]
      exact Nat.mul_lt_mul_of_pos_right hv (Nat.two_pow_pos _)
  · rw [bitsOf_add]
    congr 1
    · refine bitsOf_congr fun i hi => ?_
      rw [Nat.testBit_or, Nat.testBit_shiftLeft]
      simp [Nat.not_le.2 hi]
    · rw [← bitsOf_mod c w]
      refine bitsOf_congr fun i _ => ?_
      rw [Nat.testBit_shiftRight, Nat.testBit_or, Nat.testBit_shiftLeft,
        Nat.testBit_lt_two_pow (i := b.nbits + i)]
      · simp
      · refine lt_of_lt_of_le (by simpa [Nat.one_shiftLeft] using h2) (Nat.pow_le_pow_right (by decide) (by omega))

/-- `BW.WRITE_CODE` between commands (R100): if no burst fails, the unit is in order again and exactly the low `w` bits of the
code were appended. -/
theorem writeCode_ok {c w : Nat} {s t : State} (hs : s.bw.ok) (hw : w ≤ 25) (h : writeCode c w s = .ok t) :
    t.bw.ok ∧ s.appends t (bitsOf c w) := by
  obtain ⟨ha, hb⟩ := acc_appended hs hw c
  obtain ⟨k1, k2⟩ := drain_ok (s := s.setBw { s.bw with
      acc := s.bw.acc ||| (BitVec.ofNat 32 (c % (1 <<< w))) <<< s.bw.nbits, nbits := s.bw.nbits + w })
    hs.2.2.1 hs.2.2.2 le_rfl ha h
  refine ⟨k1, ?_⟩
  have h5 : s.appends (s.setBw { s.bw with
      acc := s.bw.acc ||| (BitVec.ofNat 32 (c % (1 <<< w))) <<< s.bw.nbits, nbits := s.bw.nbits + w }) (bitsOf c w) :=
    ⟨[], by simp, by simp, by simp only [List.flatten_nil, bitsOfBytes_nil, List.nil_append, BitWriter.pending, State.setBw_bw, hb, List.append_assoc]⟩
  simpa using h5.trans k2

/-! ### The flush -/

theorem emitBlock_ok {s t : State} (hl : s.bw.stg.length = s.bw.scnt) (h : emitBlock s = .ok t) :
    t.bw = { s.bw with stg := [], scnt := 0 } ∧ t.out = s.out ++ BitVec.ofNat 8 s.bw.stg.length :: s.bw.stg := by
  unfold emitBlock at h
  rw [List.take_of_length_le hl.le] at h
  cases hw : sinkWrite (BitVec.ofNat 8 s.bw.scnt :: s.bw.stg) s with
  | error u => rw [hw] at h; cases h
  | ok u =>
    rw [hw] at h
    cases h
    rw [sinkWrite_ok hw, hl]
    exact ⟨rfl, rfl⟩

theorem flushBlock_ok {s t : State} (hl : s.bw.stg.length = s.bw.scnt) (h : flushBlock s = .ok t) :
    t.bw = { s.bw with stg := [], scnt := 0 } ∧ t.out = s.out ++ shortBlock s.bw.stg := by
  unfold flushBlock at h
  split at h
  · rename_i hc
    have : s.bw.stg ≠ [] := by intro h0; rw [h0] at hl; simp at hl; omega
    obtain ⟨h1, h2⟩ := emitBlock_ok hl h
    exact ⟨h1, by rw [h2, shortBlock, if_neg this]⟩
  · rename_i hc
    have h0 : s.bw.stg = [] := List.eq_nil_of_length_eq_zero (by omega)
    cases h
    refine ⟨?_, by simp [shortBlock, h0]⟩
    rw [← h0, ← (show s.bw.scnt = 0 by omega)]

/-- The padded byte: afterwards the accumulator is empty, and what is staged or has just gone out is the rest of the data. -/
theorem flushBits_ok {s t : State} (h3 : s.bw.scnt ≤ 254) (h4 : s.bw.stg.length = s.bw.scnt)
    (h2 : s.bw.acc.toNat < 1 <<< s.bw.nbits) (h : flushBits s = .ok t) :
    (t.bw.acc = 0 ∧ t.bw.nbits = 0) ∧ t.bw.stg.length = t.bw.scnt ∧
      t.out ++ shortBlock t.bw.stg = s.out ++ shortBlock s.bw.lastData := by
  unfold flushBits at h
  split at h
  · rename_i hc
    cases hp : pushByte (s.bw.acc.setWidth 8) s with
    | error u => rw [hp] at h; cases h
    | ok u =>
      rw [hp] at h
      cases h
      have hne : s.bw.stg ++ [s.bw.acc.setWidth 8] ≠ [] := by simp
      obtain ⟨-, -, ⟨k1, k2, k3, k4⟩ | ⟨k1, k2, k3, k4⟩⟩ := pushByte_ok h3 h4 hp
      · refine ⟨⟨rfl, rfl⟩, by simp [k2, k3, h4], ?_⟩
        simp [k4, k2, BitWriter.lastData, hc]
      · refine ⟨⟨rfl, rfl⟩, by simp [k2, k3], ?_⟩
        simp [k4, k2, BitWriter.lastData, hc, shortBlock, fullBlock, h4, k1]
  · rename_i hc
    have h0 : s.bw.nbits = 0 := by omega
    cases h
    refine ⟨⟨?_, h0⟩, h4, by simp [BitWriter.lastData, h0]⟩
    rw [h0] at h2
    exact BitVec.eq_of_toNat_eq (by simp at h2; simp [h2])

/-- `BW.FLUSH` between commands (R104): the staged bytes and the zero-padded last one as one sub-block, if there are any, then the
terminator; the unit is empty. -/
theorem flush_ok {s t : State} (hs : s.bw.ok) (h : flush s = .ok t) :
    t.bw = .empty ∧ t.out = s.out ++ shortBlock s.bw.lastData ++ [0] := by
  obtain ⟨h1, h2, h3, h4⟩ := hs
  unfold flush at h
  cases hb : flushBits s with
  | error u => rw [hb] at h; cases h
  | ok u =>
    rw [hb] at h
    cases hk : flushBlock u with
    | error v => exact absurd h (by simp [Except.bind, hk])
    | ok v =>
      have h : sinkWrite [Config.terminator] v = .ok t := by simpa [Except.bind, hk] using h
      have ht := sinkWrite_ok h
      obtain ⟨k1, k2, k3⟩ := flushBits_ok h3 h4 h2 hb
      obtain ⟨j1, j2⟩ := flushBlock_ok k2 hk
      refine ⟨?_, ?_⟩
      · rw [ht, j1]; dsimp only; rw [k1.1, k1.2]; rfl
      · rw [ht, ← k3, ← j2]

end Sys2Proof.Machine
end

