-- ==== Sys2Proof/Laws/CodeTable.lean ====
section
/-! SUPPORT. The Code Table: number helpers (R8, R9), the dictionary as a map (R28, R121), and the invariants of R30 under the three
operations. -/

namespace Sys2Proof.Machine

/-! ### Numbers -/

theorem bitlenFrom_spec {v : Nat} : ∀ {fuel n : Nat}, v < 2 ^ (n + fuel) → (∀ m < n, 2 ^ m ≤ v) →
    v < 2 ^ bitlenFrom v fuel n ∧ ∀ m < bitlenFrom v fuel n, 2 ^ m ≤ v
  | 0, n, h, k => ⟨h, k⟩
  | fuel + 1, n, h, k => by
    unfold bitlenFrom
    rw [Nat.one_shiftLeft]
    by_cases hv : v < 2 ^ n
    · rw [if_pos hv]; exact ⟨hv, k⟩
    · rw [if_neg hv]
      refine bitlenFrom_spec (by rwa [show n + 1 + fuel = n + (fuel + 1) by omega]) fun m hm => ?_
      rcases Nat.lt_succ_iff_lt_or_eq.1 hm with hm | rfl
      · exact k m hm
      · omega

/-- `bitlen(v)` is the least `n` with `v < 1 << n` (R8). -/
theorem bitlen_le_iff {v n : Nat} : bitlen v ≤ n ↔ v < 2 ^ n := by
  obtain ⟨h1, h2⟩ := bitlenFrom_spec (v := v) (fuel := v) (n := 0) (by simpa using Nat.lt_two_pow_self) (by simp)
  constructor
  · exact fun h => lt_of_lt_of_le h1 (Nat.pow_le_pow_right (by decide) h)
  · intro h
    by_contra hc
    exact absurd h (Nat.not_lt.2 (h2 n (by simpa [bitlen] using hc)))

theorem lt_two_pow_bitlen (v : Nat) : v < 2 ^ bitlen v := bitlen_le_iff.1 le_rfl

theorem bitlen_eq {v n : Nat} (h1 : v < 2 ^ (n + 1)) (h2 : 2 ^ n ≤ v) : bitlen v = n + 1 := by
  have h3 := bitlen_le_iff.2 h1
  have h4 : ¬ bitlen v ≤ n := fun h => absurd (bitlen_le_iff.1 h) (by omega)
  omega

/-- The minimum code size of a palette (R130): the least one, from 2 on, whose literal codes hold every index. -/
theorem minCodeSize_le_iff {n b : Nat} (hn : 1 ≤ n) : minCodeSize n ≤ b ↔ 2 ≤ b ∧ n ≤ 2 ^ b := by
  unfold minCodeSize bitsNeededFor
  rw [max_le_iff, bitlen_le_iff]
  have := Nat.two_pow_pos b
  constructor <;> rintro ⟨h1, h2⟩ <;> exact ⟨h1, by omega⟩

theorem two_le_minCodeSize (n : Nat) : 2 ≤ minCodeSize n := le_max_left _ _

theorem minCodeSize_le {n : Nat} (h1 : 1 ≤ n) (h2 : n ≤ 256) : minCodeSize n ≤ 8 :=
  (minCodeSize_le_iff h1).2 ⟨by decide, by simpa using h2⟩

/-! ### The dictionary as a map -/

theorem CodeTable.clearCode_eq (ct : CodeTable) : ct.clearCode = 2 ^ ct.mcs := Nat.one_shiftLeft _
theorem CodeTable.eoi_eq (ct : CodeTable) : ct.eoi = 2 ^ ct.mcs + 1 := by rw [eoi, clearCode_eq]
theorem CodeTable.firstCode_eq (ct : CodeTable) : ct.firstCode = 2 ^ ct.mcs + 2 := by rw [firstCode, clearCode_eq]

theorem mem_of_lookup {q : IndexSeq} {c : Nat} : ∀ {tab : List (IndexSeq × Nat)}, lookup q tab = some c → (q, c) ∈ tab
  | (t, d) :: tab, h => by
    unfold lookup at h
    split at h
    · rename_i ht; cases h; rw [ht]; exact List.mem_cons_self
    · exact List.mem_cons_of_mem _ (mem_of_lookup h)

theorem lookup_eq_none {q : IndexSeq} : ∀ {tab : List (IndexSeq × Nat)}, lookup q tab = none ↔ ∀ c, (q, c) ∉ tab
  | [] => by simp [lookup]
  | (t, d) :: tab => by
    unfold lookup
    split
    · rename_i ht; subst ht
      exact ⟨fun h => (nomatch h), fun h => absurd List.mem_cons_self (h d)⟩
    · rename_i ht
      rw [lookup_eq_none]
      refine forall_congr' fun c => ?_
      simp only [List.mem_cons, Prod.mk.injEq, not_or]
      exact ⟨fun h => ⟨fun h' => ht h'.1.symm, h⟩, fun h => h.2⟩

theorem lookup_of_mem {q : IndexSeq} {c : Nat} : ∀ {tab : List (IndexSeq × Nat)}, (tab.map Prod.fst).Nodup → (q, c) ∈ tab →
    lookup q tab = some c
  | (t, d) :: tab, hn, h => by
    obtain ⟨h1, h2⟩ := List.nodup_cons.1 hn
    unfold lookup
    rcases List.mem_cons.1 h with h | h
    · cases h; rw [if_pos rfl]
    · rw [if_neg, lookup_of_mem h2 h]
      rintro rfl
      exact h1 (List.mem_map.2 ⟨_, h, rfl⟩)

theorem mem_of_storedSeq {q : IndexSeq} {c : Nat} : ∀ {tab : List (IndexSeq × Nat)}, storedSeq c tab = some q → (q, c) ∈ tab
  | (t, d) :: tab, h => by
    unfold storedSeq at h
    split at h
    · rename_i ht; cases h; rw [ht]; exact List.mem_cons_self
    · exact List.mem_cons_of_mem _ (mem_of_storedSeq h)

theorem storedSeq_of_mem {q : IndexSeq} {c : Nat} : ∀ {tab : List (IndexSeq × Nat)}, (tab.map Prod.snd).Nodup → (q, c) ∈ tab →
    storedSeq c tab = some q
  | (t, d) :: tab, hn, h => by
    obtain ⟨h1, h2⟩ := List.nodup_cons.1 hn
    unfold storedSeq
    rcases List.mem_cons.1 h with h | h
    · cases h; rw [if_pos rfl]
    · rw [if_neg, storedSeq_of_mem h2 h]
      rintro rfl
      exact h1 (List.mem_map.2 ⟨_, h, rfl⟩)

/-- A longer sequence's code is what is stored (R141). -/
theorem codeOf_long {ct : CodeTable} {q : IndexSeq} (h : 2 ≤ q.length) : codeOf ct q = lookup q ct.tab := by
  match q, h with
  | _ :: _ :: _, _ => rfl

section
variable {ct : CodeTable} (h : ct.tabOk)
include h

theorem CodeTable.tabOk.nodup_codes : (ct.tab.map Prod.snd).Nodup := by
  rw [h.1]; exact List.nodup_range'

/-- Which codes are stored (R30 (a)). -/
theorem CodeTable.tabOk.code_range {e : IndexSeq × Nat} (he : e ∈ ct.tab) : ct.firstCode ≤ e.2 ∧ e.2 < ct.next := by
  have hm : e.2 ∈ ct.tab.map Prod.snd := List.mem_map.2 ⟨e, he, rfl⟩
  rw [h.1, List.mem_range'_1] at hm
  omega

/-- The dictionary of R30 is a map both ways. -/
theorem CodeTable.tabOk.map : ct.mapOk :=
  ⟨h.2.1, h.nodup_codes, fun e he => ⟨(h.2.2.2 e he).1, h.code_range he⟩⟩
end

section
variable {ct : CodeTable} (h : ct.mapOk)
include h

theorem CodeTable.mapOk.lookup_iff {q : IndexSeq} {c : Nat} : lookup q ct.tab = some c ↔ (q, c) ∈ ct.tab :=
  ⟨mem_of_lookup, lookup_of_mem h.1⟩

/-- A sequence has the code that `CodeOf` gives it (R141). -/
theorem CodeTable.mapOk.codeOf_iff {q : IndexSeq} {c : Nat} : codeOf ct q = some c ↔ ct.coded q c := by
  match q with
  | [] => simp [codeOf, CodeTable.coded]
  | [i] =>
    simp only [codeOf, CodeTable.coded, Option.some.injEq, List.cons.injEq, and_true, List.length_singleton]
    constructor
    · rintro rfl; exact .inl ⟨i, rfl, rfl⟩
    · rintro (⟨_, rfl, rfl⟩ | ⟨h, -⟩)
      · rfl
      · omega
  | i :: j :: q =>
    rw [codeOf_long (by simp), h.lookup_iff]
    simp [CodeTable.coded]

/-- The bus operands that spell a sequence give that sequence (R75). -/
theorem CodeTable.mapOk.busSeq_spells {pre : BitVec 12} {last : Byte} {q : IndexSeq} (hq : ct.spells pre.toNat q)
    (hl : last.toNat < 2 ^ ct.mcs) : busSeq ct pre last = some (q ++ [last]) := by
  unfold busSeq seqOf
  rw [if_pos (by rwa [ct.clearCode_eq])]
  rcases hq with ⟨h1, rfl⟩ | hq
  · rw [if_pos (show pre.toNat < ct.clearCode from h1)]; rfl
  · have hc := (h.2.2 _ hq).2.1
    rw [CodeTable.firstCode] at hc
    rw [if_neg (show ¬ pre.toNat < ct.clearCode by omega), storedSeq_of_mem h.2.1 hq]
    rfl

/-- What the bus operands spell has a code or is one that was stored; extended by an index it is no literal. -/
theorem CodeTable.mapOk.spells_length {c : Nat} {q : IndexSeq} (hq : ct.spells c q) : 1 ≤ q.length := by
  rcases hq with ⟨-, rfl⟩ | hq
  · simp
  · have := (h.2.2 _ hq).1; simp only at this; omega
end

/-- Under R30, a current match that has a code by R150 has one by R141. -/
theorem CodeTable.tabOk.codeOf_has {ct : CodeTable} (h : ct.tabOk) {q : IndexSeq} (hq : ct.has q) :
    ∃ c, codeOf ct q = some c := by
  rcases hq with hq | hq
  · match q, hq with
    | [i], _ => exact ⟨_, rfl⟩
  · obtain ⟨⟨_, c⟩, he, rfl⟩ := List.mem_map.1 hq
    exact ⟨c, h.map.codeOf_iff.2 (.inr ⟨(h.2.2.2 _ he).1, he⟩)⟩

/-- Operands that spell nothing name no sequence (R75). -/
theorem busSeq_none {ct : CodeTable} {pre : BitVec 12} {last : Byte}
    (h : 2 ^ ct.mcs ≤ last.toNat ∨ ∀ q, ¬ ct.spells pre.toNat q) : busSeq ct pre last = none := by
  unfold busSeq
  split
  · rename_i hl
    rw [ct.clearCode_eq] at hl
    rcases h with h | h
    · omega
    · unfold seqOf
      split
      · rename_i hc; exact absurd (.inl ⟨hc, rfl⟩) (h _)
      · cases hs : storedSeq pre.toNat ct.tab with
        | none => rfl
        | some q => exact absurd (.inr (mem_of_storedSeq hs)) (h q)
  · rfl

/-! ### The invariants under the operations -/

theorem CodeTable.ok.width_bounds {ct : CodeTable} (h : ct.ok) :
    ct.mcs + 1 ≤ ct.width ∧ ct.width ≤ 12 ∧ ct.next ≤ 2 ^ ct.width := by
  obtain ⟨h1, h2, h3, h4, h5⟩ := h
  rw [firstCode_eq] at h3
  have h6 := lt_two_pow_bitlen (ct.next - 1)
  refine ⟨?_, ?_, by rw [h5]; omega⟩
  · rw [h5]
    by_contra hc
    have := bitlen_le_iff.1 (show bitlen (ct.next - 1) ≤ ct.mcs by omega)
    omega
  · rw [h5, bitlen_le_iff]; omega

/-- A full table's codes have 12 bits (R128). -/
theorem CodeTable.ok.width_full {ct : CodeTable} (h : ct.ok) (hn : ct.next = 4096) : ct.width = 12 := by
  rw [h.2.2.2.2, hn]; exact bitlen_eq (by norm_num) (by norm_num)

theorem started_ok {m : Nat} {hit added : Bool} {q : Nat} (h1 : 2 ≤ m) (h2 : m ≤ 8) :
    CodeTable.ok ⟨m, m + 1, 2 ^ m + 2, [], hit, q, added⟩ := by
  have h4 : 2 ^ m ≤ 2 ^ 8 := Nat.pow_le_pow_right (by decide) h2
  have h5 : 2 ^ 2 ≤ 2 ^ m := Nat.pow_le_pow_right (by decide) h1
  refine ⟨h1, h2, by rw [CodeTable.firstCode_eq], ?_, (bitlen_eq ?_ ?_).symm⟩
  · dsimp only; omega
  · dsimp only; rw [Nat.pow_succ]; omega
  · dsimp only; omega

theorem started_mapOk (m : Nat) {hit added : Bool} {q : Nat} :
    CodeTable.mapOk ⟨m, m + 1, 2 ^ m + 2, [], hit, q, added⟩ := by
  refine ⟨by simp, by simp, by simp⟩

theorem started_tabOk (m : Nat) {hit added : Bool} {q : Nat} :
    CodeTable.tabOk ⟨m, m + 1, 2 ^ m + 2, [], hit, q, added⟩ := by
  refine ⟨?_, by simp, by simp, by simp⟩
  rw [CodeTable.firstCode_eq]; simp

/-- The width and the next code after an addition (R124, R128). -/
theorem CodeTable.ok.added {ct : CodeTable} (h : ct.ok) (hn : ct.next ≠ 4096) (seq : IndexSeq) :
    (ct.grow.insert seq).ok ∧ ct.width ≤ ct.grow.width := by
  obtain ⟨h1, h2, h3, h4, h5⟩ := h
  have hb := CodeTable.ok.width_bounds ⟨h1, h2, h3, h4, h5⟩
  have h6 := h3
  rw [firstCode_eq] at h6
  have hlow : 2 ^ (ct.width - 1) ≤ ct.next - 1 := by
    by_contra hc
    have := bitlen_le_iff.2 (Nat.lt_of_not_le hc)
    rw [← h5] at this; omega
  unfold grow
  rw [Nat.one_shiftLeft]
  split
  · rename_i hg
    refine ⟨⟨h1, h2, ?_, by show ct.next + 1 ≤ 4096; omega, ?_⟩, Nat.le_succ _⟩
    · exact le_trans h3 (Nat.le_succ _)
    · show ct.width + 1 = bitlen (ct.next + 1 - 1)
      refine (bitlen_eq ?_ ?_).symm
      · rw [Nat.add_sub_cancel, hg]; exact Nat.pow_lt_pow_right (by decide) (Nat.lt_succ_self _)
      · rw [Nat.add_sub_cancel, hg]
  · rename_i hg
    refine ⟨⟨h1, h2, ?_, by show ct.next + 1 ≤ 4096; omega, ?_⟩, le_rfl⟩
    · exact le_trans h3 (Nat.le_succ _)
    · show ct.width = bitlen (ct.next + 1 - 1)
      have hw : ct.width - 1 + 1 = ct.width := by omega
      rw [Nat.add_sub_cancel, ← hw]
      refine (bitlen_eq ?_ ?_).symm
      · rw [hw]; omega
      · omega

/-- The table after an addition, written out (R124). -/
theorem grow_insert_eq (ct : CodeTable) (q : IndexSeq) :
    ct.grow.insert q = { ct with
      width := if ct.next = 2 ^ ct.width then ct.width + 1 else ct.width
      tab := ct.tab ++ [(q, ct.next)]
      next := ct.next + 1 } := by
  unfold CodeTable.grow CodeTable.insert
  rw [Nat.one_shiftLeft]
  split <;> rfl

/-- An addition of a sequence that is not stored keeps the dictionary a map. -/
theorem CodeTable.mapOk.added {ct : CodeTable} (h : ct.mapOk) (ho : ct.ok) {q : IndexSeq} (hq : 2 ≤ q.length)
    (hnew : ∀ c, (q, c) ∉ ct.tab) : (ct.grow.insert q).mapOk := by
  rw [grow_insert_eq]
  have hf := ho.2.2.1
  refine ⟨?_, ?_, ?_⟩
  · rw [List.map_append, List.nodup_append]
    refine ⟨h.1, by simp, ?_⟩
    rintro a ha b hb rfl
    obtain rfl := List.mem_singleton.1 hb
    obtain ⟨⟨_, c⟩, he, hea⟩ := List.mem_map.1 ha
    cases hea
    exact hnew c he
  · rw [List.map_append, List.nodup_append]
    refine ⟨h.2.1, by simp, ?_⟩
    rintro a ha b hb rfl
    obtain rfl := List.mem_singleton.1 hb
    obtain ⟨e, he, hea⟩ := List.mem_map.1 ha
    have := (h.2.2 e he).2.2
    simp only at hea; omega
  · intro e he
    show 2 ≤ e.1.length ∧ ct.firstCode ≤ e.2 ∧ e.2 < ct.next + 1
    rcases List.mem_append.1 he with he | he
    · have := h.2.2 e he; omega
    · obtain rfl := List.mem_singleton.1 he
      exact ⟨hq, hf, Nat.lt_succ_self _⟩

/-- The dictionary after the addition of a sequence that is not stored and extends one that has a code (R30). -/
theorem CodeTable.tabOk.added {ct : CodeTable} (h : ct.tabOk) (ho : ct.ok) (hn : ct.next ≠ 4096) {q : IndexSeq} {p : Byte}
    (hq : ct.has q) (hnew : ∀ c, (q ++ [p], c) ∉ ct.tab) : (ct.grow.insert (q ++ [p])).tabOk := by
  obtain ⟨h1, h2, h3, h4⟩ := h
  obtain ⟨hk, hw⟩ := ho.added hn (q ++ [p])
  have hg : ct.grow.tab = ct.tab ∧ ct.grow.next = ct.next ∧ ct.grow.mcs = ct.mcs := by
    unfold grow; split <;> exact ⟨rfl, rfl, rfl⟩
  have hf : (ct.grow.insert (q ++ [p])).firstCode = ct.firstCode := by
    rw [firstCode_eq, firstCode_eq]; show 2 ^ ct.grow.mcs + 2 = _; rw [hg.2.2]
  have htab : (ct.grow.insert (q ++ [p])).tab = ct.tab ++ [(q ++ [p], ct.next)] := by
    show ct.grow.tab ++ [(_, ct.grow.next)] = _; rw [hg.1, hg.2.1]
  have hnext : (ct.grow.insert (q ++ [p])).next = ct.next + 1 := by show ct.grow.next + 1 = _; rw [hg.2.1]
  have hwd : (ct.grow.insert (q ++ [p])).width = ct.grow.width := rfl
  have hlen : q.length = 1 ∨ 2 ≤ q.length := by
    rcases hq with hq | hq
    · exact .inl hq
    · obtain ⟨e, he, rfl⟩ := List.mem_map.1 hq; exact .inr (h4 e he).1
  refine ⟨?_, ?_, ?_, ?_⟩
  · rw [htab, hf, hnext, List.map_append, h1]
    have := ho.2.2.1
    rw [show ct.next + 1 - ct.firstCode = (ct.next - ct.firstCode) + 1 by omega, List.range'_concat]
    simp; omega
  · rw [htab, List.map_append, List.nodup_append]
    refine ⟨h2, by simp, ?_⟩
    rintro a ha b hb rfl
    obtain rfl := List.mem_singleton.1 hb
    obtain ⟨⟨_, c⟩, he, hea⟩ := List.mem_map.1 ha
    cases hea
    exact hnew c he
  · rw [htab, hwd]
    intro e he
    rcases List.mem_append.1 he with he | he
    · have := h3 e he
      rw [Nat.one_shiftLeft] at this ⊢
      exact lt_of_lt_of_le this (Nat.pow_le_pow_right (by decide) hw)
    · obtain rfl := List.mem_singleton.1 he
      have h5 := hk.width_bounds.2.2
      rw [hwd, hnext] at h5
      rw [Nat.one_shiftLeft]; exact h5
  · rw [htab]
    intro e he
    have hsub : ∀ r, ct.has r → (ct.grow.insert (q ++ [p])).has r := by
      rintro r (hr | hr)
      · exact .inl hr
      · exact .inr (by rw [htab, List.map_append]; exact List.mem_append_left _ hr)
    rcases List.mem_append.1 he with he | he
    · exact ⟨(h4 e he).1, hsub _ (h4 e he).2⟩
    · obtain rfl := List.mem_singleton.1 he
      refine ⟨by simp; omega, ?_⟩
      rw [List.dropLast_concat]
      exact hsub q hq

/-! ### The operations -/

theorem ctReset_eq (s : State) :
    ctReset s = { s with ct := { s.ct with tab := [], width := s.ct.mcs + 1, next := 2 ^ s.ct.mcs + 2 } } := by
  unfold ctReset State.setCt; rw [s.ct.firstCode_eq]

/-- A lookup that finds a code (R121). -/
theorem ctTryGet_hit {s : State} {q : IndexSeq} {c : Nat} (h : codeOf s.ct q = some c) :
    ctTryGet q s = { s with ct := { s.ct with hit := true, codeQ := c } } := by
  unfold ctTryGet ctFind; rw [h]; rfl

/-- A lookup that misses (R121): `CT.code_q` takes a free value. -/
theorem ctTryGet_miss {s : State} {q : IndexSeq} (h : codeOf s.ct q = none) :
    ctTryGet q s = { s with
      ct := { s.ct with hit := false, codeQ := (Config.freeBits 12 s.free).toNat }, free := s.free + 1 } := by
  unfold ctTryGet ctFind; rw [h]; rfl

theorem ctTryAdd_full {s : State} (q : IndexSeq) (h : s.ct.next = 4096) :
    ctTryAdd q s = { s with ct := { s.ct with added := false } } := by
  unfold ctTryAdd; rw [if_pos h]; rfl

theorem ctTryAdd_room {s : State} (q : IndexSeq) (h : s.ct.next ≠ 4096) :
    ctTryAdd q s = s.setCt ((s.ct.grow.insert q).setAdded true) := by
  unfold ctTryAdd; rw [if_neg h]

end Sys2Proof.Machine
end

