-- ==== Sys2Proof/Laws/Ops.lean ====
section
/-! SUPPORT. Taking a fault and the shape of every meaning: the fault state ignores a command, and a command that may fail at the
sink either completes or ends in `SINK_IO`. -/

namespace Sys2Proof.Machine

theorem unlessFaulted_running {s : State} (h : s.running) (a : Answer) : unlessFaulted s a = a := if_pos h

theorem unlessFaulted_faulted {s : State} (h : ¬ s.running) (a : Answer) : unlessFaulted s a = .next s := if_neg h

/-- The fault state ignores every instruction (R210). -/
theorem exec_faulted {s : State} (h : ¬ s.running) (i : Instr) : exec i s = .next s := by
  cases i <;> exact unlessFaulted_faulted h _

/-- What `finish` can answer, when the operation changed `BW.*`, the record and the oracle and then `f` the rest. -/
theorem finish_cases {cmd : Word} {r : Except State State} {t : State} (h : finish cmd r = .next t) :
    r = .ok t ∨ ∃ u, r = .error u ∧ t = u.scramble.raise .sinkIo cmd := by
  cases r with
  | ok u => cases h; exact .inl rfl
  | error u => cases h; exact .inr ⟨u, rfl, rfl⟩

theorem finish_next (cmd : Word) (r : Except State State) : ∃ t, finish cmd r = .next t := by
  cases r with
  | ok u => exact ⟨u, rfl⟩
  | error u => exact ⟨_, rfl⟩

theorem inStep_ready {s : State} {st : DeStep} (h : s.running) (hr : s.de.ready = true) (hs : s.de.step = st) (cmd : Word)
    (a : Answer) : inStep st cmd s a = a := by
  rw [inStep, unlessFaulted_running h, if_pos ⟨hr, hs⟩]

theorem inStep_illegal {s : State} {st : DeStep} (h : s.running) (hr : s.de.ready = false ∨ s.de.step ≠ st) (cmd : Word)
    (a : Answer) : inStep st cmd s a = .next (s.raise .badState cmd) := by
  rw [inStep, unlessFaulted_running h, if_neg]
  rintro ⟨h1, h2⟩
  rcases hr with hr | hr
  · rw [hr] at h1; cases h1
  · exact hr h2

/-- What a delta engine command can answer while no fault is taken. -/
theorem inStep_cases {s t u : State} {st : DeStep} {cmd : Word} (h : s.running) (ht : inStep st cmd s (.next u) = .next t) :
    (s.de.ready = true ∧ s.de.step = st ∧ t = u) ∨
      ((s.de.ready = false ∨ s.de.step ≠ st) ∧ t = s.raise .badState cmd) := by
  by_cases hc : s.de.ready = true ∧ s.de.step = st
  · rw [inStep_ready h hc.1 hc.2] at ht; cases ht; exact .inl ⟨hc.1, hc.2, rfl⟩
  · have hr : s.de.ready = false ∨ s.de.step ≠ st := by
      by_cases h1 : s.de.ready = true
      · exact .inr fun h2 => hc ⟨h1, h2⟩
      · exact .inl (by simpa using h1)
    rw [inStep_illegal h hr] at ht; cases ht; exact .inr ⟨hr, rfl⟩

end Sys2Proof.Machine
end

