-- ==== Sys2Proof/Laws/LzwEncoder.lean ====
section
/-! SUPPORT. The LZW Encoder: what its operations leave unchanged, and what each of them does when no burst fails. -/

namespace Sys2Proof.Machine

/-! ### What an encoder operation can change -/

/-- Only the encoder's state, the record, the oracle and the free-value counter differ. -/
def EncFrame (s t : State) : Prop :=
  t = { s with bw := t.bw, ct := t.ct, lzw := t.lzw, out := t.out, sinkFail := t.sinkFail, free := t.free }

theorem EncFrame.trans {s t u : State} (h : EncFrame s t) (k : EncFrame t u) : EncFrame s u := by
  unfold EncFrame at *; rw [k, h]

theorem BwFrame.enc {s t : State} (h : BwFrame s t) : EncFrame s t := by
  unfold BwFrame at h; unfold EncFrame; rw [h]

section
variable {s t : State} (h : EncFrame s t)
include h
theorem EncFrame.flt : t.flt = s.flt := by rw [h]
theorem EncFrame.de : t.de = s.de := by rw [h]
theorem EncFrame.cfg : t.cfg = s.cfg := by rw [h]
theorem EncFrame.frames : t.frames = s.frames := by rw [h]
theorem EncFrame.events : t.events = s.events := by rw [h]
end

/-- The operation completed, and every burst it made was accepted. -/
structure Ran (s t : State) : Prop where
  frame : EncFrame s t
  grows : s.out <+: t.out
  answers : ∃ pre, s.sinkFail = pre ++ t.sinkFail ∧ ∀ a ∈ pre, a = SinkAnswer.accepted

/-- The operation ended at the first burst that failed. -/
structure Broke (s t : State) : Prop where
  frame : EncFrame s t
  grows : s.out <+: t.out
  answers : ∃ pre k, s.sinkFail = pre ++ SinkAnswer.failed k :: t.sinkFail ∧ ∀ a ∈ pre, a = SinkAnswer.accepted

/-- What an encoder operation can answer. -/
def Runs (s : State) : Except State State → Prop
  | .ok t => Ran s t
  | .error t => Broke s t

theorem Sunk.ran {s t : State} (h : Sunk s t) : Ran s t := ⟨h.frame.enc, h.grows, h.answers⟩
theorem FailedAt.broke {s t : State} (h : FailedAt s t) : Broke s t := ⟨h.frame.enc, h.grows, h.answers⟩

theorem Sinks.runs {s : State} {r : Except State State} (h : Sinks s r) : Runs s r := by
  cases r with
  | ok t => exact Sunk.ran h
  | error t => exact FailedAt.broke h

theorem Ran.trans {s t u : State} (h : Ran s t) (k : Ran t u) : Ran s u := by
  obtain ⟨p, hp, ha⟩ := h.answers
  obtain ⟨q, hq, hb⟩ := k.answers
  refine ⟨h.frame.trans k.frame, h.grows.trans k.grows, p ++ q, by rw [hp, hq, List.append_assoc], ?_⟩
  intro a h; rcases List.mem_append.1 h with h | h
  exacts [ha a h, hb a h]

theorem Ran.broke {s t u : State} (h : Ran s t) (k : Broke t u) : Broke s u := by
  obtain ⟨p, hp, ha⟩ := h.answers
  obtain ⟨q, j, hq, hb⟩ := k.answers
  refine ⟨h.frame.trans k.frame, h.grows.trans k.grows, p ++ q, j, by rw [hp, hq, List.append_assoc], ?_⟩
  intro a h; rcases List.mem_append.1 h with h | h
  exacts [ha a h, hb a h]

/-- A change of the encoder's own registers. -/
theorem ran_of_eq {s t : State} (h : EncFrame s t) (h1 : t.out = s.out) (h2 : t.sinkFail = s.sinkFail) : Ran s t :=
  ⟨h, by rw [h1], [], by rw [h2]; rfl, by simp⟩

theorem Ran.refl (s : State) : Ran s s := ran_of_eq rfl rfl rfl

theorem Ran.runs {s t : State} (h : Ran s t) {r : Except State State} (k : Runs t r) : Runs s r := by
  cases r with
  | ok u => exact h.trans k
  | error u => exact h.broke k

theorem Runs.bind {s : State} {r : Except State State} {f : State → Except State State} (h : Runs s r)
    (k : ∀ t, r = .ok t → Runs t (f t)) : Runs s (r.bind f) := by
  cases r with
  | ok t => exact Ran.runs h (k t rfl)
  | error t => exact h

theorem Runs.map {s : State} {r : Except State State} {f : State → State} (h : Runs s r) (k : ∀ t, Ran t (f t)) :
    Runs s (r.map f) := by
  cases r with
  | ok t => exact Ran.trans h (k t)
  | error t => exact h

theorem Runs.ok_of_accepts {s : State} {r : Except State State} (h : Runs s r) (ha : s.sinkAccepts) : ∃ t, r = .ok t := by
  cases r with
  | ok t => exact ⟨t, rfl⟩
  | error t =>
    obtain ⟨p, k, hp, -⟩ := Broke.answers h
    have := ha (.failed k) (by rw [hp]; simp)
    cases this

theorem Ran.accepts {s t : State} (h : Ran s t) (ha : s.sinkAccepts) : t.sinkAccepts := by
  obtain ⟨p, hp, -⟩ := h.answers
  intro a hm; exact ha a (by rw [hp]; simp [hm])

theorem ran_ctTryGet (q : IndexSeq) (s : State) : Ran s (ctTryGet q s) := by
  unfold ctTryGet; split <;> exact ran_of_eq rfl rfl rfl

theorem ran_ctTryAdd (q : IndexSeq) (s : State) : Ran s (ctTryAdd q s) := by
  unfold ctTryAdd; split <;> exact ran_of_eq rfl rfl rfl

theorem ran_ctReset (s : State) : Ran s (ctReset s) := ran_of_eq rfl rfl rfl

theorem runs_beginFrame (par : Config.Params) (n : Nat) (s : State) : Runs s (beginFrame par n s) := by
  have h : Ran s ((s.setCt { s.ct with mcs := minCodeSize n }).setBw .empty) := ran_of_eq rfl rfl rfl
  refine h.runs (Runs.bind ?_ fun t _ => Runs.map (sinks_writeCode _ _ t).runs fun u => ran_of_eq rfl rfl rfl)
  unfold writeMcs; split
  · exact (sinks_sinkWrite _ _).runs
  · exact Ran.refl _

theorem runs_newMatch (c : Nat) (q : IndexSeq) (p : Byte) (s : State) : Runs s (newMatch c q p s) := by
  refine Runs.bind (sinks_writeCode _ _ s).runs fun t _ => ?_
  have h0 : Ran t (t.setLzw { t.lzw with cur := [p] }) := ran_of_eq rfl rfl rfl
  have h := h0.trans (ran_ctTryAdd q _)
  dsimp only
  split
  · exact h
  · exact h.runs ((sinks_writeCode _ _ _).runs.map ran_ctReset)

theorem runs_endFrame (par : Config.Params) (c : Nat) (s : State) : Runs s (endFrame par c s) :=
  Runs.bind (sinks_writeCode _ _ s).runs fun t _ => Runs.bind (sinks_writeCode _ _ t).runs fun u _ =>
    (sinks_flush u).runs.map fun _ => ran_of_eq rfl rfl rfl

/-! ### What the operations do when no burst fails -/

/-- `LZW.BEGIN`'s ClearCode into a fresh Bit Writer, for each minimum code size (R142). -/
theorem writeCode_fresh {m : Nat} {s : State} (h2 : 2 ≤ m) (h8 : m ≤ 8) (hb : s.bw = .empty) :
    ∃ b : BitWriter, writeCode (2 ^ m) (m + 1) s = .ok (s.setBw b) ∧ b.ok ∧
      (m ≤ 6 → b = ⟨BitVec.ofNat 32 (2 ^ m), m + 1, [], 0⟩) ∧ (m = 7 → b = ⟨0, 0, [0x80], 1⟩) ∧
      (m = 8 → b = ⟨1, 1, [0x00], 1⟩) := by
  obtain ⟨bw, ct, lzw, flt, de, out, cfg, frames, sf, ev, fr⟩ := s
  cases hb
  rcases (show m = 2 ∨ m = 3 ∨ m = 4 ∨ m = 5 ∨ m = 6 ∨ m = 7 ∨ m = 8 by omega) with
    rfl | rfl | rfl | rfl | rfl | rfl | rfl
  · exact ⟨⟨4, 3, [], 0⟩, by simp [writeCode, drain, State.setBw], by unfold BitWriter.ok; decide, fun _ => rfl, by omega, by omega⟩
  · exact ⟨⟨8, 4, [], 0⟩, by simp [writeCode, drain, State.setBw], by unfold BitWriter.ok; decide, fun _ => rfl, by omega, by omega⟩
  · exact ⟨⟨16, 5, [], 0⟩, by simp [writeCode, drain, State.setBw], by unfold BitWriter.ok; decide, fun _ => rfl, by omega, by omega⟩
  · exact ⟨⟨32, 6, [], 0⟩, by simp [writeCode, drain, State.setBw], by unfold BitWriter.ok; decide, fun _ => rfl, by omega, by omega⟩
  · exact ⟨⟨64, 7, [], 0⟩, by simp [writeCode, drain, State.setBw], by unfold BitWriter.ok; decide, fun _ => rfl, by omega, by omega⟩
  · exact ⟨⟨0, 0, [0x80], 1⟩, by simp [writeCode, drain, pushByte, State.setBw, Except.bind], by unfold BitWriter.ok; decide, by omega, fun _ => rfl, by omega⟩
  · exact ⟨⟨1, 1, [0], 1⟩, by simp [writeCode, drain, pushByte, State.setBw, Except.bind], by unfold BitWriter.ok; decide, by omega, by omega, fun _ => rfl⟩

/-- `LZW.BEGIN` after its checks (R142). -/
theorem beginFrame_ok {n : Nat} {s t : State} (h1 : 1 ≤ n) (h2 : n ≤ 256)
    (h : beginFrame Config.params n s = .ok t) :
    (t = { s with
      bw := t.bw
      ct := { s.ct with mcs := minCodeSize n, width := minCodeSize n + 1, next := 2 ^ minCodeSize n + 2, tab := [] }
      lzw := ⟨.first, t.lzw.cur⟩
      out := s.out ++ [BitVec.ofNat 8 (minCodeSize n)]
      sinkFail := s.sinkFail.tail
      free := t.free }) ∧ t.bw.ok ∧
      (minCodeSize n ≤ 6 → t.bw = ⟨BitVec.ofNat 32 (2 ^ minCodeSize n), minCodeSize n + 1, [], 0⟩) ∧
      (minCodeSize n = 7 → t.bw = ⟨0, 0, [0x80], 1⟩) ∧ (minCodeSize n = 8 → t.bw = ⟨1, 1, [0x00], 1⟩) := by
  unfold beginFrame at h
  dsimp only at h
  cases hw : writeMcs Config.params ((s.setCt { s.ct with mcs := minCodeSize n }).setBw .empty) with
  | error u => rw [hw] at h; cases h
  | ok u =>
    rw [hw] at h
    unfold writeMcs at hw
    rw [if_pos (show Config.params.emitMcs = true from rfl)] at hw
    have hu := sinkWrite_ok hw
    obtain ⟨b, hb, hok, k1, k2, k3⟩ := writeCode_fresh (s := u) (two_le_minCodeSize n) (minCodeSize_le h1 h2)
      (by rw [hu]; rfl)
    have hm : u.ct.mcs = minCodeSize n := by rw [hu]; rfl
    change (writeCode u.ct.clearCode (u.ct.mcs + 1) u).map _ = _ at h
    rw [CodeTable.clearCode_eq, hm, hb] at h
    cases h
    refine ⟨?_, hok, k1, k2, k3⟩
    show ((ctReset (u.setBw b)).setLzw ⟨.first, Config.freeMatch (ctReset (u.setBw b)).free⟩).useFree 1 = _
    rw [ctReset_eq, hu]
    rfl

/-- A miss in `LZW.PIXEL` (R144) with room in the table. -/
theorem newMatch_room {c : Nat} {q : IndexSeq} {p : Byte} {s t : State} (hb : s.bw.ok) (hc : s.ct.ok)
    (hn : s.ct.next ≠ 4096) (h : newMatch c q p s = .ok t) :
    t.bw.ok ∧ s.appends t (bitsOf c s.ct.width) ∧
    t = { s with
      bw := t.bw, out := t.out, sinkFail := t.sinkFail
      lzw := { s.lzw with cur := [p] }
      ct := (s.ct.grow.insert q).setAdded true } := by
  unfold newMatch at h
  cases hw : emit c s with
  | error u => rw [hw] at h; cases h
  | ok u =>
    rw [hw] at h
    have hu : Sunk s u := by have := sinks_writeCode c s.ct.width s; rw [emit] at hw; rw [hw] at this; exact this
    obtain ⟨k1, k2⟩ := writeCode_ok hb (by have := hc.width_bounds; omega) hw
    have hct : u.ct = s.ct := hu.frame.ct
    change (if (ctTryAdd q (u.setLzw { u.lzw with cur := [p] })).ct.added then _ else _) = _ at h
    have hr := ctTryAdd_room (s := u.setLzw { u.lzw with cur := [p] }) q (by rw [State.setLzw_ct, hct]; exact hn)
    rw [if_pos (by rw [hr]; rfl), hr] at h
    cases h
    refine ⟨k1, k2, ?_⟩
    have hf := hu.frame
    unfold BwFrame at hf
    rw [hf]; rfl

/-- A miss in `LZW.PIXEL` on a full table (R144). -/
theorem newMatch_full {c : Nat} {q : IndexSeq} {p : Byte} {s t : State} (hb : s.bw.ok) (hc : s.ct.ok)
    (hn : s.ct.next = 4096) (h : newMatch c q p s = .ok t) :
    t.bw.ok ∧ s.appends t (bitsOf c 12 ++ bitsOf (2 ^ s.ct.mcs) 12) ∧
    t = { s with
      bw := t.bw, out := t.out, sinkFail := t.sinkFail
      lzw := { s.lzw with cur := [p] }
      ct := { s.ct with added := false, width := s.ct.mcs + 1, tab := [], next := 2 ^ s.ct.mcs + 2 } } := by
  have h12 := hc.width_full hn
  unfold newMatch at h
  cases hw : emit c s with
  | error u => rw [hw] at h; cases h
  | ok u =>
    rw [hw] at h
    have hu : Sunk s u := by have := sinks_writeCode c s.ct.width s; rw [emit] at hw; rw [hw] at this; exact this
    obtain ⟨k1, k2⟩ := writeCode_ok hb (by omega) hw
    have hct : u.ct = s.ct := hu.frame.ct
    change (if (ctTryAdd q (u.setLzw { u.lzw with cur := [p] })).ct.added then _ else
      (emit (ctTryAdd q (u.setLzw { u.lzw with cur := [p] })).ct.clearCode _).map ctReset) = _ at h
    have hr := ctTryAdd_full (s := u.setLzw { u.lzw with cur := [p] }) q (by rw [State.setLzw_ct, hct]; exact hn)
    rw [if_neg (by rw [hr]; exact Bool.false_ne_true)] at h
    generalize hv : ctTryAdd q (u.setLzw { u.lzw with cur := [p] }) = v at h
    rw [hr] at hv
    cases hx : emit v.ct.clearCode v with
    | error x => rw [hx] at h; cases h
    | ok x =>
      rw [hx] at h
      cases h
      have hvc : v.ct = { s.ct with added := false } := by rw [← hv, ← hct]; rfl
      have hx' : Sunk v x := by
        have := sinks_writeCode v.ct.clearCode v.ct.width v; rw [emit] at hx; rw [hx] at this; exact this
      have hvw : v.ct.width = 12 := by rw [hvc]; exact h12
      obtain ⟨j1, j2⟩ := writeCode_ok (s := v) (by rw [← hv]; exact k1) (by omega) hx
      rw [hvw, show v.ct.clearCode = 2 ^ s.ct.mcs by rw [CodeTable.clearCode_eq, hvc]] at j2
      rw [h12] at k2
      refine ⟨j1, ?_, ?_⟩
      · refine State.appends.trans (t := v) ?_ j2
        rw [← hv]; exact k2
      · have hf := hx'.frame
        have hg := hu.frame
        unfold BwFrame at hf hg
        rw [ctReset_eq, hf, ← hv, hg]
        rfl

/-- `LZW.END` after its checks (R147). -/
theorem endFrame_ok {c : Nat} {s t : State} (hb : s.bw.ok) (hc : s.ct.ok) (h : endFrame Config.params c s = .ok t) :
    t = { s with bw := .empty, out := t.out, sinkFail := t.sinkFail, lzw := { s.lzw with st := .done } } ∧
    ∃ u : State, u.bw.ok ∧ s.appends u (bitsOf c s.ct.width ++ bitsOf (2 ^ s.ct.mcs + 1) s.ct.width) ∧
      t.out = u.out ++ shortBlock u.bw.lastData ++ [0] := by
  have hwb := hc.width_bounds
  unfold endFrame at h
  cases hw : emit c s with
  | error u => rw [hw] at h; cases h
  | ok u =>
    rw [hw] at h
    have hu : Sunk s u := by have := sinks_writeCode c s.ct.width s; rw [emit] at hw; rw [hw] at this; exact this
    obtain ⟨k1, k2⟩ := writeCode_ok hb (by omega) hw
    have hct : u.ct = s.ct := hu.frame.ct
    change (writeCode u.ct.eoi (eoiWidth Config.params u.ct) u).bind _ = _ at h
    rw [show eoiWidth Config.params u.ct = u.ct.width from if_neg (by rintro ⟨h, -⟩; cases h), CodeTable.eoi_eq, hct] at h
    cases hx : writeCode (2 ^ s.ct.mcs + 1) s.ct.width u with
    | error x => rw [hx] at h; cases h
    | ok x =>
      rw [hx] at h
      change (flush x).map _ = _ at h
      have hx' : Sunk u x := by have := sinks_writeCode (2 ^ s.ct.mcs + 1) s.ct.width u; rw [hx] at this; exact this
      obtain ⟨j1, j2⟩ := writeCode_ok k1 (by omega) hx
      cases hy : flush x with
      | error y => rw [hy] at h; cases h
      | ok y =>
        rw [hy] at h
        cases h
        obtain ⟨i1, i2⟩ := flush_ok j1 hy
        have hy' : Sunk x y := by have := sinks_flush x; rw [hy] at this; exact this
        refine ⟨?_, x, j1, k2.trans j2, i2⟩
        have hf : BwFrame s y := (hu.frame.trans hx'.frame).trans hy'.frame
        unfold BwFrame at hf
        rw [i1] at hf
        rw [hf]; rfl

end Sys2Proof.Machine
end

