-- ==== Sys2Proof/Laws/Bursts.lean ====
section
/-! SUPPORT. The bursts an operation of the encoder makes, said once for every answer of the oracle: if all are accepted it
completes, and if one fails it ends there, with the bursts before it and the bytes of it that land in the sink (R52). -/

namespace Sys2Proof.Machine

/-- `s` with another record and other coming answers. -/
def State.onSink (s : State) (o : List Byte) (x : List SinkAnswer) : State := { s with out := o, sinkFail := x }

/-- From `s`, whatever the record and the answers, `f` makes the bursts `bs` and leads to `t`. -/
structure Makes (s : State) (f : State → Except State State) (bs : List (List Byte)) (t : State) : Prop where
  ok : ∀ o x, f (s.onSink o (List.replicate bs.length .accepted ++ x)) = .ok (t.onSink (o ++ bs.flatten) x)
  error : ∀ o before burst after k x, bs = before ++ burst :: after →
    ∃ u, f (s.onSink o (List.replicate before.length .accepted ++ .failed k :: x)) = .error u ∧
      u.out = o ++ before.flatten ++ burst.take (landed k burst.length) ∧ u.sinkFail = x

/-- An operation without a burst. -/
theorem makes_pure {s t : State} {f : State → Except State State}
    (h : ∀ o x, f (s.onSink o x) = .ok (t.onSink o x)) : Makes s f [] t :=
  ⟨fun o x => by simpa using h o x, fun o p q a k x h => absurd h (by simp)⟩

theorem makes_sinkWrite (s : State) (bytes : List Byte) : Makes s (sinkWrite bytes) [bytes] s := by
  refine ⟨fun o x => by simp [sinkWrite, State.onSink], fun o before burst after k x h => ?_⟩
  rcases before with _ | ⟨p, before⟩
  · cases h
    exact ⟨_, rfl, by simp [State.onSink], rfl⟩
  · simp at h

/-- One operation after another. -/
theorem Makes.bind {s t u : State} {f g : State → Except State State} {bs cs : List (List Byte)}
    (h : Makes s f bs t) (k : Makes t g cs u) : Makes s (fun s => (f s).bind g) (bs ++ cs) u := by
  refine ⟨fun o x => ?_, fun o before burst after n x hb => ?_⟩
  · rw [List.length_append, List.replicate_add, List.append_assoc, h.ok]
    show g _ = _
    rw [k.ok, List.flatten_append, List.append_assoc]
  · rcases List.append_eq_append_iff.1 hb with ⟨q, hq1, hq2⟩ | ⟨q, hq1, hq2⟩
    · obtain ⟨v, h1, h2, h3⟩ := k.error (o ++ bs.flatten) q burst after n x hq2
      refine ⟨v, ?_, by rw [h2, hq1]; simp, h3⟩
      rw [hq1, List.length_append, List.replicate_add, List.append_assoc, h.ok]
      exact h1
    · rcases q with _ | ⟨r, q⟩
      · rw [List.nil_append] at hq2
        rw [List.append_nil] at hq1
        obtain ⟨v, h1, h2, h3⟩ := k.error (o ++ bs.flatten) [] burst after n x hq2.symm
        refine ⟨v, ?_, by rw [h2, hq1]; simp, h3⟩
        rw [← hq1, h.ok]
        exact h1
      · rw [List.cons_append] at hq2
        injection hq2 with hr ha
        subst hr
        obtain ⟨v, h1, h2, h3⟩ := h.error o before burst q n x hq1
        exact ⟨v, by rw [h1]; rfl, h2, h3⟩

/-- A change of other state after an operation. -/
theorem Makes.map {s t u : State} {f : State → Except State State} {bs : List (List Byte)} (h : Makes s f bs t)
    {g : State → State} (hg : ∀ o x, g (t.onSink o x) = u.onSink o x) : Makes s (fun s => (f s).map g) bs u := by
  refine ⟨fun o x => by rw [h.ok]; exact congrArg _ (hg _ _), fun o before burst after k x hb => ?_⟩
  obtain ⟨v, h1, h2, h3⟩ := h.error o before burst after k x hb
  exact ⟨v, by rw [h1]; rfl, h2, h3⟩

/-- A change of other state before an operation. -/
theorem Makes.before {s t u : State} {f : State → Except State State} {bs : List (List Byte)}
    (h : Makes t f bs u) {g : State → State} (hg : ∀ o x, g (s.onSink o x) = t.onSink o x) :
    Makes s (fun s => f (g s)) bs u :=
  ⟨fun o x => by rw [hg]; exact h.ok o x, fun o before burst after k x hb => by rw [hg]; exact h.error o before burst after k x hb⟩

/-- An instruction that makes these bursts breaks in any of them. -/
theorem Makes.breaks {s s' t : State} {f : State → Except State State} {bs : List (List Byte)} {i : Instr} (h : Makes s' f bs t)
    (hx : exec i s = finish (encode i) (f s')) (ho : s'.out = s.out) (ha : s'.sinkFail = s.sinkFail) : s.breaksIn i bs := by
  intro before burst after k rest hb hk hs
  obtain ⟨u, h1, h2, h3⟩ := h.error s.out before burst after k rest hb
  rw [← hs, ← ho, ← ha] at h1
  change f s' = _ at h1
  refine ⟨u.scramble.raise .sinkIo (encode i), by rw [hx, h1]; rfl, rfl, h3, ?_⟩
  rw [State.raise_out, State.scramble_out, h2, landed, Nat.min_eq_left (by omega)]

/-- The same operation under another name. -/
theorem Makes.congr {s : State} {f g : State → Except State State} {bs : List (List Byte)} {t : State} (h : Makes s f bs t)
    (hg : ∀ o x, g (s.onSink o x) = f (s.onSink o x)) : Makes s g bs t :=
  ⟨fun o x => by rw [hg, h.ok], fun o before burst after k x hb => by rw [hg]; exact h.error o before burst after k x hb⟩

/-! ### The Bit Writer's operations -/

theorem makes_emitBlock {s : State} (hl : s.bw.stg.length = s.bw.scnt) :
    Makes s emitBlock [BitVec.ofNat 8 s.bw.scnt :: s.bw.stg] (s.setBw { s.bw with stg := [], scnt := 0 }) := by
  have h := (makes_sinkWrite s (BitVec.ofNat 8 s.bw.scnt :: s.bw.stg.take s.bw.scnt)).map
    (g := fun t => t.setBw { t.bw with stg := [], scnt := 0 }) (u := s.setBw { s.bw with stg := [], scnt := 0 }) fun _ _ => rfl
  rw [List.take_of_length_le hl.le] at h
  refine h.congr fun o x => ?_
  unfold emitBlock
  rw [← List.take_of_length_le hl.le]
  rfl

/-- `PushByte` with room to spare. -/
theorem makes_pushByte_room {s : State} (b : Byte) (hl : s.bw.stg.length = s.bw.scnt) (hs : s.bw.scnt < 254) :
    Makes s (pushByte b) [] (s.setBw { s.bw with stg := s.bw.stg ++ [b], scnt := s.bw.scnt + 1 }) := by
  refine makes_pure fun o x => ?_
  have h1 : ¬ (s.bw.scnt + 1 = 255) := by omega
  unfold pushByte
  dsimp only
  rw [if_neg (by exact h1)]
  show Except.ok (State.setBw _ { s.bw with stg := s.bw.stg.take s.bw.scnt ++ [b], scnt := s.bw.scnt + 1 }) = _
  rw [List.take_of_length_le hl.le]
  rfl

/-- `PushByte` of the 255th byte. -/
theorem makes_pushByte_full {s : State} (b : Byte) (hl : s.bw.stg.length = s.bw.scnt) (hs : s.bw.scnt = 254) :
    Makes s (pushByte b) [fullBlock (s.bw.stg ++ [b])] (s.setBw { s.bw with stg := [], scnt := 0 }) := by
  have h := makes_emitBlock (s := s.setBw { s.bw with stg := s.bw.stg ++ [b], scnt := s.bw.scnt + 1 }) (by simp [hl])
  have h2 : (BitVec.ofNat 8 (s.bw.scnt + 1) :: (s.bw.stg ++ [b])) = fullBlock (s.bw.stg ++ [b]) := by rw [hs]; rfl
  simp only [State.setBw_bw, h2] at h
  refine (Makes.before h (s := s) (g := fun t => t.setBw { t.bw with stg := t.bw.stg.take t.bw.scnt ++ [b], scnt := t.bw.scnt + 1 })
    fun o x => ?_).congr fun o x => ?_
  · show State.setBw _ { s.bw with stg := s.bw.stg.take s.bw.scnt ++ [b], scnt := s.bw.scnt + 1 } = _
    rw [List.take_of_length_le hl.le]
    rfl
  · have h1 : s.bw.scnt + 1 = 255 := by omega
    unfold pushByte
    dsimp only
    exact if_pos h1

/-- The loop of R100: its bursts are full sub-blocks, and no bit is lost. -/
theorem makes_drain {n : Nat} {s : State} (hs : s.bw.scnt ≤ 254) (hl : s.bw.stg.length = s.bw.scnt)
    (hn : s.bw.nbits ≤ n) (ha : s.bw.acc.toNat < 1 <<< s.bw.nbits) :
    ∃ (blocks : List (List Byte)) (b : BitWriter), Makes s (drain n) (blocks.map fullBlock) (s.setBw b) ∧ b.ok ∧
      (∀ d ∈ blocks, d.length = 255) ∧ bitsOfBytes blocks.flatten ++ b.pending = s.bw.pending := by
  induction n generalizing s with
  | zero => exact ⟨[], s.bw, makes_pure fun o x => rfl, ⟨by omega, ha, hs, hl⟩, by simp, by simp⟩
  | succ n ih =>
    by_cases hc : 8 ≤ s.bw.nbits
    · have hbits : bitsOf s.bw.acc.toNat s.bw.nbits =
          bitsOf (s.bw.acc.setWidth 8).toNat 8 ++ bitsOf (s.bw.acc >>> 8).toNat (s.bw.nbits - 8) := by
        have hsplit := bitsOf_add s.bw.acc.toNat 8 (s.bw.nbits - 8)
        rw [show 8 + (s.bw.nbits - 8) = s.bw.nbits by omega] at hsplit
        rw [hsplit]
        congr 1
        · rw [← bitsOf_mod s.bw.acc.toNat 8]; simp [BitVec.toNat_setWidth]
      have hacc : (s.bw.acc >>> 8).toNat < 1 <<< (s.bw.nbits - 8) := by
        rw [Nat.one_shiftLeft] at ha ⊢
        rw [BitVec.toNat_ushiftRight, Nat.shiftRight_eq_div_pow, Nat.div_lt_iff_lt_mul (by decide), ← Nat.pow_add]
        rwa [show s.bw.nbits - 8 + 8 = s.bw.nbits by omega]
      have hgo : ∀ {p : List (List Byte)} {c : BitWriter}, Makes s (pushByte (s.bw.acc.setWidth 8)) (p.map fullBlock) (s.setBw c) →
          c.acc = s.bw.acc → c.nbits = s.bw.nbits → c.scnt ≤ 254 → c.stg.length = c.scnt → (∀ d ∈ p, d.length = 255) →
          bitsOfBytes p.flatten ++ bitsOfBytes c.stg = bitsOfBytes (s.bw.stg ++ [s.bw.acc.setWidth 8]) →
          ∃ (blocks : List (List Byte)) (b : BitWriter), Makes s (drain (n + 1)) (blocks.map fullBlock) (s.setBw b) ∧ b.ok ∧
            (∀ d ∈ blocks, d.length = 255) ∧ bitsOfBytes blocks.flatten ++ b.pending = s.bw.pending := by
        intro p c hp c1 c2 c3 c4 c5 c6
        obtain ⟨q, b, k1, k2, k3, k4⟩ := ih (s := s.setBw { c with acc := s.bw.acc >>> 8, nbits := s.bw.nbits - 8 }) c3 c4
          (by simp only [State.setBw_bw]; omega) hacc
        refine ⟨p ++ q, b, ?_, k2, ?_, ?_⟩
        · rw [List.map_append]
          have hk := Makes.before (s := s.setBw c) (g := fun t => t.setBw { t.bw with acc := t.bw.acc >>> 8, nbits := t.bw.nbits - 8 })
            k1 fun o x => by
              show State.setBw _ { c with acc := c.acc >>> 8, nbits := c.nbits - 8 } = _
              rw [c1, c2]
              rfl
          refine (hp.bind hk).congr fun o x => ?_
          show (if 8 ≤ s.bw.nbits then _ else _) = _
          rw [if_pos hc]
          rfl
        · intro d hd; rcases List.mem_append.1 hd with hd | hd
          exacts [c5 d hd, k3 d hd]
        · rw [List.flatten_append, bitsOfBytes_append, List.append_assoc, k4]
          simp only [BitWriter.pending, State.setBw_bw]
          rw [← List.append_assoc, c6, hbits, bitsOfBytes_append, bitsOfBytes_singleton, List.append_assoc]
      rcases Nat.lt_or_eq_of_le hs with h4 | h4
      · refine hgo (p := []) (makes_pushByte_room _ hl h4) rfl rfl ?_ ?_ (by simp) (by simp)
        · show s.bw.scnt + 1 ≤ 254; omega
        · simp [hl]
      · refine hgo (p := [s.bw.stg ++ [s.bw.acc.setWidth 8]]) (makes_pushByte_full _ hl h4) rfl rfl (Nat.zero_le _) rfl ?_ (by simp)
        intro d hd; obtain rfl := List.mem_singleton.1 hd; simp [hl, h4]
    · refine ⟨[], s.bw, makes_pure fun o x => ?_, ⟨by omega, ha, hs, hl⟩, by simp, by simp⟩
      unfold drain
      exact if_neg hc

/-- `BW.WRITE_CODE` between commands (R100): its bursts are full sub-blocks, and exactly the low `w` bits of the code are appended. -/
theorem makes_writeCode {c w : Nat} {s : State} (hs : s.bw.ok) (hw : w ≤ 25) :
    ∃ (blocks : List (List Byte)) (b : BitWriter), Makes s (writeCode c w) (blocks.map fullBlock) (s.setBw b) ∧ b.ok ∧
      (∀ d ∈ blocks, d.length = 255) ∧ bitsOfBytes blocks.flatten ++ b.pending = s.bw.pending ++ bitsOf c w := by
  obtain ⟨ha, hb⟩ := acc_appended hs hw c
  obtain ⟨q, b, k1, k2, k3, k4⟩ := makes_drain (n := s.bw.nbits + w) (s := s.setBw { s.bw with
      acc := s.bw.acc ||| (BitVec.ofNat 32 (c % (1 <<< w))) <<< s.bw.nbits, nbits := s.bw.nbits + w })
    hs.2.2.1 hs.2.2.2 le_rfl ha
  refine ⟨q, b, (Makes.before (s := s) (g := fun t => t.setBw { t.bw with
      acc := s.bw.acc ||| (BitVec.ofNat 32 (c % (1 <<< w))) <<< s.bw.nbits, nbits := s.bw.nbits + w }) k1 fun _ _ => rfl).congr
        fun _ _ => rfl, k2, k3, ?_⟩
  rw [k4]
  simp only [BitWriter.pending, State.setBw_bw, hb, List.append_assoc]

/-- The data bytes still to be written by a flush are at most one sub-block. -/
theorem length_lastData {b : BitWriter} (h : b.ok) : b.lastData.length ≤ 255 := by
  obtain ⟨-, -, h3, h4⟩ := h
  unfold BitWriter.lastData
  split <;> simp <;> omega

/-- The bursts of at most one sub-block and the terminator. -/
theorem closingBursts_short {data : List Byte} (h : data.length ≤ 255) :
    closingBursts data = (if data = [] then [] else [shortBlock data]) ++ [[0]] := by
  unfold closingBursts; rw [if_pos h]

theorem makes_flushBlock {s : State} (hl : s.bw.stg.length = s.bw.scnt) :
    Makes s flushBlock (if s.bw.stg = [] then [] else [shortBlock s.bw.stg]) (s.setBw { s.bw with stg := [], scnt := 0 }) := by
  by_cases hc : s.bw.stg = []
  · have h0 : s.bw.scnt = 0 := by rw [← hl, hc]; rfl
    rw [if_pos hc]
    refine makes_pure fun o x => ?_
    unfold flushBlock
    have h1 : ¬ 0 < (s.onSink o x).bw.scnt := by show ¬ 0 < s.bw.scnt; omega
    rw [if_neg h1, show ({ s.bw with stg := [], scnt := 0 } : BitWriter) = s.bw by rw [← hc, ← h0]]
    rfl
  · have h0 : 0 < s.bw.scnt := by rw [← hl]; exact List.length_pos_iff.2 hc
    rw [if_neg hc, shortBlock, if_neg hc, hl]
    refine (makes_emitBlock hl).congr fun o x => ?_
    unfold flushBlock
    exact if_pos h0

/-- `BW.FLUSH` between commands (R104): the data bytes left as at most one sub-block, and the terminator. -/
theorem makes_flush {s : State} (hs : s.bw.ok) : Makes s flush (closingBursts s.bw.lastData) (s.setBw .empty) := by
  obtain ⟨h1, h2, h3, h4⟩ := hs
  have hlen := length_lastData ⟨h1, h2, h3, h4⟩
  have hend : ∀ {u : State}, u.bw.stg.length = u.bw.scnt → u.bw.acc = 0 → u.bw.nbits = 0 →
      Makes u (fun t => (flushBlock t).bind fun t => sinkWrite [Config.terminator] t)
        ((if u.bw.stg = [] then [] else [shortBlock u.bw.stg]) ++ [[0]]) (u.setBw .empty) := by
    intro u k1 k2 k3
    have h := (makes_flushBlock k1).bind (makes_sinkWrite (u.setBw { u.bw with stg := [], scnt := 0 }) [Config.terminator])
    rw [show ({ u.bw with stg := [], scnt := 0 } : BitWriter) = .empty by simp [k2, k3, BitWriter.empty]] at h
    exact h
  have hall : ∀ {bs : List (List Byte)} {b : BitWriter}, Makes s flushBits bs (s.setBw b) → b.stg.length = b.scnt → b.acc = 0 → b.nbits = 0 →
      bs ++ (if b.stg = [] then [] else [shortBlock b.stg]) = (if s.bw.lastData = [] then [] else [shortBlock s.bw.lastData]) →
      Makes s flush (closingBursts s.bw.lastData) (s.setBw .empty) := by
    intro bs b k k1 k2 k3 k4
    rw [closingBursts_short hlen, ← k4, List.append_assoc]
    exact (k.bind (hend (u := s.setBw b) k1 k2 k3)).congr fun o x => rfl
  by_cases hc : 0 < s.bw.nbits
  · have hd : s.bw.lastData = s.bw.stg ++ [s.bw.acc.setWidth 8] := by unfold BitWriter.lastData; rw [if_pos hc]
    have hb : ∀ {bs b}, Makes s (pushByte (s.bw.acc.setWidth 8)) bs (s.setBw b) →
        Makes s flushBits bs (s.setBw { b with acc := 0, nbits := 0 }) := by
      intro bs b k
      refine (k.map (g := fun t => t.setBw { t.bw with acc := 0, nbits := 0 }) (u := s.setBw { b with acc := 0, nbits := 0 })
        fun _ _ => rfl).congr fun o x => ?_
      unfold flushBits
      exact if_pos hc
    rcases Nat.lt_or_eq_of_le h3 with h5 | h5
    · refine hall (hb (makes_pushByte_room _ h4 h5)) (by simp [h4]) rfl rfl ?_
      rw [hd]; rfl
    · refine hall (hb (makes_pushByte_full _ h4 h5)) rfl rfl rfl ?_
      rw [hd]; simp [shortBlock, fullBlock, h4, h5]
  · have h0 : s.bw.nbits = 0 := by omega
    have ha : s.bw.acc = 0 := by rw [h0] at h2; exact BitVec.eq_of_toNat_eq (by simp at h2; simp [h2])
    refine hall (bs := []) (b := s.bw) (makes_pure fun o x => ?_) h4 ha h0 ?_
    · unfold flushBits; exact if_neg hc
    · unfold BitWriter.lastData; rw [if_neg hc, List.append_nil]; rfl

/-! ### The encoder's operations -/

/-- `LZW.BEGIN` (R142): one burst, of one byte. -/
theorem makes_beginFrame {n : Nat} {s : State} (h1 : 1 ≤ n) (h2 : n ≤ 256) :
    ∃ t, Makes s (beginFrame Config.params n) [[BitVec.ofNat 8 (minCodeSize n)]] t := by
  obtain ⟨v, hv⟩ : ∃ v, v = (s.setCt { s.ct with mcs := minCodeSize n }).setBw .empty := ⟨_, rfl⟩
  obtain ⟨q, b, k1, -, k3, k4⟩ := makes_writeCode (c := v.ct.clearCode) (w := minCodeSize n + 1) (s := v)
    (by rw [hv]; exact (by unfold BitWriter.ok; decide : BitWriter.empty.ok)) (by have := minCodeSize_le h1 h2; omega)
  have hq : q = [] := by
    have := congrArg List.length k4
    rw [List.length_append, length_bitsOfBytes, List.length_append, length_bitsOf, hv] at this
    have hm := minCodeSize_le h1 h2
    rcases q with _ | ⟨d, q⟩
    · rfl
    · have hd := k3 d List.mem_cons_self
      simp [BitWriter.pending, BitWriter.empty] at this
      omega
  rw [hq] at k1
  have hw : Makes v (writeMcs Config.params) [[BitVec.ofNat 8 v.ct.mcs]] v :=
    (makes_sinkWrite v [BitVec.ofNat 8 v.ct.mcs]).congr fun o x => if_pos (show Config.params.emitMcs = true from rfl)
  have hb := (k1.map (g := fun s => ((ctReset s).setLzw ⟨.first, Config.freeMatch s.free⟩).useFree 1)
    (u := ((ctReset (v.setBw b)).setLzw ⟨.first, Config.freeMatch (ctReset (v.setBw b)).free⟩).useFree 1) fun _ _ => rfl).congr
    (g := fun s => (writeCode s.ct.clearCode (s.ct.mcs + 1) s).map fun s =>
      ((ctReset s).setLzw ⟨.first, Config.freeMatch s.free⟩).useFree 1) fun _ _ => by rw [hv]; rfl
  have h := (hw.bind hb).before (s := s) (g := fun s => (s.setCt { s.ct with mcs := minCodeSize n }).setBw .empty)
    fun _ _ => by rw [hv]; rfl
  rw [show [[BitVec.ofNat 8 v.ct.mcs]] ++ List.map fullBlock [] = [[BitVec.ofNat 8 (minCodeSize n)]] by rw [hv]; rfl] at h
  exact ⟨_, h.congr fun _ _ => rfl⟩

theorem ctTryAdd_onSink (q : IndexSeq) (s : State) (o : List Byte) (x : List SinkAnswer) :
    ctTryAdd q (s.onSink o x) = (ctTryAdd q s).onSink o x := by
  unfold ctTryAdd
  rw [apply_ite (fun t : State => t.onSink o x)]
  rfl

/-- A miss in `LZW.PIXEL` (R144): full sub-blocks, which hold the first of the bits appended. -/
theorem makes_newMatch {c : Nat} {q : IndexSeq} {p : Byte} {s : State} (hb : s.bw.ok) (hc : s.ct.ok) :
    ∃ (blocks : List (List Byte)) (t : State), Makes s (newMatch c q p) (blocks.map fullBlock) t ∧ t.bw.ok ∧
      (∀ d ∈ blocks, d.length = 255) ∧
      bitsOfBytes blocks.flatten ++ t.bw.pending =
        s.bw.pending ++ if s.ct.next < 4096 then bitsOf c s.ct.width else bitsOf c 12 ++ bitsOf (2 ^ s.ct.mcs) 12 := by
  have hw := hc.width_bounds
  obtain ⟨x, b, k1, k2, k3, k4⟩ := makes_writeCode (c := c) (w := s.ct.width) (s := s) hb (by omega)
  have hadd : ∀ o x, ctTryAdd q (((s.setBw b).onSink o x).setLzw { s.lzw with cur := [p] }) =
      (ctTryAdd q ((s.setBw b).setLzw { s.lzw with cur := [p] })).onSink o x := fun o x => ctTryAdd_onSink q ((s.setBw b).setLzw { s.lzw with cur := [p] }) o x
  by_cases hn : s.ct.next < 4096
  · obtain ⟨t, ht⟩ : ∃ t, t = ctTryAdd q ((s.setBw b).setLzw { s.lzw with cur := [p] }) := ⟨_, rfl⟩
    have hr := ctTryAdd_room (s := (s.setBw b).setLzw { s.lzw with cur := [p] }) q (by show s.ct.next ≠ 4096; omega)
    rw [← ht] at hr
    have htb : t.bw = b := by rw [hr]; rfl
    refine ⟨x, t, ?_, by rw [htb]; exact k2, k3, by rw [if_pos hn, htb]; exact k4⟩
    have h := k1.bind (g := fun s => let s := ctTryAdd q (s.setLzw { s.lzw with cur := [p] });
      if s.ct.added then .ok s else (emit s.ct.clearCode s).map ctReset) (makes_pure (t := t) fun o x => by
        show (if (ctTryAdd q _).ct.added then _ else _) = _
        rw [show (((s.setBw b).onSink o x).lzw) = s.lzw from rfl, hadd, ← ht]
        exact if_pos (by show t.ct.added = true; rw [hr]; rfl))
    rw [List.append_nil] at h
    exact h.congr fun o x => rfl
  · have hn' : s.ct.next = 4096 := by have := hc.2.2.2.1; omega
    obtain ⟨t, ht⟩ : ∃ t, t = ctTryAdd q ((s.setBw b).setLzw { s.lzw with cur := [p] }) := ⟨_, rfl⟩
    have hr := ctTryAdd_full (s := (s.setBw b).setLzw { s.lzw with cur := [p] }) q hn'
    rw [← ht] at hr
    have htb : t.bw = b := by rw [hr]; rfl
    have htw : t.ct.width = 12 := by rw [hr]; exact hc.width_full hn'
    have htm : t.ct.clearCode = 2 ^ s.ct.mcs := by rw [CodeTable.clearCode_eq, hr]; rfl
    obtain ⟨y, d, j1, j2, j3, j4⟩ := makes_writeCode (c := t.ct.clearCode) (w := t.ct.width) (s := t) (by rw [htb]; exact k2) (by omega)
    refine ⟨x ++ y, ctReset (t.setBw d), ?_, j2, ?_, ?_⟩
    · have h := k1.bind (g := fun s => let s := ctTryAdd q (s.setLzw { s.lzw with cur := [p] });
        if s.ct.added then .ok s else (emit s.ct.clearCode s).map ctReset)
        ((j1.map (g := ctReset) (u := ctReset (t.setBw d)) fun _ _ => rfl).before (s := s.setBw b)
          (g := fun s => ctTryAdd q (s.setLzw { s.lzw with cur := [p] })) (fun o x => by
            show ctTryAdd q (((s.setBw b).onSink o x).setLzw { s.lzw with cur := [p] }) = _
            rw [hadd, ← ht]) |>.congr fun o x => by
          show (if (ctTryAdd q _).ct.added then _ else _) = _
          rw [show (((s.setBw b).onSink o x).lzw) = s.lzw from rfl, hadd, ← ht]
          exact if_neg (by show t.ct.added ≠ true; rw [hr]; exact Bool.false_ne_true))
      rw [List.map_append]
      exact h.congr fun o x => rfl
    · intro e he; rcases List.mem_append.1 he with he | he
      exacts [k3 e he, j3 e he]
    · rw [List.flatten_append, bitsOfBytes_append, List.append_assoc]
      show _ ++ (_ ++ (d.pending)) = _
      rw [j4, htb, ← List.append_assoc, k4, if_neg hn, htm, htw, hc.width_full hn', List.append_assoc]

/-- `LZW.END` (R147): full sub-blocks, and then the bursts of a flush. -/
theorem makes_endFrame {c : Nat} {s : State} (hb : s.bw.ok) (hc : s.ct.ok) :
    ∃ (blocks : List (List Byte)) (b : BitWriter) (t : State),
      Makes s (endFrame Config.params c) (blocks.map fullBlock ++ closingBursts b.lastData) t ∧ b.ok ∧
      (∀ d ∈ blocks, d.length = 255) ∧
      bitsOfBytes blocks.flatten ++ b.pending =
        s.bw.pending ++ (bitsOf c s.ct.width ++ bitsOf (2 ^ s.ct.mcs + 1) s.ct.width) := by
  have hw := hc.width_bounds
  obtain ⟨x, b, k1, k2, k3, k4⟩ := makes_writeCode (c := c) (w := s.ct.width) (s := s) hb (by omega)
  obtain ⟨y, d, j1, j2, j3, j4⟩ := makes_writeCode (c := 2 ^ s.ct.mcs + 1) (w := s.ct.width) (s := s.setBw b) k2 (by omega)
  have hf := (makes_flush (s := (s.setBw b).setBw d) j2).map (g := fun s => s.setLzw { s.lzw with st := .done })
    (u := (s.setBw .empty).setLzw { s.lzw with st := .done }) fun _ _ => rfl
  refine ⟨x ++ y, d, (s.setBw .empty).setLzw { s.lzw with st := .done }, ?_, j2, ?_, ?_⟩
  rotate_left
  · intro e he; rcases List.mem_append.1 he with he | he
    exacts [k3 e he, j3 e he]
  · rw [List.flatten_append, bitsOfBytes_append, List.append_assoc, j4]
    show _ ++ (b.pending ++ _) = _
    rw [← List.append_assoc, k4, List.append_assoc]
  · rw [List.map_append, List.append_assoc]
    refine (k1.bind (g := fun s => (writeCode s.ct.eoi (eoiWidth Config.params s.ct) s).bind fun s =>
      (flush s).map fun s => s.setLzw { s.lzw with st := .done }) ((j1.bind hf).congr fun o x => ?_)).congr fun o x => rfl
    show (writeCode s.ct.eoi (eoiWidth Config.params s.ct) _).bind _ = _
    rw [show eoiWidth Config.params s.ct = s.ct.width from if_neg (by rintro ⟨h, -⟩; cases h), CodeTable.eoi_eq]

/-! ### The bursts by the bits they hold -/

/-- Bytes are known by their bits. -/
theorem bitsOfBytes_inj : ∀ {a b : List Byte}, bitsOfBytes a = bitsOfBytes b → a = b
  | [], [], _ => rfl
  | [], x :: b, h => by have := congrArg List.length h; simp at this
  | x :: a, [], h => by have := congrArg List.length h; simp at this
  | x :: a, y :: b, h => by
    rw [← List.singleton_append, ← List.singleton_append (x := y), bitsOfBytes_append, bitsOfBytes_append,
      bitsOfBytes_singleton, bitsOfBytes_singleton] at h
    obtain ⟨h1, h2⟩ := List.append_inj h (by simp)
    rw [bitsOfBytes_inj h2]
    have hx := x.isLt
    have hy := y.isLt
    congr 1
    refine BitVec.eq_of_toNat_eq (Nat.eq_of_testBit_eq fun i => ?_)
    by_cases hi : i < 8
    · have := congrArg (·[i]?) h1
      simpa [bitsOf, hi] using this
    · rw [Nat.testBit_lt_two_pow (Nat.lt_of_lt_of_le hx (Nat.pow_le_pow_right (by decide) (by omega : 8 ≤ i))),
        Nat.testBit_lt_two_pow (Nat.lt_of_lt_of_le hy (Nat.pow_le_pow_right (by decide) (by omega : 8 ≤ i)))]

theorem length_pending {b : BitWriter} (h : b.ok) : b.pending.length < 8 * 255 := by
  obtain ⟨h1, -, h3, h4⟩ := h
  simp [BitWriter.pending]; omega

/-- Of the bits of one instruction at most one sub-block is complete. -/
theorem blocks_le_one {blocks : List (List Byte)} {b c : BitWriter} {bits : List Bool} (hb : b.ok)
    (hl : ∀ d ∈ blocks, d.length = 255) (hn : bits.length ≤ 24) (h : bitsOfBytes blocks.flatten ++ c.pending = b.pending ++ bits) :
    blocks = [] ∨ ∃ d, blocks = [d] ∧ d.length = 255 := by
  rcases blocks with _ | ⟨d, _ | ⟨e, r⟩⟩
  · exact .inl rfl
  · exact .inr ⟨d, rfl, hl d (by simp)⟩
  · have h1 := hl d (by simp)
    have h2 := hl e (by simp)
    have h3 := length_pending hb
    have h4 := congrArg List.length h
    simp at h4
    omega

theorem blocks_of_fills {s : State} {blocks : List (List Byte)} {c : BitWriter} {bits : List Bool} {data : List Byte}
    (hb : s.bw.ok) (hc : c.ok) (hl : ∀ d ∈ blocks, d.length = 255) (hn : bits.length ≤ 24)
    (h : bitsOfBytes blocks.flatten ++ c.pending = s.bw.pending ++ bits) (hf : s.fills bits data) : blocks = [data] := by
  obtain ⟨hd, r, hr⟩ := hf
  rw [← h] at hr
  rcases blocks_le_one hb hl hn h with rfl | ⟨d, rfl, h2⟩
  · have h4 := congrArg List.length hr
    have h5 := length_pending hc
    simp at h4
    omega
  · rw [List.flatten_singleton] at hr
    rw [bitsOfBytes_inj (List.append_inj_left hr (by simp [hd, h2]))]

/-- The zero-padded bits left are those of the last data bytes. -/
theorem pending_padded {b : BitWriter} (hb : b.ok) : ∃ pad < 8, bitsOfBytes b.lastData = b.pending ++ List.replicate pad false := by
  obtain ⟨h1, h2, h3, h4⟩ := hb
  unfold BitWriter.lastData BitWriter.pending
  by_cases hc : 0 < b.nbits
  · refine ⟨8 - b.nbits, by omega, ?_⟩
    rw [if_pos hc, bitsOfBytes_append, bitsOfBytes_singleton, List.append_assoc]
    congr 1
    have hlt : b.acc.toNat < 2 ^ 8 := by
      rw [Nat.one_shiftLeft] at h2
      exact Nat.lt_of_lt_of_le h2 (Nat.pow_le_pow_right (by decide) (by omega))
    rw [BitVec.toNat_setWidth, Nat.mod_eq_of_lt hlt]
    have hs := bitsOf_add b.acc.toNat b.nbits (8 - b.nbits)
    rw [show b.nbits + (8 - b.nbits) = 8 by omega] at hs
    rw [hs]
    congr 1
    rw [Nat.one_shiftLeft] at h2
    rw [Nat.shiftRight_eq_div_pow, Nat.div_eq_of_lt h2, List.eq_replicate_iff]
    simp [bitsOf]
  · refine ⟨0, by omega, ?_⟩
    rw [if_neg hc, show b.nbits = 0 by omega]; simp

theorem bursts_of_packs {s : State} {blocks : List (List Byte)} {c : BitWriter} {bits : List Bool} {data : List Byte}
    (hb : s.bw.ok) (hc : c.ok) (hl : ∀ d ∈ blocks, d.length = 255) (hn : bits.length ≤ 24)
    (h : bitsOfBytes blocks.flatten ++ c.pending = s.bw.pending ++ bits) (hp : s.packs bits data) :
    blocks.map fullBlock ++ closingBursts c.lastData = closingBursts data := by
  obtain ⟨pad, hpad, hp⟩ := hp
  obtain ⟨pad', hpad', hp'⟩ := pending_padded hc
  have hdata : data = blocks.flatten ++ c.lastData := by
    refine bitsOfBytes_inj ?_
    rw [bitsOfBytes_append, hp, hp', ← List.append_assoc, h]
    have h5 := congrArg List.length hp
    have h6 := congrArg List.length hp'
    have h7 := congrArg List.length h
    simp at h5 h6 h7
    rw [show pad = pad' by omega]
  have hlen := length_lastData hc
  rcases blocks_le_one hb hl hn h with rfl | ⟨d, rfl, h2⟩
  · rw [hdata]; rfl
  · have hne : d ≠ [] := by rintro rfl; cases h2
    have hfb : fullBlock d = shortBlock d := by unfold fullBlock shortBlock; rw [if_neg hne, h2]; rfl
    rw [List.flatten_singleton] at hdata
    rw [closingBursts_short hlen, hdata, List.map_singleton, hfb]
    by_cases he : c.lastData = []
    · rw [he, List.append_nil, closingBursts_short h2.le, if_neg hne]; rfl
    · have h3 : 0 < c.lastData.length := List.length_pos_iff.2 he
      unfold closingBursts
      rw [if_neg he, if_neg (by simp [hne]), if_neg (by rw [List.length_append]; omega), List.take_left' h2, List.drop_left' h2]
      rfl

end Sys2Proof.Machine
end

