-- ==== Sys2Proof/Laws/Decode.lean ====
section
/-! SUPPORT. The fields of a command word (R70): what a word built from fields reads back, and what a decoded word is built from. -/

namespace Sys2Proof

/-- The fields of a word: `unit`, `op`, `arg`. -/
abbrev unitOf (w : Word) : BitVec 4 := w.extractLsb' 28 4
abbrev opOf (w : Word) : BitVec 4 := w.extractLsb' 24 4
abbrev argOf (w : Word) : BitVec 24 := w.extractLsb' 0 24

theorem unitOf_cmdWord (u o : BitVec 4) (a : BitVec 24) : (cmdWord u o a).extractLsb' 28 4 = u := by
  ext i hi
  simp only [cmdWord, BitVec.getElem_extractLsb', BitVec.getLsbD_append]
  simp [show ¬ 28 + i < 24 by omega, show ¬ 28 + i - 24 < 4 by omega, show 28 + i - 24 - 4 = i by omega,
    BitVec.getLsbD_eq_getElem hi]

theorem opOf_cmdWord (u o : BitVec 4) (a : BitVec 24) : (cmdWord u o a).extractLsb' 24 4 = o := by
  ext i hi
  simp only [cmdWord, BitVec.getElem_extractLsb', BitVec.getLsbD_append]
  simp [hi]

/-- A field of `arg` is read from the word at its place in `arg`. -/
theorem argField_cmdWord (u o : BitVec 4) (a : BitVec 24) {k n : Nat} (h : k + n ≤ 24) :
    (cmdWord u o a).extractLsb' k n = a.extractLsb' k n := by
  ext i hi
  simp only [cmdWord, BitVec.getElem_extractLsb', BitVec.getLsbD_append]
  simp [show k + i < 24 by omega]

/-- A field of a concatenation that lies in its low part. -/
theorem extract_low {m n k l : Nat} (x : BitVec m) (y : BitVec n) (h : k + l ≤ n) :
    (x ++ y).extractLsb' k l = y.extractLsb' k l := by
  ext i hi
  simp only [BitVec.getElem_extractLsb', BitVec.getLsbD_append]
  simp [show k + i < n by omega]

/-- A field of a concatenation that lies in its high part. -/
theorem extract_high {m n k l : Nat} (x : BitVec m) (y : BitVec n) (h : n ≤ k) :
    (x ++ y).extractLsb' k l = x.extractLsb' (k - n) l := by
  ext i hi
  simp only [BitVec.getElem_extractLsb', BitVec.getLsbD_append]
  simp [show ¬ k + i < n by omega, show k + i - n = k - n + i by omega]

theorem extract_all {n : Nat} (x : BitVec n) : x.extractLsb' 0 n = x := by simp

/-- Two neighbouring fields make one. -/
theorem append_extract {n : Nat} (w : BitVec n) (m k l : Nat) :
    w.extractLsb' (m + k) l ++ w.extractLsb' m k = w.extractLsb' m (l + k) := by
  ext i hi
  simp only [BitVec.getElem_append, BitVec.getElem_extractLsb']
  split
  · rfl
  · rw [show m + k + (i - k) = m + i by omega]

/-- A word is made of its three fields. -/
theorem cmdWord_fields (w : Word) : cmdWord (unitOf w) (opOf w) (argOf w) = w := by
  have h1 := append_extract w 24 4 4
  have h2 := append_extract w 0 24 8
  unfold cmdWord
  rw [h1]
  exact h2.trans (extract_all w)

theorem ifZero_ok {n : Nat} {z : BitVec n} {i j : Instr} (h : ifZero z i = .ok j) : z = 0 ∧ i = j := by
  unfold ifZero at h
  split at h
  · rename_i hz; cases h; exact ⟨hz, rfl⟩
  · cases h

theorem ifZero_zero {n : Nat} (i : Instr) : ifZero (0 : BitVec n) i = .ok i := if_pos rfl

/-- `arg` with its upper field zero. -/
theorem argOf_of_zero {w : Word} (k l : Nat) (hz : w.extractLsb' k l = 0) :
    0#l ++ w.extractLsb' 0 k = w.extractLsb' 0 (l + k) := by
  have h := append_extract w 0 k l
  rwa [Nat.zero_add, hz] at h

end Sys2Proof
end

