-- ==== Sys2Proof/Laws/Memory.lean ====
section
/-! SUPPORT. The memories: a read after a write, the canonical form, and what an update of the whole canvas does. -/

namespace Sys2Proof.Machine.Memory

variable {α : Type} [DecidableEq α] {d : α} {m : List (Nat × α)}

omit [DecidableEq α] in
@[simp] theorem read_nil (d : α) (a : Nat) : read d [] a = d := rfl

theorem wf_nil (d : α) : wf d [] := ⟨List.Pairwise.nil, by simp⟩

theorem wf_cons {k : Nat} {v : α} : wf d ((k, v) :: m) ↔ (∀ e ∈ m, k < e.1) ∧ v ≠ d ∧ wf d m := by
  simp only [wf, List.map_cons, List.pairwise_cons, List.mem_map, List.mem_cons]
  constructor
  · rintro ⟨⟨h1, h2⟩, h3⟩
    exact ⟨fun e he => h1 e.1 ⟨e, he, rfl⟩, h3 _ (.inl rfl), h2, fun e he => h3 e (.inr he)⟩
  · rintro ⟨h1, h2, h3, h4⟩
    refine ⟨⟨?_, h3⟩, ?_⟩
    · rintro _ ⟨e, he, rfl⟩; exact h1 e he
    · rintro e (rfl | he)
      · exact h2
      · exact h4 e he

omit [DecidableEq α] in
/-- An address below every listed one reads `d`. -/
theorem read_eq_default {a : Nat} (h : ∀ e ∈ m, a < e.1) : read d m a = d := by
  induction m with
  | nil => rfl
  | cons e m ih =>
    have h1 := h e (by simp)
    have : e.1 ≠ a := by omega
    simp only [read, if_neg this]
    exact ih fun e he => h e (by simp [he])

/-- What a write lists: the address written to, or an entry that was there. -/
theorem mem_write {a : Nat} {v : α} {e : Nat × α} (h : e ∈ write d m a v) : e ∈ m ∨ e = (a, v) := by
  induction m with
  | nil => simp only [write] at h; split at h <;> simp_all
  | cons f m ih =>
    obtain ⟨k, u⟩ := f
    simp only [write] at h
    split at h
    · split at h <;> (simp_all; try tauto)
    · split at h
      · split at h <;> (simp_all; try tauto)
      · rcases List.mem_cons.1 h with rfl | h
        · simp
        · rcases ih h with h | h <;> simp [h]

theorem wf_write (h : wf d m) (a : Nat) (v : α) : wf d (write d m a v) := by
  induction m with
  | nil =>
    simp only [write]
    split
    · exact wf_nil d
    · rename_i hv; exact wf_cons.2 ⟨by simp, hv, wf_nil d⟩
  | cons f m ih =>
    obtain ⟨k, u⟩ := f
    obtain ⟨h1, h2, h3⟩ := wf_cons.1 h
    simp only [write]
    split
    · rename_i hlt
      split
      · exact h
      · rename_i hv
        refine wf_cons.2 ⟨?_, hv, h⟩
        intro e he
        rcases List.mem_cons.1 he with rfl | he
        · exact hlt
        · exact hlt.trans (h1 e he)
    · split
      · rename_i heq
        split
        · exact h3
        · rename_i hv; exact wf_cons.2 ⟨heq ▸ h1, hv, h3⟩
      · rename_i hlt hne
        refine wf_cons.2 ⟨?_, h2, ih h3⟩
        intro e he
        rcases mem_write he with he | rfl
        · exact h1 e he
        · show k < a; omega

theorem read_write_same (h : wf d m) (a : Nat) (v : α) : read d (write d m a v) a = v := by
  induction m with
  | nil => simp only [write]; split <;> simp_all [read]
  | cons f m ih =>
    obtain ⟨k, u⟩ := f
    obtain ⟨h1, h2, h3⟩ := wf_cons.1 h
    simp only [write]
    split
    · rename_i hlt
      split
      · rename_i hv
        rw [hv]
        refine read_eq_default fun e he => ?_
        rcases List.mem_cons.1 he with rfl | he
        · exact hlt
        · exact hlt.trans (h1 e he)
      · simp [read]
    · split
      · rename_i heq
        split
        · rename_i hv; rw [hv]; exact read_eq_default fun e he => heq ▸ h1 e he
        · simp [read]
      · rename_i hne
        have : k ≠ a := fun h => hne h.symm
        simp [read, this, ih h3]

theorem read_write_other {a b : Nat} (v : α) (hab : b ≠ a) : read d (write d m a v) b = read d m b := by
  induction m with
  | nil => simp only [write]; split <;> simp [read]; exact fun h => absurd h.symm hab
  | cons f m ih =>
    obtain ⟨k, u⟩ := f
    have hab' : a ≠ b := fun h => hab h.symm
    simp only [write]
    split
    · split <;> simp [read, hab']
    · split
      · rename_i heq; subst heq; split <;> simp [read, hab']
      · simp only [read, ih]

/-- Two memories in canonical form that read alike are equal. -/
theorem ext {m' : List (Nat × α)} (h : wf d m) (h' : wf d m') (hr : ∀ a, read d m a = read d m' a) : m = m' := by
  induction m generalizing m' with
  | nil =>
    cases m' with
    | nil => rfl
    | cons e m' =>
      obtain ⟨_, h2, _⟩ := wf_cons.1 h'
      have := hr e.1; simp [read] at this; exact absurd this.symm h2
  | cons f m ih =>
    obtain ⟨k, u⟩ := f
    obtain ⟨h1, h2, h3⟩ := wf_cons.1 h
    cases m' with
    | nil => have := hr k; simp [read] at this; exact absurd this h2
    | cons f' m' =>
      obtain ⟨k', u'⟩ := f'
      obtain ⟨h1', h2', h3'⟩ := wf_cons.1 h'
      have hk : k = k' := by
        rcases Nat.lt_trichotomy k k' with hlt | heq | hlt
        · exfalso
          have := hr k
          rw [read_eq_default (m := (k', u') :: m')] at this
          · simp [read] at this; exact h2 this
          · intro e he
            rcases List.mem_cons.1 he with rfl | he
            · exact hlt
            · exact hlt.trans (h1' e he)
        · exact heq
        · exfalso
          have := (hr k').symm
          rw [read_eq_default (m := (k, u) :: m)] at this
          · simp [read] at this; exact h2' this
          · intro e he
            rcases List.mem_cons.1 he with rfl | he
            · exact hlt
            · exact hlt.trans (h1 e he)
      subst hk
      have hu : u = u' := by simpa [read] using hr k
      subst hu
      refine congrArg _ (ih h3 h3' fun a => ?_)
      by_cases hka : k = a
      · subst hka; rw [read_eq_default h1, read_eq_default h1']
      · simpa [read, hka] using hr a

/-! ### The canvas -/

theorem mem_canvas {w h y x : Nat} : (y, x) ∈ canvas w h ↔ y < h ∧ x < w := by
  simp [canvas]

theorem pixel_inj {y x y' x' : Nat} (hx : x < 65536) (hx' : x' < 65536) :
    pixel y x = pixel y' x' ↔ y = y' ∧ x = x' := by
  simp only [pixel]; omega

theorem nodup_canvas (w h : Nat) : (canvas w h).Nodup := by
  simp only [canvas]
  rw [List.nodup_flatMap]
  refine ⟨fun y _ => (List.nodup_range).map fun a b h => (Prod.mk.inj h).2, ?_⟩
  refine List.Nodup.pairwise_of_forall_ne (List.nodup_range) ?_
  intro a _ b _ hab
  rw [Function.onFun, List.disjoint_left]
  rintro p hp hq
  simp only [List.mem_map] at hp hq
  obtain ⟨_, _, rfl⟩ := hp
  obtain ⟨_, _, h⟩ := hq
  exact hab (Prod.mk.inj h).1.symm

theorem wf_foldl_entries {es : List (Nat × α)} (h : wf d m) : wf d (es.foldl (fun m e => write d m e.1 e.2) m) := by
  induction es generalizing m with
  | nil => exact h
  | cons e es ih => exact ih (wf_write h _ _)

/-- A memory made from a list of contents has the canonical form. -/
theorem wf_ofList (es : List (Nat × α)) : wf d (ofList d es) := wf_foldl_entries (wf_nil d)

theorem wf_foldl_write {ps : List (Nat × Nat)} {f : Nat → Nat → α → α} (h : wf d m) :
    wf d (ps.foldl (fun m p => write d m (pixel p.1 p.2) (f p.1 p.2 (read d m (pixel p.1 p.2)))) m) := by
  induction ps generalizing m with
  | nil => exact h
  | cons p ps ih => exact ih (wf_write h _ _)

theorem wf_update (h : wf d m) (w n : Nat) (f : Nat → Nat → α → α) : wf d (update d w n f m) :=
  wf_foldl_write h

theorem read_foldl_write {ps : List (Nat × Nat)} {f : Nat → Nat → α → α} (h : wf d m) (hn : ps.Nodup)
    (hps : ∀ p ∈ ps, p.2 < 65536) {y x : Nat} (hx : x < 65536) :
    read d (ps.foldl (fun m p => write d m (pixel p.1 p.2) (f p.1 p.2 (read d m (pixel p.1 p.2)))) m) (pixel y x) =
      if (y, x) ∈ ps then f y x (read d m (pixel y x)) else read d m (pixel y x) := by
  induction ps generalizing m with
  | nil => simp
  | cons p ps ih =>
    obtain ⟨py, px⟩ := p
    obtain ⟨hp, hn⟩ := List.nodup_cons.1 hn
    have hpx : px < 65536 := hps (py, px) (by simp)
    rw [List.foldl_cons, ih (wf_write h _ _) hn fun q hq => hps q (by simp [hq])]
    by_cases heq : (y, x) = (py, px)
    · obtain ⟨rfl, rfl⟩ := Prod.mk.inj heq
      rw [if_neg hp, if_pos (by simp), read_write_same h]
    · have hne : pixel y x ≠ pixel py px := by
        rw [Ne, pixel_inj hx hpx]; rintro ⟨rfl, rfl⟩; exact heq rfl
      rw [read_write_other _ hne]
      simp only [List.mem_cons, heq, false_or]

/-- An update of the canvas changes each of its pixels by `f`, and nothing else. -/
theorem read_update (h : wf d m) {w n y x : Nat} (hw : w ≤ 65536) (hx : x < 65536) (f : Nat → Nat → α → α) :
    read d (update d w n f m) (pixel y x) =
      if y < n ∧ x < w then f y x (read d m (pixel y x)) else read d m (pixel y x) := by
  rw [update, read_foldl_write h (nodup_canvas w n) _ hx]
  · simp [mem_canvas]
  · rintro ⟨y, x⟩ hp; have := (mem_canvas.1 hp).2; show x < 65536; omega

end Sys2Proof.Machine.Memory
end

