-- ==== Sys2Proof/Laws/DeltaEngine.lean ====
section
/-! SUPPORT. The frame-delta engine: what its operations change, pixel by pixel, and that they keep the memories' canonical form. -/

namespace Sys2Proof.Machine

/-- Only the delta engine's state and the frame memories differ. -/
def DeltaFrame (s t : State) : Prop := t = { s with de := t.de, frames := t.frames }

theorem Cfg.width_lt (cfg : Cfg) : cfg.width < 65536 := cfg.w.isLt
theorem Cfg.height_lt (cfg : Cfg) : cfg.height < 65536 := cfg.h.isLt

theorem deltaFrame_initCanvas (s : State) : DeltaFrame s (initCanvas s) := rfl

theorem deltaFrame_deltaFrame (b : BitVec 1) (s : State) : DeltaFrame s (deltaFrame b s) := by
  unfold deltaFrame; split
  · split
    · rfl
    · split <;> rfl
  · rfl

theorem trimFrame_eq (par : Config.Params) (s : State) :
    trimFrame par s = { s with de := { s.de with
      locX := (trimBox par s).1, locY := (trimBox par s).2.1, frW := (trimBox par s).2.2.1,
      frH := (trimBox par s).2.2.2, step := .trimmed } } := rfl

theorem deltaFrame_trimFrame (par : Config.Params) (s : State) : DeltaFrame s (trimFrame par s) := rfl

theorem deltaFrame_disposeFrame (par : Config.Params) (b : BitVec 1) (s : State) : DeltaFrame s (disposeFrame par b s) := by
  unfold disposeFrame; split
  · rfl
  · split <;> rfl

theorem deltaFrame_commitFrame (s : State) : DeltaFrame s (commitFrame s) := by
  unfold commitFrame; split <;> rfl

/-! ### `DE.DELTA` (R175) -/

/-- The working buffer after `DE.DELTA 0`. -/
theorem colorAt_deltaWorking {s : State} (h : Memory.wf transparent s.frames.wb) {y x : Nat} (hp : s.cfg.has y x) :
    colorAt (deltaWorking s).frames.wb y x =
      if colorAt s.frames.wb y x = colorAt s.de.rb y x then transparent else colorAt s.frames.wb y x := by
  have hw := s.cfg.width_lt
  have hx : x < s.cfg.width := hp.2
  unfold colorAt deltaWorking
  rw [State.setFrames_frames, Memory.read_update h (by omega) (by omega), if_pos ⟨hp.1, hp.2⟩]

/-- The indexed frame after `DE.DELTA 1`. -/
theorem indexAt_deltaIndexed {s : State} (h : Memory.wf (0 : Byte) s.frames.idx) {y x : Nat} (hp : s.cfg.has y x) :
    indexAt (deltaIndexed s).frames.idx y x =
      if Memory.read transparent s.frames.pal (indexAt s.frames.idx y x).toNat = colorAt s.de.rb y x then s.frames.tIdx
      else indexAt s.frames.idx y x := by
  have hw := s.cfg.width_lt
  have hx : x < s.cfg.width := hp.2
  unfold colorAt indexAt deltaIndexed
  rw [State.setFrames_frames, Memory.read_update h (by omega) (by omega), if_pos ⟨hp.1, hp.2⟩]

theorem wf_deltaWorking {s : State} (h : Memory.wf transparent s.frames.wb) :
    Memory.wf transparent (deltaWorking s).frames.wb := by
  unfold deltaWorking; rw [State.setFrames_frames]; dsimp only; exact Memory.wf_update h _ _ _

theorem wf_deltaIndexed {s : State} (h : Memory.wf (0 : Byte) s.frames.idx) :
    Memory.wf (0 : Byte) (deltaIndexed s).frames.idx := by
  unfold deltaIndexed; rw [State.setFrames_frames]; dsimp only; exact Memory.wf_update h _ _ _

/-! ### `DE.TRIM` (R178) -/

theorem visCol_iff {s : State} {x : Nat} : s.visCol x = true ↔ ∃ y, y < s.cfg.height ∧ s.frames.vis y x = true := by
  simp [State.visCol]

theorem visRow_iff {s : State} {y : Nat} : s.visRow y = true ↔ ∃ x, x < s.cfg.width ∧ s.frames.vis y x = true := by
  simp [State.visRow]

/-- The least `i < n` with `p i`. -/
theorem find_range {p : Nat → Bool} {n i : Nat} (h : (List.range n).find? p = some i) :
    i < n ∧ p i = true ∧ ∀ j < i, p j = false := by
  rw [List.find?_eq_some_iff_getElem] at h
  obtain ⟨h1, k, hk, h2, h3⟩ := h
  rw [List.getElem_range] at h2
  subst h2
  exact ⟨by simpa using hk, h1, fun j hj => by simpa using h3 j hj⟩

/-- The greatest `i < n` with `p i`. -/
theorem find_range_reverse {p : Nat → Bool} {n i : Nat} (h : (List.range n).reverse.find? p = some i) :
    i < n ∧ p i = true ∧ ∀ j < n, i < j → p j = false := by
  rw [List.find?_eq_some_iff_getElem] at h
  obtain ⟨h1, k, hk, h2, h3⟩ := h
  rw [List.length_reverse, List.length_range] at hk
  rw [List.getElem_reverse, List.getElem_range, List.length_range] at h2
  refine ⟨by omega, h1, fun j hj hij => ?_⟩
  have := h3 (n - 1 - j) (by omega)
  rw [List.getElem_reverse, List.getElem_range, List.length_range] at this
  rw [show n - 1 - (n - 1 - j) = j by omega] at this
  simpa using this

theorem find_range_none {p : Nat → Bool} {n : Nat} (h : (List.range n).find? p = none) : ∀ j < n, p j = false := by
  intro j hj
  have := List.find?_eq_none.1 h j (List.mem_range.2 hj)
  simpa using this

theorem find_range_reverse_none {p : Nat → Bool} {n : Nat} (h : (List.range n).reverse.find? p = none) :
    ∀ j < n, p j = false := by
  intro j hj
  have := List.find?_eq_none.1 h j (List.mem_reverse.2 (List.mem_range.2 hj))
  simpa using this

/-- The three outcomes of `DE.TRIM`: the whole canvas; the bounding box of the visible pixels; one pixel at the centre. -/
theorem trimBox_cases (par : Config.Params) (s : State) :
    (s.cfg.keepBorders = true ∧ trimBox par s = (0, 0, s.cfg.width, s.cfg.height)) ∨
    (s.cfg.keepBorders = false ∧ ∃ x0 x1 y0 y1,
      trimBox par s = (x0, y0, x1 - x0 + 1, y1 - y0 + 1) ∧ x0 ≤ x1 ∧ y0 ≤ y1 ∧
      (x1 < s.cfg.width ∧ y1 < s.cfg.height) ∧
      (s.visCol x0 = true ∧ s.visCol x1 = true ∧ s.visRow y0 = true ∧ s.visRow y1 = true) ∧
      ∀ y x, y < s.cfg.height → x < s.cfg.width → s.frames.vis y x = true → x0 ≤ x ∧ x ≤ x1 ∧ y0 ≤ y ∧ y ≤ y1) ∨
    (s.cfg.keepBorders = false ∧ (∀ y x, y < s.cfg.height → x < s.cfg.width → s.frames.vis y x = false) ∧
      trimBox par s = ((par.center s.cfg.width s.cfg.height).1, (par.center s.cfg.width s.cfg.height).2, 1, 1)) := by
  unfold trimBox
  by_cases hk : s.cfg.keepBorders = true
  · rw [if_pos hk]; exact .inl ⟨hk, rfl⟩
  have hk' : s.cfg.keepBorders = false := by simpa using hk
  rw [if_neg hk]
  right
  have col : ∀ y x, y < s.cfg.height → s.frames.vis y x = true → s.visCol x = true :=
    fun y x hy hv => visCol_iff.2 ⟨y, hy, hv⟩
  have row : ∀ y x, x < s.cfg.width → s.frames.vis y x = true → s.visRow y = true :=
    fun y x hx hv => visRow_iff.2 ⟨x, hx, hv⟩
  split
  · rename_i x0 x1 y0 y1 hx0 hx1 hy0 hy1
    obtain ⟨a1, a2, a3⟩ := find_range hx0
    obtain ⟨b1, b2, b3⟩ := find_range_reverse hx1
    obtain ⟨c1, c2, c3⟩ := find_range hy0
    obtain ⟨d1, d2, d3⟩ := find_range_reverse hy1
    refine .inl ⟨hk', x0, x1, y0, y1, rfl, ?_, ?_, ⟨b1, d1⟩, ⟨a2, b2, c2, d2⟩, ?_⟩
    · by_contra h; rw [b3 x0 a1 (by omega)] at a2; cases a2
    · by_contra h; rw [d3 y0 c1 (by omega)] at c2; cases c2
    · intro y x hy hx hv
      have h1 := col y x hy hv
      have h2 := row y x hx hv
      refine ⟨?_, ?_, ?_, ?_⟩ <;> by_contra h
      · rw [a3 x (by omega)] at h1; cases h1
      · rw [b3 x hx (by omega)] at h1; cases h1
      · rw [c3 y (by omega)] at h2; cases h2
      · rw [d3 y hy (by omega)] at h2; cases h2
  · rename_i hn
    refine .inr ⟨hk', ?_, rfl⟩
    intro y x hy hx
    by_contra hv
    have hv : s.frames.vis y x = true := by simpa using hv
    have h1 := col y x hy hv
    have h2 := row y x hx hv
    cases e0 : (List.range s.cfg.width).find? s.visCol with
    | none => rw [find_range_none e0 x hx] at h1; cases h1
    | some x0 =>
    cases e1 : (List.range s.cfg.width).reverse.find? s.visCol with
    | none => rw [find_range_reverse_none e1 x hx] at h1; cases h1
    | some x1 =>
    cases e2 : (List.range s.cfg.height).find? s.visRow with
    | none => rw [find_range_none e2 y hy] at h2; cases h2
    | some y0 =>
    cases e3 : (List.range s.cfg.height).reverse.find? s.visRow with
    | none => rw [find_range_reverse_none e3 y hy] at h2; cases h2
    | some y1 => exact hn x0 x1 y0 y1 e0 e1 e2 e3

/-- The clip lies in the canvas and is not empty (R43, R178), for a centre inside the canvas. -/
theorem trimBox_bounds (s : State) (hw : 0 < s.cfg.width) (hh : 0 < s.cfg.height) {x y w h : Nat}
    (e : trimBox Config.params s = (x, y, w, h)) :
    1 ≤ w ∧ 1 ≤ h ∧ x + w ≤ s.cfg.width ∧ y + h ≤ s.cfg.height := by
  rcases trimBox_cases Config.params s with ⟨-, h1⟩ | ⟨-, x0, x1, y0, y1, h1, h2, h3, ⟨h4, h5⟩, -, -⟩ | ⟨-, -, h1⟩
  · rw [h1] at e; cases e; omega
  · rw [h1] at e; cases e; omega
  · rw [h1] at e
    cases e
    show 1 ≤ 1 ∧ 1 ≤ 1 ∧ s.cfg.width / 2 + 1 ≤ _ ∧ s.cfg.height / 2 + 1 ≤ _
    omega

/-! ### `DE.DISPOSE` (R181) and `DE.COMMIT` (R184) -/

theorem newlyTransparent_iff {s : State} : newlyTransparent s = true ↔
    ∃ y x, s.cfg.has y x ∧ ¬ alpha (s.comp y x) < s.cfg.alphaThr ∧ alpha (colorAt s.frames.nxt y x) < s.cfg.alphaThr := by
  simp only [newlyTransparent, List.any_eq_true, Bool.and_eq_true]
  constructor
  · rintro ⟨⟨y, x⟩, hm, h1, h2⟩
    refine ⟨y, x, Memory.mem_canvas.1 hm, ?_, ?_⟩
    · simpa [Cfg.opaqueQ, Cfg.transpQ] using h1
    · simpa [Cfg.transpQ, colorAt] using h2
  · rintro ⟨y, x, hm, h1, h2⟩
    refine ⟨(y, x), Memory.mem_canvas.2 hm, ?_, ?_⟩
    · simpa [Cfg.opaqueQ, Cfg.transpQ] using h1
    · simpa [Cfg.transpQ, colorAt] using h2

/-- The Render Buffer after the compositing of R184. -/
theorem colorAt_composited {s : State} (h : Memory.wf transparent s.de.rb) {y x : Nat} (hp : s.cfg.has y x) :
    colorAt (composited s) y x =
      if s.de.inClip y x = true ∧ s.frames.vis y x = true then s.frames.col y x else colorAt s.de.rb y x := by
  have hw := s.cfg.width_lt
  have hx : x < s.cfg.width := hp.2
  unfold colorAt composited
  rw [Memory.read_update h (by omega) (by omega), if_pos ⟨hp.1, hp.2⟩]
  simp only [Bool.and_eq_true]

theorem wf_composited {s : State} (h : Memory.wf transparent s.de.rb) : Memory.wf transparent (composited s) :=
  Memory.wf_update h _ _ _

theorem inClip_iff {d : Delta} {y x : Nat} :
    d.inClip y x = true ↔ d.locY ≤ y ∧ y < d.locY + d.frH ∧ d.locX ≤ x ∧ x < d.locX + d.frW := by
  simp only [Delta.inClip, Bool.and_eq_true, decide_eq_true_eq]
  constructor
  · rintro ⟨⟨⟨a, b⟩, c⟩, d⟩; exact ⟨a, b, c, d⟩
  · rintro ⟨a, b, c, d⟩; exact ⟨⟨⟨a, b⟩, c⟩, d⟩

end Sys2Proof.Machine
end

