-- ==== Sys2Proof/Laws/PerInstr.lean ====
section
/-! SUPPORT. Families of statements about every instruction, one lemma per constructor.

`Encodes`: the word of an instruction selects the instruction's row of the operation map (R72), on the row's port. -/

namespace Sys2Proof.Laws.Encodes

/-- The instruction's word selects the row of its mnemonic and port. -/
def Statement (i : Instr) : Prop :=
  ∃ r ∈ opRows, r.mnemonic = i.mnemonic ∧ r.port = i.port ∧ r.selects (encode i) = true

/-- Masking a word masks its `arg`, when the mask keeps `unit` and `op`. -/
theorem and_cmdWord (u o : BitVec 4) (a m : BitVec 24) : cmdWord u o a &&& cmdWord 0xF 0xF m = cmdWord u o (a &&& m) := by
  unfold cmdWord
  rw [BitVec.and_append, BitVec.and_append]
  congr 1
  congr 1
  · exact BitVec.and_allOnes
  · exact BitVec.and_allOnes

/-- A mask over the upper field of `arg` alone leaves the lower one out. -/
theorem selects_field {u o : BitVec 4} {k l : Nat} (h : k + l = 24) (x : BitVec l) {m p : Word}
    (hm : m = cmdWord 0xF 0xF ((BitVec.allOnes k ++ 0#l).cast h)) (hp : p = cmdWord u o 0) :
    cmdWord u o ((0#k ++ x).cast h) &&& m = p := by
  rw [hm, hp, and_cmdWord]
  have hc : (0#k ++ x).cast h &&& (BitVec.allOnes k ++ 0#l).cast h =
      ((0#k ++ x) &&& (BitVec.allOnes k ++ 0#l)).cast h := rfl
  rw [hc, BitVec.and_append]
  congr 1
  apply BitVec.eq_of_toNat_eq
  simp

theorem lzwBegin (n : BitVec 9) : Statement (.lzwBegin n) :=
  ⟨⟨"LZW.BEGIN", 0x10000000, 0xFFFFFE00, .commandPort⟩, by decide, rfl, rfl, by
    simp only [OpRow.selects, beq_iff_eq]; exact selects_field (k := 15) rfl n (by decide) (by decide)⟩

theorem lzwPixel (p : Byte) : Statement (.lzwPixel p) :=
  ⟨⟨"LZW.PIXEL", 0x11000000, 0xFFFFFF00, .commandPort⟩, by decide, rfl, rfl, by
    simp only [OpRow.selects, beq_iff_eq]; exact selects_field (k := 16) rfl p (by decide) (by decide)⟩

theorem lzwEnd : Statement .lzwEnd := by unfold Statement; decide

theorem lzwAbort : Statement .lzwAbort := by unfold Statement; decide

theorem ctReset : Statement .ctReset := by unfold Statement; decide

theorem ctTryGet (pre : BitVec 12) (last : Byte) : Statement (.ctTryGet pre last) := by
  refine ⟨⟨"CT.TRY_GET", 0x21000000, 0xFFF00000, .internalBus⟩, by decide, rfl, rfl, ?_⟩
  simp only [OpRow.selects, beq_iff_eq, encode]
  rw [BitVec.append_assoc]
  exact selects_field (k := 4) rfl (pre ++ last) (by decide) (by decide)

theorem ctTryAdd (pre : BitVec 12) (last : Byte) : Statement (.ctTryAdd pre last) := by
  refine ⟨⟨"CT.TRY_ADD", 0x22000000, 0xFFF00000, .internalBus⟩, by decide, rfl, rfl, ?_⟩
  simp only [OpRow.selects, beq_iff_eq, encode]
  rw [BitVec.append_assoc]
  exact selects_field (k := 4) rfl (pre ++ last) (by decide) (by decide)

theorem bwWriteCode (code : BitVec 12) (bitWidth : BitVec 4) : Statement (.bwWriteCode code bitWidth) := by
  refine ⟨⟨"BW.WRITE_CODE", 0x30000000, 0xFFFF0000, .internalBus⟩, by decide, rfl, rfl, ?_⟩
  simp only [OpRow.selects, beq_iff_eq, encode]
  rw [BitVec.append_assoc]
  exact selects_field (k := 8) rfl (bitWidth ++ code) (by decide) (by decide)

theorem bwFlush : Statement .bwFlush := by unfold Statement; decide

theorem deInit : Statement .deInit := by unfold Statement; decide

theorem deDelta (indexed : BitVec 1) : Statement (.deDelta indexed) := by
  refine ⟨⟨"DE.DELTA", 0x41000000, 0xFFFFFFFE, .commandPort⟩, by decide, rfl, rfl, ?_⟩
  simp only [OpRow.selects, beq_iff_eq, encode]
  exact selects_field (k := 23) rfl indexed (by decide) (by decide)

theorem deTrim : Statement .deTrim := by unfold Statement; decide

theorem deDispose (hasNext : BitVec 1) : Statement (.deDispose hasNext) := by
  refine ⟨⟨"DE.DISPOSE", 0x43000000, 0xFFFFFFFE, .commandPort⟩, by decide, rfl, rfl, ?_⟩
  simp only [OpRow.selects, beq_iff_eq, encode]
  exact selects_field (k := 23) rfl hasNext (by decide) (by decide)

theorem deCommit : Statement .deCommit := by unfold Statement; decide

end Sys2Proof.Laws.Encodes
end

