-- ==== Sys2Proof/Laws/Step.lean ====
section
/-! SUPPORT. Said once: everything an instruction, and everything a step, can do when it answers a next state. -/

namespace Sys2Proof.Machine

/-- What an instruction can do while no fault is taken: an encoder operation completes; a delta engine operation completes; a check
raises one of the instruction's causes; a burst fails. -/
theorem exec_cases {i : Instr} {s t : State} (h : s.running) (ht : exec i s = .next t) :
    (isDelta i = false ∧ Ran s t) ∨
    (isDelta i = true ∧ DeltaFrame s t) ∨
    (∃ c ∈ causesOf i, c ≠ .none ∧ c ≠ .sinkIo ∧ t = s.raise c (encode i)) ∨
    (isDelta i = false ∧ .sinkIo ∈ causesOf i ∧ ∃ u, Broke s u ∧ t = u.scramble.raise .sinkIo (encode i)) := by
  have fin : ∀ {cmd r}, Runs s r → finish cmd r = .next t →
      Ran s t ∨ ∃ u, Broke s u ∧ t = u.scramble.raise .sinkIo cmd := by
    intro cmd r hr hf
    rcases finish_cases hf with rfl | ⟨u, rfl, rfl⟩
    · exact .inl hr
    · exact .inr ⟨u, hr, rfl⟩
  have delta : ∀ {st cmd u}, DeltaFrame s u → inStep st cmd s (.next u) = .next t →
      DeltaFrame s t ∨ t = s.raise .badState cmd := by
    intro st cmd u hu hi
    rcases inStep_cases h hi with ⟨-, -, rfl⟩ | ⟨-, rfl⟩
    · exact .inl hu
    · exact .inr rfl
  cases i with
  | lzwBegin n =>
    change execLzwBegin n s = _ at ht
    unfold execLzwBegin at ht
    dsimp only at ht
    rw [unlessFaulted_running h] at ht
    split at ht
    · cases ht; exact .inr (.inr (.inl ⟨.badState, by simp [causesOf], by decide, by decide, rfl⟩))
    · cases ht; exact .inr (.inr (.inl ⟨.badState, by simp [causesOf], by decide, by decide, rfl⟩))
    all_goals
      split at ht
      · cases ht; exact .inr (.inr (.inl ⟨.operandRange, by simp [causesOf], by decide, by decide, rfl⟩))
      · rcases fin (runs_beginFrame _ _ _) ht with h1 | h1
        · exact .inl ⟨rfl, h1⟩
        · exact .inr (.inr (.inr ⟨rfl, by simp [causesOf], h1⟩))
  | lzwPixel p =>
    change execLzwPixel p s = _ at ht
    unfold execLzwPixel at ht
    dsimp only at ht
    rw [unlessFaulted_running h] at ht
    split at ht
    · cases ht; exact .inr (.inr (.inl ⟨.badState, by simp [causesOf], by decide, by decide, rfl⟩))
    · cases ht; exact .inr (.inr (.inl ⟨.badState, by simp [causesOf], by decide, by decide, rfl⟩))
    all_goals
      split at ht
      · cases ht; exact .inr (.inr (.inl ⟨.operandRange, by simp [causesOf], by decide, by decide, rfl⟩))
    · cases ht; exact .inl ⟨rfl, ran_of_eq rfl rfl rfl⟩
    · unfold nextPixel at ht
      dsimp only at ht
      have hg := ran_ctTryGet (s.lzw.cur ++ [p]) s
      split at ht
      · cases ht; exact .inl ⟨rfl, hg.trans (ran_of_eq rfl rfl rfl)⟩
      · split at ht
        · cases ht
        · rcases fin (hg.runs (runs_newMatch _ _ _ _)) ht with h1 | h1
          · exact .inl ⟨rfl, h1⟩
          · exact .inr (.inr (.inr ⟨rfl, by simp [causesOf], h1⟩))
  | lzwEnd =>
    change execLzwEnd s = _ at ht
    unfold execLzwEnd at ht
    dsimp only at ht
    rw [unlessFaulted_running h] at ht
    split at ht
    · cases ht; exact .inr (.inr (.inl ⟨.badState, by simp [causesOf], by decide, by decide, rfl⟩))
    · cases ht; exact .inr (.inr (.inl ⟨.badState, by simp [causesOf], by decide, by decide, rfl⟩))
    · cases ht; exact .inr (.inr (.inl ⟨.emptyFrame, by decide, by decide, by decide, rfl⟩))
    · split at ht
      · cases ht
      · rcases fin (runs_endFrame _ _ _) ht with h1 | h1
        · exact .inl ⟨rfl, h1⟩
        · exact .inr (.inr (.inr ⟨rfl, by simp [causesOf], h1⟩))
  | lzwAbort =>
    change unlessFaulted s _ = _ at ht
    rw [unlessFaulted_running h] at ht
    cases ht; exact .inl ⟨rfl, ran_of_eq rfl rfl rfl⟩
  | ctReset =>
    change unlessFaulted s _ = _ at ht
    rw [unlessFaulted_running h] at ht
    cases ht; exact .inl ⟨rfl, ran_ctReset s⟩
  | ctTryGet pre last =>
    change execCtTryGet pre last s = _ at ht
    unfold execCtTryGet at ht
    rw [unlessFaulted_running h] at ht
    split at ht
    · cases ht; exact .inl ⟨rfl, ran_ctTryGet _ s⟩
    · cases ht
  | ctTryAdd pre last =>
    change execCtTryAdd pre last s = _ at ht
    unfold execCtTryAdd at ht
    rw [unlessFaulted_running h] at ht
    split at ht
    · cases ht
    · split at ht
      · cases ht
      · cases ht; exact .inl ⟨rfl, ran_ctTryAdd _ s⟩
  | bwWriteCode code w =>
    change execBwWriteCode code w s = _ at ht
    unfold execBwWriteCode at ht
    rw [unlessFaulted_running h] at ht
    split at ht
    · rcases fin (sinks_writeCode _ _ s).runs ht with h1 | h1
      · exact .inl ⟨rfl, h1⟩
      · exact .inr (.inr (.inr ⟨rfl, by simp [causesOf], h1⟩))
    · cases ht
  | bwFlush =>
    change execBwFlush s = _ at ht
    unfold execBwFlush at ht
    rw [unlessFaulted_running h] at ht
    rcases fin (sinks_flush s).runs ht with h1 | h1
    · exact .inl ⟨rfl, h1⟩
    · exact .inr (.inr (.inr ⟨rfl, by simp [causesOf], h1⟩))
  | deInit =>
    change execDeInit s = _ at ht
    unfold execDeInit at ht
    rw [unlessFaulted_running h] at ht
    split at ht
    · cases ht; exact .inr (.inr (.inl ⟨.deConfig, by decide, by decide, by decide, rfl⟩))
    · cases ht; exact .inr (.inl ⟨rfl, rfl⟩)
  | deDelta b =>
    rcases delta (deltaFrame_deltaFrame b s) ht with h1 | rfl
    · exact .inr (.inl ⟨rfl, h1⟩)
    · exact .inr (.inr (.inl ⟨.badState, by simp [causesOf], by decide, by decide, rfl⟩))
  | deTrim =>
    rcases delta (deltaFrame_trimFrame _ s) ht with h1 | rfl
    · exact .inr (.inl ⟨rfl, h1⟩)
    · exact .inr (.inr (.inl ⟨.badState, by simp [causesOf], by decide, by decide, rfl⟩))
  | deDispose b =>
    rcases delta (deltaFrame_disposeFrame _ b s) ht with h1 | rfl
    · exact .inr (.inl ⟨rfl, h1⟩)
    · exact .inr (.inr (.inl ⟨.badState, by simp [causesOf], by decide, by decide, rfl⟩))
  | deCommit =>
    rcases delta (deltaFrame_commitFrame s) ht with h1 | rfl
    · exact .inr (.inl ⟨rfl, h1⟩)
    · exact .inr (.inr (.inl ⟨.badState, by simp [causesOf], by decide, by decide, rfl⟩))

/-- What a command word can do: it is ignored, raises `ILLEGAL_CMD`, or is an instruction of the port. -/
theorem command_cases {port : Port} {w : Word} {s t : State} (ht : command port w s = .next t) :
    (¬ s.running ∧ t = s) ∨
    (s.running ∧ port = .commandPort ∧ t = s.raise .illegalCmd w) ∨
    (s.running ∧ ∃ i, decode w = .ok i ∧ i.port = port ∧ exec i s = .next t) := by
  by_cases h : s.running
  · unfold command at ht
    rw [unlessFaulted_running h] at ht
    split at ht
    · rename_i i hd
      split at ht
      · rename_i hp; exact .inr (.inr ⟨h, i, hd, hp, ht⟩)
      · cases ht; exact .inr (.inl ⟨h, rfl, rfl⟩)
    · cases ht; exact .inr (.inl ⟨h, rfl, rfl⟩)
    · rename_i i hd
      split at ht
      · rename_i hp; exact .inr (.inr ⟨h, i, hd, hp, ht⟩)
      · cases ht
    · cases ht
  · unfold command at ht
    rw [unlessFaulted_faulted h] at ht
    cases ht; exact .inl ⟨h, rfl⟩

/-- The host's actions on the inputs. -/
def Hosted (s t : State) : Prop :=
  (∃ cfg, t = { s with cfg := cfg }) ∨
  (∃ a c, t = s.setFrames { s.frames with wb := Memory.write transparent s.frames.wb a c }) ∨
  (∃ a i, t = s.setFrames { s.frames with idx := Memory.write 0 s.frames.idx a i }) ∨
  (∃ a c, t = s.setFrames { s.frames with pal := Memory.write transparent s.frames.pal a c }) ∨
  (∃ a c, t = s.setFrames { s.frames with nxt := Memory.write transparent s.frames.nxt a c }) ∨
  ∃ n v i, t = s.setFrames { s.frames with palN := n, tIdxValid := v, tIdx := i }

/-- What a step can do: nothing; a command; the reset; an action of the host on the inputs. -/
theorem step_cases {s t : State} (ht : step s = .next t) :
    (s.events = [] ∧ t = s) ∨
    ∃ e rest, s.events = e :: rest ∧
      ((∃ port w, e = .command port w ∧ command port w { s with events := rest } = .next t) ∨
        (e = .rst ∧ t = State.takeReset { s with events := rest }) ∨
        ((∃ cfg, e = .configure cfg) ∧ ∃ cfg, t = { s with events := rest, cfg := cfg }) ∨
        ((∀ port w, e ≠ .command port w) ∧ e ≠ .rst ∧ (∀ cfg, e ≠ .configure cfg) ∧ t.cfg = s.cfg ∧
          Hosted { s with events := rest } t)) := by
  unfold step nextEvent at ht
  split at ht
  · rename_i he; cases ht; exact .inl ⟨he, rfl⟩
  · rename_i e rest he
    refine .inr ⟨e, rest, he, ?_⟩
    have can : ∀ {y x f}, onCanvas y x { s with events := rest } f = .next t →
        t = State.setFrames { s with events := rest } f := by
      intro y x f hc
      unfold onCanvas at hc
      split at hc <;> cases hc
      rfl
    cases e with
    | command port w => exact .inl ⟨port, w, rfl, ht⟩
    | rst => cases ht; exact .inr (.inl ⟨rfl, rfl⟩)
    | configure cfg => cases ht; exact .inr (.inr (.inl ⟨⟨cfg, rfl⟩, cfg, rfl⟩))
    | writeWb y x c =>
      have := can ht
      exact .inr (.inr (.inr ⟨by simp, by simp, by simp, by rw [this]; rfl, .inr (.inl ⟨_, _, this⟩)⟩))
    | writeIdx y x i =>
      have := can ht
      exact .inr (.inr (.inr ⟨by simp, by simp, by simp, by rw [this]; rfl, .inr (.inr (.inl ⟨_, _, this⟩))⟩))
    | writePal i c =>
      cases ht
      exact .inr (.inr (.inr ⟨by simp, by simp, by simp, rfl, .inr (.inr (.inr (.inl ⟨_, _, rfl⟩)))⟩))
    | writeNxt y x c =>
      have := can ht
      exact .inr (.inr (.inr ⟨by simp, by simp, by simp, by rw [this]; rfl,
        .inr (.inr (.inr (.inr (.inl ⟨_, _, this⟩))))⟩))
    | describePalette n v i =>
      cases ht
      exact .inr (.inr (.inr ⟨by simp, by simp, by simp, rfl, .inr (.inr (.inr (.inr (.inr ⟨_, _, _, rfl⟩))))⟩))

end Sys2Proof.Machine
end

