-- ==== Sys2Proof/Tests/Slice0.lean ====
section
/-! SUPPORT. Tests of the model against the vectors of `95_test_vectors.md` and the worked examples of the rules, and a witness for the
hypotheses of every statement. -/

namespace Sys2Proof.Tests

open Sys2Proof.Machine

/-! ### WellFormed: ill-formed terms are refused -/

theorem test_begin_zero_illFormed : (Instr.lzwBegin 0).wellFormed = false := by decide
theorem test_begin_257_illFormed : (Instr.lzwBegin 257).wellFormed = false := by decide
theorem test_begin_256_wellFormed : (Instr.lzwBegin 256).wellFormed = true := by decide
theorem test_writeCode_zero_illFormed : (Instr.bwWriteCode 4 0).wellFormed = false := by decide
theorem test_writeCode_13_illFormed : (Instr.bwWriteCode 4 13).wellFormed = false := by decide
theorem test_writeCode_12_wellFormed : (Instr.bwWriteCode 4 12).wellFormed = true := by decide

/-! ### Decode: words written out from R70 and R72 to R76, field by field -/

theorem test_decode_begin : decode 0b0001_0000_000000000000000_100000000 = .ok (.lzwBegin 256) := by decide
theorem test_decode_pixel : decode 0b0001_0001_0000000000000000_11001000 = .ok (.lzwPixel 200) := by decide
theorem test_decode_end : decode 0b0001_0010_000000000000000000000000 = .ok .lzwEnd := by decide
theorem test_decode_abort : decode 0b0001_0011_000000000000000000000000 = .ok .lzwAbort := by decide
theorem test_decode_ctReset : decode 0b0010_0000_000000000000000000000000 = .ok .ctReset := by decide
theorem test_decode_tryGet : decode 0b0010_0001_0000_000000000110_00000010 = .ok (.ctTryGet 6 2) := by decide
theorem test_decode_tryAdd : decode 0b0010_0010_0000_100000000001_01000001 = .ok (.ctTryAdd 0x801 0x41) := by decide
theorem test_decode_writeCode : decode 0b0011_0000_00000000_0100_000000000101 = .ok (.bwWriteCode 5 4) := by decide
theorem test_decode_flush : decode 0b0011_0001_000000000000000000000000 = .ok .bwFlush := by decide
theorem test_decode_init : decode 0b0100_0000_000000000000000000000000 = .ok .deInit := by decide
theorem test_decode_delta : decode 0b0100_0001_00000000000000000000000_1 = .ok (.deDelta 1) := by decide
theorem test_decode_trim : decode 0b0100_0010_000000000000000000000000 = .ok .deTrim := by decide
theorem test_decode_dispose : decode 0b0100_0011_00000000000000000000000_1 = .ok (.deDispose 1) := by decide
theorem test_decode_commit : decode 0b0100_0100_000000000000000000000000 = .ok .deCommit := by decide

/-- Illegal words of VF9, VF10, VF22, VF23 and R70. -/
theorem test_decode_illegal :
    decode 0x10000200 = .error .mustBeZero ∧ decode 0x11000100 = .error .mustBeZero ∧
    decode 0x12000001 = .error .mustBeZero ∧ decode 0x14000000 = .error .noSuchOp ∧
    decode 0x00000000 = .error .noSuchUnit ∧ decode 0x50000000 = .error .noSuchUnit ∧
    decode 0xFFFFFFFF = .error .noSuchUnit := by decide

/-- The rows of R72 do not overlap. -/
theorem test_rows_disjoint :
    opRows.Pairwise fun r r' => r.pattern &&& r'.mask ≠ r'.pattern &&& r.mask := by decide

theorem test_decodeTableWord :
    decodeTableWord 32 0x10000002 = some (.lzwBegin 2) ∧ decodeTableWord 32 0x14000000 = none := by decide

/-- The word placed by the host's interface is the next command, on its port. -/
theorem test_withFetchWord :
    (State.reset.withFetchWord 32 0x10000002).events = [.command .commandPort 0x10000002] ∧
    (State.reset.withFetchWord 32 0x20000000).events = [.command .internalBus 0x20000000] := by decide

/-! ### Helpers -/

/-- The next state, if there is one. -/
def next? : Answer → Option State
  | .next t => some t
  | _ => none

/-- `f` of the state after the instruction. -/
def after {α : Type} (i : Instr) (s : State) (f : State → α) : Option α := (next? (exec i s)).map f

/-- The state after reset with an encoder in the middle of a frame. -/
def enc (st : LzwSt) (cur : IndexSeq) (bw : BitWriter) (ct : CodeTable) (out : List Byte) : State :=
  { State.reset with lzw := ⟨st, cur⟩, bw := bw, ct := ct, out := out }

/-- P1 after `LZW.BEGIN 2`. -/
def p1Begun : State := enc .first [] ⟨4, 3, [], 0⟩ ⟨2, 3, 6, [], false, 0, false⟩ [0x02]
/-- P1 after three pixels, `CT.tab = {[0,1] -> 6}`. -/
def p1Second : State := enc .run [1] ⟨4, 6, [], 0⟩ ⟨2, 3, 7, [([0, 1], 6)], false, 0, true⟩ [0x02]
/-- P1 after its fourth command, `CT.tab = {[0,1] -> 6, [1,1] -> 7}`. -/
def p1Third : State := enc .run [1] ⟨0, 1, [0x44], 1⟩ ⟨2, 3, 8, [([0, 1], 6), ([1, 1], 7)], false, 0, true⟩ [0x02]
/-- P1 after its fifth command. -/
def p1Fourth : State :=
  enc .run [0] ⟨2, 4, [0x44], 1⟩ ⟨2, 4, 9, [([0, 1], 6), ([1, 1], 7), ([1, 0], 8)], false, 0, true⟩ [0x02]
/-- A state with a full table, of which one pair is shown. -/
def fullTable : State := enc .run [1] .empty ⟨2, 12, 4096, [([0, 1], 6)], false, 0, true⟩ []

/-! ### The encoder -/

/-- R142, P1. -/
theorem test_begin : after (.lzwBegin 2) State.reset (fun t => (t.lzw.st, t.bw, t.out)) =
    some (.first, ⟨4, 3, [], 0⟩, [0x02]) := by decide

/-- R142: `CT.mcs = 8` stages the byte `00`; R130: a frame begun in `DONE` starts afresh. -/
theorem test_begin_256 : after (.lzwBegin 256) { p1Fourth with lzw := ⟨.done, [0]⟩ }
      (fun t => (t.bw, t.ct)) = some (⟨1, 1, [0x00], 1⟩, ⟨8, 9, 258, [], false, 0, true⟩) := by decide

/-- P1, fifth command: the code goes out at the width before the addition that grows it. -/
theorem test_pixel_grows : after (.lzwPixel 0) p1Third (fun t => (t.lzw.cur, t.bw, t.ct.width, t.ct.next)) =
      some ([0], ⟨2, 4, [0x44], 1⟩, 4, 9) ∧
    after (.lzwPixel 0) p1Third (fun t => t.ct.tab) = some [([0, 1], 6), ([1, 1], 7), ([1, 0], 8)] := by decide

/-- R144: a miss on a full table emits the match's code and `ClearCode`, both at width 12, and resets. -/
theorem test_pixel_full : after (.lzwPixel 2) fullTable (fun t => (t.lzw.cur, t.bw, t.ct.width, t.ct.next)) =
      some ([2], ⟨0, 0, [0x01, 0x40, 0x00], 3⟩, 3, 6) ∧
    after (.lzwPixel 2) fullTable (fun t => t.ct.tab) = some [] := by decide

/-- P1, last command. -/
theorem test_end : after .lzwEnd p1Fourth (fun t => (t.lzw.st, t.bw, t.out)) =
    some (.done, ⟨0, 0, [], 0⟩, [0x02, 0x03, 0x44, 0x02, 0x05, 0x00]) := by decide

/-- VF3. -/
theorem test_end_empty : after .lzwEnd p1Begun (fun t => (t.flt, t.lzw.st, t.out)) =
    some (⟨.emptyFrame, 0x12000000⟩, .first, [0x02]) := by decide

/-- P5: the six buffered bits are lost, and the sink keeps its byte. -/
theorem test_abort : after .lzwAbort p1Second (fun t => (t.lzw.st, t.bw, t.ct, t.out)) =
    some (.idle, ⟨0, 0, [], 0⟩, ⟨2, 3, 7, [], false, 0, true⟩, [0x02]) := by decide

/-- VF14: the sub-block's burst fails after two bytes. -/
theorem test_end_sinkFails : after .lzwEnd { p1Fourth with sinkFail := [.failed 2] } (fun t => (t.flt, t.out)) =
    some (⟨.sinkIo, 0x12000000⟩, [0x02, 0x03, 0x44]) := by decide

/-- VF20 and VF5: the state is checked first, then the operand. -/
theorem test_pixel_checks :
    after (.lzwPixel 200) State.reset (fun t => t.flt) = some ⟨.badState, 0x110000C8⟩ ∧
    after (.lzwPixel 4) p1Begun (fun t => t.flt) = some ⟨.operandRange, 0x11000004⟩ := by decide

/-! ### The Code Table -/

/-- R120, worked example. -/
theorem test_ctReset : after .ctReset fullTable (fun t => t.ct) = some ⟨2, 3, 6, [], false, 0, true⟩ := by decide

/-- R121, worked example: `[1,1]` and `[0,1,1]` (`0x21000101`, `0x21000601`). -/
theorem test_tryGet :
    after (.ctTryGet 1 1) p1Third (fun t => (t.ct.hit, t.ct.codeQ)) = some (true, 7) ∧
    after (.ctTryGet 6 1) p1Third (fun t => t.ct.hit) = some false := by decide

/-- R124, worked example (`0x22000100`). -/
theorem test_tryAdd : after (.ctTryAdd 1 0) p1Third (fun t => t.ct) =
    some ⟨2, 4, 9, [([0, 1], 6), ([1, 1], 7), ([1, 0], 8)], false, 0, true⟩ := by decide

/-- R124, corner case (d). -/
theorem test_tryAdd_full : after (.ctTryAdd 1 0) fullTable (fun t => t.ct) =
    some ⟨2, 12, 4096, [([0, 1], 6)], false, 0, false⟩ := by decide

/-! ### The Bit Writer -/

/-- R100, worked example, third write. -/
theorem test_writeCode : after (.bwWriteCode 1 3) { State.reset with bw := ⟨4, 6, [], 0⟩ } (fun t => (t.bw, t.out)) =
    some (⟨0, 1, [0x44], 1⟩, []) := by decide

/-- R100, corner case (a): the high bits of `code` are dropped. -/
theorem test_writeCode_drops : after (.bwWriteCode 0xFFF 4) State.reset (fun t => t.bw) = some ⟨0xF, 4, [], 0⟩ := by decide

/-- R104, worked example: VB4. -/
theorem test_flush : after .bwFlush { State.reset with bw := ⟨5, 4, [0x44, 0x02], 2⟩ } (fun t => (t.bw, t.out)) =
    some (⟨0, 0, [], 0⟩, [0x03, 0x44, 0x02, 0x05, 0x00]) := by decide

/-- VB1. -/
theorem test_flush_empty : after .bwFlush State.reset (fun t => t.out) = some [0x00] := by decide

/-! ### The delta engine: family D of the vectors, colours `A`, `B`, `T`, canvas 3 by 2 -/

/-- `[[a, b, c], [d, e, f]]` as a memory. -/
def grid {α : Type} [DecidableEq α] (z : α) (rows : List (List α)) : List (Nat × α) :=
  (rows.zipIdx.flatMap fun r => r.1.zipIdx.map fun c => (Memory.pixel r.2 c.2, c.1)).filter fun e => e.2 ≠ z

def A : Color := 0xFFFF0000
def B : Color := 0xFF00FF00
def T : Color := 0x00000000

/-- The canvas and palette of family D. -/
def canvas32 (step : DeStep) (rb wb nxt : List (List Color)) (idx : List (List Byte)) : State :=
  { State.reset with
    cfg := ⟨3, 2, true, true, 128, false, false, false⟩
    frames := ⟨grid T wb, grid 0 idx, grid T [[A, B, T]], 3, true, 2, grid T nxt⟩
    de := ⟨grid T rb, true, true, false, step, 0, 0, 3, 2, .unspecified⟩ }

def shown : List (List Color) := [[A, A, B], [A, B, B]]
def clear : List (List Byte) := [[2, 2, 2], [2, 2, 2]]

/-- VD1. -/
theorem test_init : after .deInit (canvas32 .trimmed shown [] [] clear)
      (fun t => (t.de.rb, t.de.havePrev, t.de.rbCleared, t.de.step, t.de.ready)) =
    some ([], false, true, .frameOpen, true) := by decide

/-- VF17. -/
theorem test_init_noCanvas : after .deInit { State.reset with cfg := { Cfg.initial with w := 0 } } (fun t => (t.flt, t.de.ready)) =
    some (⟨.deConfig, 0x40000000⟩, false) := by decide

/-- VD3. -/
theorem test_delta : after (.deDelta 0) (canvas32 .frameOpen shown [[A, B, B], [A, B, A]] [] clear) (fun t => t.frames.wb) =
    some (grid T [[T, B, T], [T, T, A]]) := by decide

/-- VD6. -/
theorem test_delta_indexed : after (.deDelta 1) (canvas32 .frameOpen shown [] [] [[0, 1, 1], [0, 1, 0]])
      (fun t => t.frames.idx) = some (grid 0 [[2, 1, 2], [2, 2, 0]]) := by decide

/-- VD7. -/
theorem test_trim : after .deTrim (canvas32 .frameOpen shown [] [] [[2, 1, 2], [2, 2, 0]])
      (fun t => (t.de.locX, t.de.locY, t.de.frW, t.de.frH, t.de.step)) = some (1, 0, 2, 2, .trimmed) := by decide

/-- VD8. -/
theorem test_trim_clear : after .deTrim (canvas32 .frameOpen shown [] [] clear)
      (fun t => (t.de.locX, t.de.locY, t.de.frW, t.de.frH)) = some (1, 1, 1, 1) := by decide

/-- VD13. -/
theorem test_dispose : after (.deDispose 1) (canvas32 .trimmed shown [] [[A, A, T], [A, B, B]] clear)
      (fun t => (t.de.disp, t.de.rb, t.de.rbCleared, t.de.step)) = some (.restoreBackground, [], true, .decided) := by decide

/-- VD16: alpha 128 is opaque at a threshold of 128. -/
theorem test_dispose_threshold :
    after (.deDispose 1) (canvas32 .trimmed shown [] [[A, A, 0x8000FF00], [A, B, B]] clear) (fun t => t.de.disp) =
      some .doNotDispose ∧
    after (.deDispose 1) (canvas32 .trimmed shown [] [[A, A, 0x7F00FF00], [A, B, B]] clear) (fun t => t.de.disp) =
      some .restoreBackground := by decide

/-- VD18. -/
theorem test_commit :
    let s := canvas32 .decided shown [] [] [[2, 1, 2], [2, 2, 0]]
    after .deCommit { s with de := { s.de with locX := 1, locY := 0, frW := 2, frH := 2, disp := .doNotDispose } }
      (fun t => (t.de.rb, t.de.havePrev, t.de.rbCleared, t.de.step)) =
    some (grid T [[A, B, B], [A, B, A]], true, false, .frameOpen) := by decide

/-- VD19. -/
theorem test_commit_disposed :
    let s := canvas32 .decided [] [] [] [[2, 1, 2], [2, 2, 0]]
    after .deCommit { s with de := { s.de with disp := .restoreBackground, rbCleared := true } }
      (fun t => (t.de.rb, t.de.havePrev, t.de.rbCleared)) = some ([], true, true) := by decide

/-- The delay table of R186, `P_ZERO_DELAY_TICKS = 10`: 0, 0.5, 10 and 70000 hundredths. -/
theorem test_delay :
    normDelay Config.params { Cfg.initial with zeroDelayDefault := true } 0 1 = some 10 ∧
    normDelay Config.params Cfg.initial 0 1 = some 0 ∧ normDelay Config.params Cfg.initial 1 2 = some 1 ∧
    normDelay Config.params Cfg.initial 10 1 = some 10 ∧
    normDelay Config.params Cfg.initial 70000 1 = some 65535 := by decide

/-! ### Steps -/

/-- VF10: `CT.RESET` from outside. -/
theorem test_step_external :
    (next? (step { State.reset with events := [.command .commandPort 0x20000000] })).map (fun t => t.flt) =
      some ⟨.illegalCmd, 0x20000000⟩ := by decide

/-- P4: the fault sticks. -/
theorem test_step_sticky :
    (next? (step { State.reset with flt := ⟨.operandRange, 0x11000007⟩, events := [.command .commandPort 0x13000000] })).map
      (fun t => (t.flt, t.events)) = some (⟨.operandRange, 0x11000007⟩, []) := by decide

/-- The reset input clears the fault (R230). -/
theorem test_step_reset :
    (next? (step { p1Second with flt := ⟨.operandRange, 0x11000007⟩, events := [.rst] })).map
      (fun t => (t.flt, t.lzw.st, t.out)) = some (⟨.none, 0⟩, .idle, []) := by decide

/-! ### Witnesses: for every statement, states and operands that meet its hypotheses, for each of its clauses -/

theorem accepts {s : State} (h : s.sinkFail = []) : s.sinkAccepts := fun a ha => by rw [h] at ha; cases ha

theorem reset_encoderOk : State.reset.encoderOk := by
  unfold State.encoderOk BitWriter.ok CodeTable.ok CodeTable.tabOk State.matchOk CodeTable.has; decide
theorem p1Begun_encoderOk : p1Begun.encoderOk := by
  unfold State.encoderOk BitWriter.ok CodeTable.ok CodeTable.tabOk State.matchOk CodeTable.has; decide
theorem p1Third_encoderOk : p1Third.encoderOk := by
  unfold State.encoderOk BitWriter.ok CodeTable.ok CodeTable.tabOk State.matchOk CodeTable.has; decide
theorem p1Third_units : p1Third.bw.ok ∧ p1Third.ct.ok ∧ p1Third.ct.mapOk := by
  unfold BitWriter.ok CodeTable.ok CodeTable.mapOk; decide
theorem p1Third_fits : p1Third.fits := by unfold State.fits; decide
theorem p1Third_miss : ∀ d, (p1Third.lzw.cur ++ [0], d) ∉ p1Third.ct.tab := by simp [p1Third, enc]
theorem p1Third_memoriesWf : p1Third.memoriesWf := by unfold State.memoriesWf; decide

/-- A dictionary of `n` pairs: the runs of index 0. -/
@[irreducible] def runs (n : Nat) : List (IndexSeq × Nat) := (List.range n).map fun k => (List.replicate (k + 2) 0, 6 + k)

theorem mem_runs {n : Nat} {e : IndexSeq × Nat} : e ∈ runs n ↔ ∃ k < n, e = (List.replicate (k + 2) 0, 6 + k) := by
  unfold runs
  simp [eq_comm]

theorem runs_tabOk {n w : Nat} (h : 6 + n ≤ 2 ^ w) : CodeTable.tabOk ⟨2, w, 6 + n, runs n, false, 0, true⟩ := by
  refine ⟨?_, ?_, ?_, ?_⟩
  · show (runs n).map Prod.snd = List.range' 6 (6 + n - 6)
    rw [runs, List.map_map, List.range'_eq_map_range, Nat.add_sub_cancel_left]
    rfl
  · show ((runs n).map Prod.fst).Nodup
    rw [runs, List.map_map]
    refine List.Nodup.map (fun a b h => ?_) List.nodup_range
    have := congrArg List.length h
    simpa using this
  · intro e he
    obtain ⟨k, hk, rfl⟩ := mem_runs.1 he
    rw [Nat.one_shiftLeft]
    show 6 + k < 2 ^ w
    omega
  · intro e he
    obtain ⟨k, hk, rfl⟩ := mem_runs.1 he
    refine ⟨by simp, ?_⟩
    cases k with
    | zero => exact .inl rfl
    | succ k => exact .inr (List.mem_map.2 ⟨(List.replicate (k + 2) 0, 6 + k), mem_runs.2 ⟨k, by omega, rfl⟩, by simp [List.replicate_succ]⟩)

/-- A state with a full dictionary, in the middle of a frame. -/
def fullState : State := enc .run [1] ⟨0, 0, [], 0⟩ ⟨2, 12, 6 + 4090, runs 4090, false, 0, true⟩ [0x02]

theorem fullState_tabOk : fullState.ct.tabOk := runs_tabOk (by decide)

theorem fullState_encoderOk : fullState.encoderOk := fun _ =>
  ⟨by unfold BitWriter.ok; decide, by unfold CodeTable.ok; decide, fun _ => fullState_tabOk, fun _ => ⟨.inl rfl, by decide⟩⟩

theorem fullState_miss : ∀ d, ([1, 1], d) ∉ fullState.ct.tab := fun d h => by
  obtain ⟨k, -, hk⟩ := mem_runs.1 h
  have := congrArg (fun e : IndexSeq × Nat => e.1.head?) hk
  simp [List.replicate_succ] at this

theorem witness_DecodedWordsAreTheirEncodings : decode 0x100001FF = .ok (.lzwBegin 511) := by decide

theorem witness_DecoderFollowsTheOperationMap :
    (∃ r ∈ opRows, r.selects 0x13000000 = true) ∧ decode 0x100001FF = .ok (.lzwBegin 511) ∧
    decode 0x110000FF = .ok (.lzwPixel 255) ∧ decode 0x210FFFFF = .ok (.ctTryGet 4095 255) ∧
    decode 0x220FFFFF = .ok (.ctTryAdd 4095 255) ∧ decode 0x3000FFFF = .ok (.bwWriteCode 4095 15) ∧
    decode 0x41000001 = .ok (.deDelta 1) ∧ decode 0x43000001 = .ok (.deDispose 1) := by decide

theorem witness_WordsOutsideTheMapAreIllegal :
    (∀ r ∈ opRows, r.selects 0x50000000 = false) ∧
    (0x00000000#32).extractLsb' 28 4 = 0 ∧ 5 ≤ ((0x50000000#32).extractLsb' 28 4).toNat ∧
    ((0x14000000#32).extractLsb' 28 4 = 1 ∧ 4 ≤ ((0x14000000#32).extractLsb' 24 4).toNat) ∧
    ((0x23000000#32).extractLsb' 28 4 = 2 ∧ 3 ≤ ((0x23000000#32).extractLsb' 24 4).toNat) ∧
    ((0x32000000#32).extractLsb' 28 4 = 3 ∧ 2 ≤ ((0x32000000#32).extractLsb' 24 4).toNat) ∧
    ((0x45000000#32).extractLsb' 28 4 = 4 ∧ 5 ≤ ((0x45000000#32).extractLsb' 24 4).toNat) := by decide

theorem witness_StepRunsTheDecodedCommand :
    let s : State := { State.reset with events := [.command .commandPort 0x10000002] }
    s.running ∧ decode 0x10000002 = .ok (.lzwBegin 2) ∧
      s.events = .command (Instr.lzwBegin 2).port 0x10000002 :: [] := by decide

theorem witness_IllegalWordsFault :
    (let s : State := { State.reset with events := [.command .commandPort 0x14000000] };
      s.running ∧ s.events = .command .commandPort 0x14000000 :: [] ∧
      ∀ r ∈ opRows, r.selects 0x14000000 = true → r.port = .internalBus) ∧
    ∀ r ∈ opRows, r.selects 0x30003004 = true → r.port = .internalBus := by decide

theorem witness_OtherWordsOnTheBusAreRefused :
    (let s : State := { State.reset with events := [.command .internalBus 0x10000002] };
      s.running ∧ s.events = .command .internalBus 0x10000002 :: [] ∧
      ∀ r ∈ opRows, r.selects 0x10000002 = true → r.port = .commandPort) ∧
    ∀ r ∈ opRows, r.selects 0x00000000 = true → r.port = .commandPort := by decide

/-- P1 in the fault state of P4. -/
def faulted (events : List HostEvent) : State :=
  { p1Third with flt := ⟨.operandRange, 0x11000007⟩, events := events }

theorem witness_FaultStateIgnoresEveryCommand :
    ¬ (faulted [.command .commandPort 0x40000000]).running ∧
    (faulted [.command .commandPort 0x40000000]).events = .command .commandPort 0x40000000 :: [] := by decide

theorem witness_OnlyResetLeavesTheFaultState :
    (¬ (faulted [.rst]).running ∧ (faulted [.rst]).events.head? = some .rst ∧ ∃ t, step (faulted [.rst]) = .next t) ∧
    ¬ (faulted [.command .commandPort 0x40000000]).running ∧
    (faulted [.command .commandPort 0x40000000]).events.head? ≠ some .rst ∧
    ∃ t, step (faulted [.command .commandPort 0x40000000]) = .next t :=
  ⟨⟨by decide, by decide, _, rfl⟩, by decide, by decide, _, rfl⟩

theorem witness_ResetGivesTheStatedValues : (faulted [.rst]).events = .rst :: [] := by decide

theorem witness_HostActionsChangeOnlyTheInputs :
    (∃ t, step (faulted [.rst]) = .next t) ∧ (∃ t, step (faulted [.configure Cfg.initial]) = .next t) ∧
    ∃ t, step (faulted [.writeWb 0 0 A]) = .next t := ⟨⟨_, rfl⟩, ⟨_, rfl⟩, _, rfl⟩

theorem witness_IdleBlockHoldsItsState : p1Third.events = [] := by decide

/-- VF5, a fault found by a check. -/
theorem witness_CheckFaultsChangeOnlyTheFaultRegisters :
    ∃ t, p1Begun.running ∧ exec (.lzwPixel 4) p1Begun = .next t ∧ ¬ t.running ∧ t.flt.cause ≠ .sinkIo :=
  ⟨_, by decide, rfl, by decide, by decide⟩

/-- VF14, and the same command with an accepting sink. -/
theorem witness_SinkFailureRaisesSinkIo :
    (∃ t, exec .lzwEnd { p1Fourth with sinkFail := [.failed 2] } = .next t ∧ t.flt.cause = .sinkIo) ∧
    ∃ t, exec .lzwEnd p1Fourth = .next t ∧ t.flt.cause ≠ .sinkIo := ⟨⟨_, rfl, rfl⟩, _, rfl, by decide⟩

theorem witness_CommandsRaiseOnlyTheirCauses : ∃ t, p1Begun.running ∧ exec .lzwEnd p1Begun = .next t :=
  ⟨_, by decide, rfl⟩

theorem witness_SinkIsAppendOnly : ∃ t, exec .lzwEnd p1Fourth = .next t := ⟨_, rfl⟩

theorem witness_UnitsShareNoState :
    (∃ t, exec .lzwEnd p1Fourth = .next t) ∧
    (∃ t, exec (.deDelta 0) (canvas32 .frameOpen shown shown [] clear) = .next t) ∧
    ∃ t, exec (.deDelta 1) (canvas32 .frameOpen shown shown [] clear) = .next t := ⟨⟨_, rfl⟩, ⟨_, rfl⟩, _, rfl⟩

theorem witness_StatusPortShowsEveryRegister : p1Third.fits := p1Third_fits

theorem witness_StepKeepsRegistersInRange :
    ∃ t, p1Third.fits ∧ p1Third.unitsOk ∧ p1Third.memoriesWf ∧
      step { p1Third with events := [.command .commandPort 0x11000000] } = .next t :=
  ⟨_, p1Third_fits, fun _ => p1Third_units, p1Third_memoriesWf, rfl⟩

theorem witness_StepKeepsTheDictionaryInOrder :
    ∃ s t : State, s.encoderOk ∧ s.busQuiet ∧ s.events = [.command .commandPort 0x11000000] ∧ step s = .next t :=
  ⟨{ p1Third with events := [.command .commandPort 0x11000000] }, _, p1Third_encoderOk,
    fun w h => (by simp at h), rfl, rfl⟩

/-- VD7. -/
theorem witness_StepKeepsTheClipInTheCanvas :
    ∃ s t : State, s.deltaOk ∧ s.cfgHeld ∧ step s = .next t ∧ s.events = [.command .commandPort 0x42000000] :=
  ⟨{ canvas32 .frameOpen shown shown [] clear with events := [.command .commandPort 0x42000000] }, _,
    fun _ => ⟨by decide, fun _ h => absurd rfl h, by decide, by decide⟩,
    fun w h => (by simp at h), rfl, rfl⟩

theorem witness_WriteCodeAppendsItsBits :
    p1Third.running ∧ p1Third.bw.ok ∧ p1Third.sinkAccepts ∧ 1 ≤ (12 : BitVec 4).toNat ∧ (12 : BitVec 4).toNat ≤ 12 :=
  ⟨by decide, p1Third_units.1, accepts rfl, by decide, by decide⟩

theorem witness_ReservedWidthsAreRefused :
    State.reset.running ∧ (0 : BitVec 4) = 0 ∧ 13 ≤ (13 : BitVec 4).toNat := by decide

theorem witness_FlushDrainsAndTerminates : p1Third.running ∧ p1Third.bw.ok ∧ p1Third.sinkAccepts :=
  ⟨by decide, p1Third_units.1, accepts rfl⟩

/-- A frame whose staging buffer holds 254 bytes, with a small dictionary and with a full one. -/
def staged (acc : BitVec 32) (nbits : Nat) (s : State) : State := { s with bw := ⟨acc, nbits, List.replicate 254 0, 254⟩ }

theorem staged_ok {acc : BitVec 32} {nbits : Nat} {s : State} (hn : nbits ≤ 7) (ha : acc.toNat < 1 <<< nbits) :
    (staged acc nbits s).bw.ok := ⟨hn, ha, le_rfl, List.length_replicate⟩

theorem staged_encoderOk {acc : BitVec 32} {nbits : Nat} {s : State} (h : s.encoderOk) (hf : s.flt.cause ≠ .sinkIo)
    (hn : nbits ≤ 7) (ha : acc.toNat < 1 <<< nbits) : (staged acc nbits s).encoderOk := fun _ => ⟨staged_ok hn ha, (h hf).2⟩

theorem staged_fills {acc : BitVec 32} {nbits : Nat} {s : State} {bits : List Bool} {b : Byte}
    (h : bitsOf b.toNat 8 <+: bitsOf acc.toNat nbits ++ bits) :
    (staged acc nbits s).fills bits (List.replicate 254 0 ++ [b]) := by
  refine ⟨by rw [List.length_append, List.length_replicate]; rfl, ?_⟩
  rw [bitsOfBytes_append, bitsOfBytes_singleton, BitWriter.pending, List.append_assoc]
  exact List.prefix_append_right_inj _ |>.2 h

/-- The burst of `LZW.BEGIN` (`k` is 0); the 255th byte in `BW.WRITE_CODE`, in a miss on a growing table and on a full one. -/
theorem witness_FailedBurstLandsInPart :
    (let s : State := { State.reset with sinkFail := [.failed 0] };
      s.running ∧ s.lzw.st = .idle ∧ 1 ≤ (256 : BitVec 9).toNat ∧ (256 : BitVec 9).toNat ≤ 256 ∧
      0 < [BitVec.ofNat 8 (minCodeSize (256 : BitVec 9).toNat)].length ∧ s.sinkFail = [] ++ .failed 0 :: []) ∧
    (let s := staged 1 1 { p1Third with sinkFail := [.failed 255] };
      s.running ∧ s.encoderOk ∧ s.bw.ok ∧ s.fills (bitsOf 0x7F 7) (List.replicate 254 0 ++ [0xFF]) ∧
      255 < (fullBlock (List.replicate 254 0 ++ [0xFF])).length ∧ s.sinkFail = [] ++ .failed 255 :: [] ∧
      s.lzw.st = .run) ∧
    (let s := staged 0x7F 7 p1Third;
      s.encoderOk ∧ (0 : Byte).toNat < 2 ^ s.ct.mcs ∧ (∀ d, (s.lzw.cur ++ [0], d) ∉ s.ct.tab) ∧
      s.ct.coded s.lzw.cur 1 ∧ s.ct.next < 4096 ∧ s.fills (bitsOf 1 s.ct.width) (List.replicate 254 0 ++ [0xFF])) ∧
    let s := staged 0 0 fullState
    s.encoderOk ∧ (∀ d, (s.lzw.cur ++ [1], d) ∉ s.ct.tab) ∧ s.ct.coded s.lzw.cur 1 ∧ ¬ s.ct.next < 4096 ∧
      s.fills (bitsOf 1 12 ++ bitsOf (2 ^ s.ct.mcs) 12) (List.replicate 254 0 ++ [0x01]) :=
  ⟨by decide,
    ⟨rfl, staged_encoderOk p1Third_encoderOk (by decide) (by decide) (by decide), staged_ok (by decide) (by decide),
      staged_fills (by decide), by rw [fullBlock, List.length_cons, List.length_append, List.length_replicate]; decide, rfl, rfl⟩,
    ⟨staged_encoderOk p1Third_encoderOk (by decide) (by decide) (by decide), by decide, p1Third_miss,
      .inl ⟨1, rfl, rfl⟩, by decide, staged_fills (by decide)⟩,
    staged_encoderOk fullState_encoderOk (by decide) (by decide) (by decide), fullState_miss, .inl ⟨1, rfl, rfl⟩, by decide,
      staged_fills (by decide)⟩

/-- The bursts of `LZW.END` (VF14, and the terminator after the accepted sub-block) and of `BW.FLUSH` with and without data, and a frame
whose end needs two sub-blocks. -/
theorem witness_FailedBurstLandsInPart_closing :
    (let s : State := { p1Fourth with sinkFail := [.failed 2] };
      s.running ∧ s.encoderOk ∧ s.lzw.st = .run ∧ s.ct.coded s.lzw.cur 0 ∧
      s.packs (bitsOf 0 s.ct.width ++ bitsOf (2 ^ s.ct.mcs + 1) s.ct.width) [0x44, 0x02, 0x05] ∧
      closingBursts [0x44, 0x02, 0x05] = [] ++ [0x03, 0x44, 0x02, 0x05] :: [[0x00]] ∧
      2 < ([0x03, 0x44, 0x02, 0x05] : List Byte).length ∧ s.sinkFail = [] ++ .failed 2 :: []) ∧
    (let s : State := { p1Fourth with sinkFail := [.accepted, .failed 0] };
      closingBursts [0x44, 0x02, 0x05] = [[0x03, 0x44, 0x02, 0x05]] ++ [0x00] :: [] ∧ 0 < ([0x00] : List Byte).length ∧
      s.sinkFail = List.replicate 1 .accepted ++ .failed 0 :: []) ∧
    (let s := staged 0 0 fullState;
      s.packs (bitsOf 1 12 ++ bitsOf (2 ^ s.ct.mcs + 1) 12) (List.replicate 254 0 ++ [0x01, 0x50, 0x00]) ∧ s.ct.width = 12) ∧
    (let s : State := { p1Third with sinkFail := [.failed 2] };
      s.running ∧ s.bw.ok ∧ closingBursts s.bw.lastData = [] ++ [0x02, 0x44, 0x00] :: [[0x00]]) ∧
    let s : State := { State.reset with sinkFail := [.failed 0] }
    s.running ∧ s.bw.ok ∧ closingBursts s.bw.lastData = [] ++ [0x00] :: [] :=
  ⟨⟨rfl, by unfold State.encoderOk BitWriter.ok CodeTable.ok CodeTable.tabOk State.matchOk CodeTable.has; decide, rfl,
      .inl ⟨0, rfl, rfl⟩, ⟨4, by decide, by decide⟩, by decide, by decide, rfl⟩, by decide,
    ⟨⟨0, by decide, by
      rw [bitsOfBytes_append, BitWriter.pending, List.append_assoc, List.append_assoc]
      exact congrArg _ (by decide)⟩, rfl⟩,
    ⟨rfl, p1Third_units.1, by decide⟩, rfl, (reset_encoderOk (by decide)).1, by decide⟩

theorem witness_CodeStreamIsPackedIntoSubBlocks :
    State.reset.running ∧ State.reset.bw = ⟨0, 0, [], 0⟩ ∧ State.reset.sinkAccepts ∧
    ∀ e ∈ [((4 : BitVec 12), (1 : BitVec 4)), (0xFFF, 12)], 1 ≤ e.2.toNat ∧ e.2.toNat ≤ 12 :=
  ⟨by decide, rfl, accepts rfl, by simp⟩

theorem witness_TableResetStartsAClearCycle : fullState.running := rfl

/-- The lookups of `[1] ++ [1]`, which is stored, of `[1] ++ [0]` and of `[0,1] ++ [3]`, which are not. -/
theorem witness_LookupIsByContent :
    (p1Third.running ∧ p1Third.ct.mapOk ∧ p1Third.ct.spells (1 : BitVec 12).toNat [1] ∧ (1 : Byte).toNat < 2 ^ p1Third.ct.mcs ∧
      ([1] ++ [1], 7) ∈ p1Third.ct.tab) ∧
    (∀ c, ([1] ++ [0], c) ∉ p1Third.ct.tab) ∧
    p1Third.ct.spells (6 : BitVec 12).toNat [0, 1] ∧ (3 : Byte).toNat < 2 ^ p1Third.ct.mcs ∧
      ∀ c, ([0, 1] ++ [3], c) ∉ p1Third.ct.tab :=
  ⟨⟨by decide, p1Third_units.2.2, .inl (by decide), by decide, by decide⟩, by simp [p1Third, enc],
    .inr (by decide), by decide, by simp [p1Third, enc]⟩

/-- The additions of a stored sequence, of a new one (which grows the width), and of a new one to a full table. -/
theorem witness_AdditionAssignsTheNextCode :
    (p1Third.running ∧ p1Third.ct.ok ∧ p1Third.ct.mapOk ∧ p1Third.ct.spells (1 : BitVec 12).toNat [1] ∧
      (1 : Byte).toNat < 2 ^ p1Third.ct.mcs ∧ ([1] ++ [1], 7) ∈ p1Third.ct.tab) ∧
    ((∀ c, ([1] ++ [0], c) ∉ p1Third.ct.tab) ∧ p1Third.ct.next < 4096 ∧ p1Third.ct.next = 2 ^ p1Third.ct.width) ∧
    fullState.ct.ok ∧ fullState.ct.mapOk ∧ fullState.ct.spells (1 : BitVec 12).toNat [1] ∧
      (∀ c, ([1] ++ [1], c) ∉ fullState.ct.tab) ∧ fullState.ct.next = 4096 :=
  ⟨⟨by decide, p1Third_units.2.1, p1Third_units.2.2, .inl (by decide), by decide, by decide⟩,
    ⟨by simp [p1Third, enc], by decide, by decide⟩,
    (fullState_encoderOk (by decide)).2.1, fullState_tabOk.map, .inl ⟨by decide, rfl⟩, fullState_miss, rfl⟩

/-- An index that is none of this palette, and the prefix `ClearCode`. -/
theorem witness_BusOperandsWithoutMeaningAreRefused :
    p1Third.running ∧ 2 ^ p1Third.ct.mcs ≤ (4 : Byte).toNat ∧ ∀ q, ¬ p1Third.ct.spells (4 : BitVec 12).toNat q :=
  ⟨by decide, by decide, fun q h => by simp [CodeTable.spells, p1Third, enc] at h⟩

theorem witness_PhasesOfTheClearCycle :
    (p1Third.running ∧ p1Third.ct.ok ∧ (∃ t, exec .ctReset p1Third = .next t) ∧
      (∃ t, exec (.ctTryGet 1 1) p1Third = .next t) ∧ (∃ t, exec (.ctTryAdd 1 0) p1Third = .next t) ∧
      p1Third.ct.phase ≠ .full) ∧
    fullTable.running ∧ fullTable.ct.ok ∧ fullTable.ct.phase = .full ∧ ∃ t, exec (.ctTryAdd 1 0) fullTable = .next t :=
  ⟨⟨by decide, p1Third_units.2.1, ⟨_, rfl⟩, ⟨_, rfl⟩, ⟨_, rfl⟩, by decide⟩, by decide,
    by unfold CodeTable.ok; decide, by decide, _, rfl⟩

theorem witness_MinimumCodeSizeOfAPalette :
    (∃ t, State.reset.running ∧ exec (.lzwBegin 256) State.reset = .next t ∧ t.running) ∧
    ∃ t, p1Third.running ∧ exec .lzwEnd p1Third = .next t ∧ t.running ∧ ∀ n, Instr.lzwEnd ≠ .lzwBegin n :=
  ⟨⟨_, by decide, rfl, rfl⟩, _, by decide, rfl, rfl, by simp⟩

/-- The palettes at the ends of the range, and those of the minimum code sizes 6, 7 and 8. -/
theorem witness_BeginOpensAFrame :
    State.reset.running ∧ State.reset.sinkAccepts ∧ State.reset.lzw.st = .idle ∧
    1 ≤ (1 : BitVec 9).toNat ∧ (256 : BitVec 9).toNat ≤ 256 ∧
    minCodeSize (64 : BitVec 9).toNat ≤ 6 ∧ minCodeSize (65 : BitVec 9).toNat = 7 ∧ minCodeSize (129 : BitVec 9).toNat = 8 :=
  ⟨by decide, accepts rfl, by decide, by decide, by decide, by decide, by decide, by decide⟩

theorem witness_FirstPixelStartsTheMatch :
    (State.reset.running ∧ State.reset.lzw.st = .idle) ∧
    p1Begun.running ∧ p1Begun.lzw.st = .first ∧ 2 ^ p1Begun.ct.mcs ≤ (4 : Byte).toNat ∧
    (3 : Byte).toNat < 2 ^ p1Begun.ct.mcs := by decide

/-- A hit (`[1,1]`), a miss that grows the width (`[1,0]`), and a miss on a full table. -/
theorem witness_PixelInRun :
    (p1Third.running ∧ p1Third.encoderOk ∧ p1Third.sinkAccepts ∧ p1Third.lzw.st = .run ∧
      (1 : Byte).toNat < 2 ^ p1Third.ct.mcs ∧ (p1Third.lzw.cur ++ [1], 7) ∈ p1Third.ct.tab) ∧
    ((∀ d, (p1Third.lzw.cur ++ [0], d) ∉ p1Third.ct.tab) ∧ p1Third.ct.coded p1Third.lzw.cur 1 ∧ p1Third.ct.next < 4096) ∧
    fullState.running ∧ fullState.encoderOk ∧ fullState.sinkAccepts ∧ fullState.lzw.st = .run ∧
      (∀ d, (fullState.lzw.cur ++ [1], d) ∉ fullState.ct.tab) ∧ fullState.ct.coded fullState.lzw.cur 1 ∧
      fullState.ct.next = 4096 :=
  ⟨⟨by decide, p1Third_encoderOk, accepts rfl, by decide, by decide, by decide⟩,
    ⟨by simp [p1Third, enc], .inl ⟨1, rfl, rfl⟩, by decide⟩,
    rfl, fullState_encoderOk, accepts rfl, rfl, fullState_miss, .inl ⟨1, rfl, rfl⟩, rfl⟩

theorem witness_EndClosesTheFrame :
    (State.reset.running ∧ State.reset.lzw.st = .idle) ∧ (p1Begun.running ∧ p1Begun.lzw.st = .first) ∧
    p1Third.running ∧ p1Third.encoderOk ∧ p1Third.sinkAccepts ∧ p1Third.lzw.st = .run ∧
      p1Third.ct.coded p1Third.lzw.cur 1 :=
  ⟨by decide, by decide, by decide, p1Third_encoderOk, accepts rfl, by decide, .inl ⟨1, rfl, rfl⟩⟩

/-- What `CT.RESET` alone on the bus leaves of a match of two indices. -/
theorem witness_MatchWithoutCodeStops :
    let s := enc .run [0, 1] .empty ⟨2, 3, 6, [], false, 0, false⟩ [0x02]
    s.running ∧ s.ct.mapOk ∧ s.lzw.st = .run ∧ (∀ c, ¬ s.ct.coded s.lzw.cur c) ∧
      (3 : Byte).toNat < 2 ^ s.ct.mcs ∧ ∀ c, ¬ s.ct.coded (s.lzw.cur ++ [3]) c :=
  ⟨rfl, by unfold CodeTable.mapOk; decide, rfl, by simp [CodeTable.coded, enc], by decide, by simp [CodeTable.coded, enc]⟩

theorem witness_AbortAbandonsTheFrame : p1Third.running ∧ ¬ (faulted []).running := by decide

theorem witness_EncoderStateTable :
    (State.reset.running ∧ State.reset.encoderOk ∧ State.reset.sinkAccepts ∧ (Instr.lzwBegin 256).wellFormed = true ∧
      encoderCell State.reset.lzw.st (.lzwBegin 256) = some (.inl .first) ∧
      encoderCell State.reset.lzw.st .lzwEnd = some (.inr .badState)) ∧
    (p1Begun.encoderOk ∧ encoderCell p1Begun.lzw.st .lzwEnd = some (.inr .emptyFrame)) ∧
    p1Third.encoderOk ∧ (3 : Byte).toNat < 2 ^ p1Third.ct.mcs ∧
      encoderCell p1Third.lzw.st (.lzwPixel 3) = some (.inl .run) :=
  ⟨⟨by decide, reset_encoderOk, accepts rfl, by decide, by decide, by decide⟩, ⟨p1Begun_encoderOk, by decide⟩,
    p1Third_encoderOk, by decide, by decide⟩

theorem witness_StateIsCheckedBeforeOperands :
    (p1Begun.running ∧ p1Begun.lzw.st = .first) ∧ State.reset.running ∧ State.reset.lzw.st = .idle ∧
    257 ≤ (257 : BitVec 9).toNat := by decide

/-- VL1 and VL5. -/
theorem witness_FrameGivesItsImageData :
    (let is := Instr.lzwBegin 2 :: [0, 1, 1, 0].map Instr.lzwPixel ++ [Instr.lzwEnd];
      let s : State := { State.reset with events := is.map fun i => .command .commandPort (encode i) };
      s.running ∧ s.sinkAccepts ∧ s.lzw.st = .idle ∧ 1 ≤ (2 : BitVec 9).toNat ∧ (2 : BitVec 9).toNat ≤ 256 ∧
        ([0, 1, 1, 0] : List Byte) ≠ [] ∧ (∀ p ∈ ([0, 1, 1, 0] : List Byte), p.toNat < 2 ^ minCodeSize (2 : BitVec 9).toNat) ∧
        s.events = (is.map fun i => .command .commandPort (encode i)) ++ []) ∧
    (256 : BitVec 9).toNat ≤ 256 ∧ ∀ p ∈ ([255] : List Byte), p.toNat < 2 ^ minCodeSize (256 : BitVec 9).toNat :=
  ⟨⟨by decide, accepts rfl, by decide, by decide, by decide, by decide, by decide, by decide⟩, by decide, by decide⟩

/-- VL1, whose codes the vector lists. -/
theorem witness_FrameCodesFitTheirWidths :
    (∀ p ∈ ([0, 1, 1, 0] : List Byte), p.toNat < 2 ^ 2) ∧
    frameCodes 2 [0, 1, 1, 0] = some [(4, 3), (0, 3), (1, 3), (1, 3), (0, 4), (5, 4)] := by decide

/-- Family D in a state a run reaches: memories in their form. -/
theorem canvas_memoriesWf : (canvas32 .frameOpen shown shown [[A, A, T], [A, B, B]] clear).memoriesWf := by
  unfold State.memoriesWf; decide
theorem canvas_decided_memoriesWf : (canvas32 .decided shown shown [] [[2, 1, 2], [2, 2, 0]]).memoriesWf := by
  unfold State.memoriesWf; decide

theorem witness_InitStartsAnAnimation :
    (State.reset.running ∧ State.reset.cfg.w ≠ 0 ∧ State.reset.cfg.h ≠ 0) ∧
    let s : State := { State.reset with cfg := { Cfg.initial with h := 0 } }
    s.running ∧ s.cfg.h = 0 := by decide

theorem witness_DeltaEngineOrderIsEnforced :
    (State.reset.running ∧ neededStep .deTrim = some .frameOpen ∧ State.reset.de.ready = false ∧
      State.reset.cfg.w ≠ 0 ∧ State.reset.cfg.h ≠ 0) ∧
    (let s := canvas32 .trimmed shown [] [] clear;
      s.running ∧ neededStep (.deDispose 1) = some .trimmed ∧ s.de.ready = true ∧ s.de.step = .trimmed ∧
      neededStep .deCommit = some .decided ∧ s.de.step ≠ .decided) := by decide

/-- VD3, VD2 (`DE.havePrev = 0`) and VD6. -/
theorem witness_DeltaReplacesUnchangedPixels :
    let s := canvas32 .frameOpen shown shown [[A, A, T], [A, B, B]] clear
    s.running ∧ s.memoriesWf ∧ s.de.ready = true ∧ s.de.step = .frameOpen ∧ s.cfg.has 1 2 ∧
      s.cfg.deltaAllowed = true ∧ s.de.havePrev = true ∧ s.cfg.qTransp = true ∧ s.frames.tIdxValid = true :=
  ⟨rfl, canvas_memoriesWf, rfl, rfl, ⟨by decide, by decide⟩, rfl, rfl, rfl, rfl⟩

/-- Out of its step: before `DE.INIT`, and after a trim (VF19). -/
theorem witness_DeltaReplacesUnchangedPixels_outOfStep :
    (State.reset.running ∧ State.reset.de.ready = false) ∧
    (canvas32 .trimmed shown [] [] clear).running ∧ (canvas32 .trimmed shown [] [] clear).de.step ≠ .frameOpen := by decide

/-- Out of its step: before `DE.INIT` (VF16), and after a trim. -/
theorem witness_TrimGivesTheBoundingBox_outOfStep :
    (State.reset.running ∧ State.reset.de.ready = false) ∧
    (canvas32 .trimmed shown [] [] clear).running ∧ (canvas32 .trimmed shown [] [] clear).de.step ≠ .frameOpen := by decide

/-- Out of its step: before `DE.INIT`, and before a trim (VF18). -/
theorem witness_DisposalIsInferred_outOfStep :
    (State.reset.running ∧ State.reset.de.ready = false) ∧
    (canvas32 .frameOpen shown [] [] clear).running ∧ (canvas32 .frameOpen shown [] [] clear).de.step ≠ .trimmed := by decide

/-- VD9 (the borders are kept), VD7 (a visible pixel) and VD8 (none). -/
theorem witness_TrimGivesTheBoundingBox :
    (let s := canvas32 .frameOpen shown [] [] [[2, 1, 2], [2, 2, 0]];
      s.running ∧ s.de.ready = true ∧ s.de.step = .frameOpen ∧ s.cfg.keepBorders = false ∧
      ∃ y x, s.cfg.has y x ∧ s.frames.vis y x = true) ∧
    (let s := { canvas32 .frameOpen shown [] [] clear with cfg := ⟨3, 2, true, true, 128, true, false, false⟩ };
      s.cfg.keepBorders = true ∧ s.de.ready = true ∧ s.de.step = .frameOpen) ∧
    let s := canvas32 .frameOpen shown [] [] clear
    s.cfg.keepBorders = false ∧ ∀ y x, s.cfg.has y x → s.frames.vis y x = false := by
  refine ⟨⟨rfl, rfl, rfl, rfl, 0, 1, ⟨by decide, by decide⟩, by decide⟩, ⟨rfl, rfl, rfl⟩, rfl, ?_⟩
  rintro y x ⟨hy, hx⟩
  have hy : y < 2 := hy
  have hx : x < 3 := hx
  interval_cases y <;> interval_cases x <;> decide

/-- VD13, VD15 and VD17. -/
theorem witness_DisposalIsInferred :
    (let s := canvas32 .trimmed shown [] [[A, A, T], [A, B, B]] clear;
      s.running ∧ s.de.ready = true ∧ s.de.step = .trimmed ∧ s.cfg.deltaAllowed = true ∧ s.cfg.qTransp = true ∧
      ∃ y x, s.cfg.has y x ∧ ¬ alpha (s.comp y x) < s.cfg.alphaThr ∧ alpha (colorAt s.frames.nxt y x) < s.cfg.alphaThr) ∧
    let s := { canvas32 .trimmed shown [] [] clear with cfg := ⟨3, 2, false, true, 128, false, false, false⟩ }
    s.running ∧ s.de.ready = true ∧ s.de.step = .trimmed ∧ s.cfg.deltaAllowed = false ∧ s.cfg.looping = false :=
  ⟨⟨rfl, rfl, rfl, rfl, rfl, 0, 2, ⟨by decide, by decide⟩, by decide, by decide⟩, rfl, rfl, rfl, rfl, rfl⟩

/-- VD18 and VD19. -/
theorem witness_CommitComposites :
    (let s := canvas32 .decided shown shown [] [[2, 1, 2], [2, 2, 0]];
      s.running ∧ s.memoriesWf ∧ s.de.ready = true ∧ s.de.step = .decided ∧ s.de.disp ≠ .restoreBackground) ∧
    let s := canvas32 .decided shown shown [] [[2, 1, 2], [2, 2, 0]]
    { s.de with disp := .restoreBackground }.disp = .restoreBackground :=
  ⟨⟨rfl, canvas_decided_memoriesWf, rfl, rfl, by decide⟩, rfl⟩

theorem witness_RenderBufferFollowsTheFrame :
    let s := canvas32 .frameOpen shown shown [[A, A, T], [A, B, B]] clear
    s.running ∧ s.memoriesWf ∧ s.de.ready = true ∧ s.de.step = .frameOpen := ⟨rfl, canvas_memoriesWf, rfl, rfl⟩

/-- VD5. -/
theorem witness_UnchangedFrameBecomesTransparent :
    let s := canvas32 .frameOpen shown shown [[A, A, T], [A, B, B]] clear
    s.running ∧ s.memoriesWf ∧ s.de.ready = true ∧ s.de.step = .frameOpen ∧ s.cfg.deltaAllowed = true ∧
      s.de.havePrev = true ∧ s.cfg.qTransp = true ∧
      ∀ y x, s.cfg.has y x → colorAt s.frames.wb y x = colorAt s.de.rb y x :=
  ⟨rfl, canvas_memoriesWf, rfl, rfl, rfl, rfl, rfl, fun _ _ _ => rfl⟩

/-- 0, 1/2, 131073/2, 65535, 3/2 hundredths. -/
theorem witness_DelayIsNormalised :
    0 < 1 ∧ (0 < 1 ∧ 1 < 2) ∧ 65535 * 2 < 131073 ∧ (1 ≤ 65535 ∧ 65535 = 65535 * 1) ∧ (2 < 3 ∧ 3 ≤ 65535 * 2) := by decide

/-- The last pixel of the canvas, and the column after it, for each of the memories; the last entry of `PAL`. -/
theorem witness_HostWritesOnePixel :
    (canvas32 .frameOpen shown shown [[A, A, T], [A, B, B]] clear).memoriesWf ∧
    (∀ e ∈ [HostEvent.writeWb 1 2 A, .writeIdx 1 2 1, .writeNxt 1 2 A, .writePal 255 A, .describePalette 256 true 2],
      ∃ s : State, s.memoriesWf ∧ s.events = e :: [] ∧ s.cfg.has (1 : BitVec 16).toNat (2 : BitVec 16).toNat) ∧
    ∃ s : State, s.memoriesWf ∧ s.events = .writeWb 1 3 A :: .writeIdx 1 3 1 :: .writeNxt 1 3 A :: [] ∧
      ¬ s.cfg.has (1 : BitVec 16).toNat (3 : BitVec 16).toNat :=
  ⟨canvas_memoriesWf, fun e _ => ⟨{ canvas32 .frameOpen shown shown [[A, A, T], [A, B, B]] clear with events := [e] },
      canvas_memoriesWf, rfl, (by decide : 1 < 2), (by decide : 2 < 3)⟩,
    { canvas32 .frameOpen shown shown [[A, A, T], [A, B, B]] clear with
      events := .writeWb 1 3 A :: .writeIdx 1 3 1 :: .writeNxt 1 3 A :: [] },
    canvas_memoriesWf, rfl, fun h => absurd h.2 (by decide)⟩

end Sys2Proof.Tests
end

section
/-! SUPPORT. What an instruction did that ended with no fault taken, said once for each way through its rule: the checks it passed and
the state it led to. -/

namespace Sys2Proof.Machine

/-- A command that ended with no fault taken had all its bursts accepted. -/
theorem ok_of_finish {cmd : Word} {r : Except State State} {t : State} (h : finish cmd r = .next t) (ht : t.running) :
    r = .ok t := by
  rcases finish_cases h with h | ⟨u, -, rfl⟩
  · exact h
  · cases ht

/-- The ways an operation of the encoder, or of its units alone on the bus, can complete (R142 to R148, R100, R104, R120 to R124). -/
inductive EncoderRun (s : State) : Instr → State → Prop
  | begin {n : BitVec 9} {t : State} (st : s.lzw.st = .idle ∨ s.lzw.st = .done) (low : 1 ≤ n.toNat) (high : n.toNat ≤ 256)
      (run : beginFrame Config.params n.toNat s = .ok t) : EncoderRun s (.lzwBegin n) t
  | firstPixel {p : Byte} (st : s.lzw.st = .first) (literal : p.toNat < s.ct.clearCode) :
      EncoderRun s (.lzwPixel p) (s.setLzw ⟨.run, [p]⟩)
  | pixelHit {p : Byte} {c : Nat} (st : s.lzw.st = .run) (literal : p.toNat < s.ct.clearCode)
      (found : codeOf s.ct (s.lzw.cur ++ [p]) = some c) :
      EncoderRun s (.lzwPixel p) ((ctTryGet (s.lzw.cur ++ [p]) s).setLzw { s.lzw with cur := s.lzw.cur ++ [p] })
  | pixelMiss {p : Byte} {c : Nat} {t : State} (st : s.lzw.st = .run) (literal : p.toNat < s.ct.clearCode)
      (missed : codeOf s.ct (s.lzw.cur ++ [p]) = none) (code : codeOf s.ct s.lzw.cur = some c)
      (run : newMatch c (s.lzw.cur ++ [p]) p (ctTryGet (s.lzw.cur ++ [p]) s) = .ok t) : EncoderRun s (.lzwPixel p) t
  | endFrame {c : Nat} {t : State} (st : s.lzw.st = .run) (code : codeOf s.ct s.lzw.cur = some c)
      (run : endFrame Config.params c s = .ok t) : EncoderRun s .lzwEnd t
  | abort : EncoderRun s .lzwAbort (abortFrame s)
  | tableReset : EncoderRun s .ctReset (ctReset s)
  | tryGet {pre : BitVec 12} {last : Byte} {q : IndexSeq} (spelt : busSeq s.ct pre last = some q) :
      EncoderRun s (.ctTryGet pre last) (ctTryGet q s)
  | tryAdd {pre : BitVec 12} {last : Byte} {q : IndexSeq} (spelt : busSeq s.ct pre last = some q)
      (new : lookup q s.ct.tab = none) : EncoderRun s (.ctTryAdd pre last) (ctTryAdd q s)
  | writeCode {code : BitVec 12} {w : BitVec 4} {t : State} (low : 1 ≤ w.toNat) (high : w.toNat ≤ 12)
      (run : writeCode code.toNat w.toNat s = .ok t) : EncoderRun s (.bwWriteCode code w) t
  | flush {t : State} (run : flush s = .ok t) : EncoderRun s .bwFlush t

/-- The ways an operation of the delta engine can complete (R172 to R184). -/
inductive DeltaRun (s : State) : Instr → State → Prop
  | init (wide : 0 < s.cfg.width) (high : 0 < s.cfg.height) : DeltaRun s .deInit (initCanvas s)
  | delta {b : BitVec 1} (ready : s.de.ready = true) (step : s.de.step = .frameOpen) :
      DeltaRun s (.deDelta b) (deltaFrame b s)
  | trim (ready : s.de.ready = true) (step : s.de.step = .frameOpen) : DeltaRun s .deTrim (trimFrame Config.params s)
  | dispose {b : BitVec 1} (ready : s.de.ready = true) (step : s.de.step = .trimmed) :
      DeltaRun s (.deDispose b) (disposeFrame Config.params b s)
  | commit (ready : s.de.ready = true) (step : s.de.step = .decided) : DeltaRun s .deCommit (commitFrame s)

/-- A lookup sets `CT.hit` when the sequence has a code (R121). -/
theorem ctTryGet_ct_hit (q : IndexSeq) (s : State) : (ctTryGet q s).ct.hit = (codeOf s.ct q).isSome := by
  cases h : codeOf s.ct q with
  | none => rw [ctTryGet_miss h]; rfl
  | some c => rw [ctTryGet_hit h]; rfl

theorem ctTryGet_ct_tab (q : IndexSeq) (s : State) : (ctTryGet q s).ct.tab = s.ct.tab := by unfold ctTryGet; split <;> rfl

/-- A lookup does not change what has which code. -/
theorem codeOf_ctTryGet (q r : IndexSeq) (s : State) : codeOf (ctTryGet q s).ct r = codeOf s.ct r := by
  match r with
  | [] => rfl
  | [_] => rfl
  | _ :: _ :: _ => rw [codeOf_long (by simp), codeOf_long (by simp), ctTryGet_ct_tab]

theorem ctTryGet_lzw (q : IndexSeq) (s : State) : (ctTryGet q s).lzw = s.lzw := by unfold ctTryGet; split <;> rfl

/-- The two ways of `LZW.PIXEL` in `RUN` (R144). -/
theorem encoderRun_of_nextPixel {p : Byte} {s t : State} (st : s.lzw.st = .run) (literal : p.toNat < s.ct.clearCode)
    (h : nextPixel (encode (.lzwPixel p)) p s = .next t) (ht : t.running) : EncoderRun s (.lzwPixel p) t := by
  unfold nextPixel at h
  dsimp only at h
  rw [ctTryGet_ct_hit, codeOf_ctTryGet, ctTryGet_lzw] at h
  cases hq : codeOf s.ct (s.lzw.cur ++ [p]) with
  | some c =>
    rw [hq] at h
    cases h
    exact .pixelHit st literal hq
  | none =>
    rw [hq, if_neg (by simp)] at h
    cases hc : codeOf s.ct s.lzw.cur with
    | none => rw [hc] at h; cases h
    | some c =>
      rw [hc] at h
      exact .pixelMiss st literal hq hc (ok_of_finish h ht)

section
variable {s t : State} (h : s.running) (ht : t.running)
include h ht

theorem encoderRun_of_execLzwBegin {n : BitVec 9} (hx : execLzwBegin n s = .next t) : EncoderRun s (.lzwBegin n) t := by
  have legal : (s.lzw.st = .idle ∨ s.lzw.st = .done) →
      (if n.toNat = 0 ∨ Config.paletteMax < n.toNat then Host.Outcome.next (s.raise .operandRange (encode (.lzwBegin n)))
        else finish (encode (.lzwBegin n)) (beginFrame Config.params n.toNat s)) = (.next t : Answer) →
      EncoderRun s (.lzwBegin n) t := by
    intro st hr
    split at hr
    · cases hr; cases ht
    · rename_i hn
      obtain ⟨h0, h256⟩ := not_or.1 hn
      exact .begin st (by omega) (Nat.le_of_not_lt h256) (ok_of_finish hr ht)
  unfold execLzwBegin at hx
  dsimp only at hx
  rw [unlessFaulted_running h] at hx
  cases st : s.lzw.st <;> rw [st] at hx
  case idle => exact legal (.inl st) hx
  case done => exact legal (.inr st) hx
  case first => cases hx; cases ht
  case run => cases hx; cases ht

theorem encoderRun_of_execLzwPixel {p : Byte} (hx : execLzwPixel p s = .next t) : EncoderRun s (.lzwPixel p) t := by
  unfold execLzwPixel at hx
  dsimp only at hx
  rw [unlessFaulted_running h] at hx
  cases st : s.lzw.st <;> rw [st] at hx
  case idle => cases hx; cases ht
  case done => cases hx; cases ht
  case first =>
    dsimp only at hx
    split at hx
    · cases hx; cases ht
    · cases hx; exact .firstPixel st (by omega)
  case run =>
    dsimp only at hx
    split at hx
    · cases hx; cases ht
    · exact encoderRun_of_nextPixel st (by omega) hx ht

theorem encoderRun_of_execLzwEnd (hx : execLzwEnd s = .next t) : EncoderRun s .lzwEnd t := by
  unfold execLzwEnd at hx
  dsimp only at hx
  rw [unlessFaulted_running h] at hx
  cases st : s.lzw.st <;> rw [st] at hx
  case idle => cases hx; cases ht
  case done => cases hx; cases ht
  case first => cases hx; cases ht
  case run =>
    dsimp only at hx
    split at hx
    · cases hx
    · rename_i c hc; exact .endFrame st hc (ok_of_finish hx ht)

theorem encoderRun_of_execCtTryAdd {pre : BitVec 12} {last : Byte} (hx : execCtTryAdd pre last s = .next t) :
    EncoderRun s (.ctTryAdd pre last) t := by
  unfold execCtTryAdd at hx
  rw [unlessFaulted_running h] at hx
  split at hx
  · cases hx
  · rename_i q hq
    split at hx
    · cases hx
    · rename_i hn; cases hx; exact .tryAdd hq hn

/-- What an encoder operation did that ended with no fault taken. -/
theorem encoderRun_of_exec {i : Instr} (hd : isDelta i = false) (hx : exec i s = .next t) : EncoderRun s i t := by
  cases i with
  | lzwBegin n => exact encoderRun_of_execLzwBegin h ht hx
  | lzwPixel p => exact encoderRun_of_execLzwPixel h ht hx
  | lzwEnd => exact encoderRun_of_execLzwEnd h ht hx
  | lzwAbort =>
    change unlessFaulted s _ = _ at hx
    rw [unlessFaulted_running h] at hx
    cases hx; exact .abort
  | ctReset =>
    change unlessFaulted s _ = _ at hx
    rw [unlessFaulted_running h] at hx
    cases hx; exact .tableReset
  | ctTryGet pre last =>
    change execCtTryGet pre last s = _ at hx
    unfold execCtTryGet at hx
    rw [unlessFaulted_running h] at hx
    split at hx
    · rename_i q hq; cases hx; exact .tryGet hq
    · cases hx
  | ctTryAdd pre last => exact encoderRun_of_execCtTryAdd h ht hx
  | bwWriteCode code w =>
    change execBwWriteCode code w s = _ at hx
    unfold execBwWriteCode at hx
    rw [unlessFaulted_running h] at hx
    split at hx
    · rename_i hw; exact .writeCode hw.1 hw.2 (ok_of_finish hx ht)
    · cases hx
  | bwFlush =>
    change unlessFaulted s _ = _ at hx
    rw [unlessFaulted_running h] at hx
    exact .flush (ok_of_finish hx ht)
  | deInit | deDelta | deTrim | deDispose | deCommit => cases hd

/-- A delta engine command that ended with no fault taken was in its step (R172). -/
theorem inStep_running {u : State} {st : DeStep} {cmd : Word} (hx : inStep st cmd s (.next u) = .next t) :
    s.de.ready = true ∧ s.de.step = st ∧ t = u := by
  rcases inStep_cases h hx with hx | ⟨-, rfl⟩
  · exact hx
  · cases ht

/-- What a delta engine operation did that ended with no fault taken. -/
theorem deltaRun_of_exec {i : Instr} (hd : isDelta i = true) (hx : exec i s = .next t) : DeltaRun s i t := by
  cases i with
  | lzwBegin | lzwPixel | lzwEnd | lzwAbort | ctReset | ctTryGet | ctTryAdd | bwWriteCode | bwFlush => cases hd
  | deInit =>
    change execDeInit s = _ at hx
    unfold execDeInit at hx
    rw [unlessFaulted_running h] at hx
    split at hx
    · cases hx; cases ht
    · cases hx; exact .init (by omega) (by omega)
  | deDelta b =>
    obtain ⟨ready, step, rfl⟩ := inStep_running h ht hx
    exact .delta ready step
  | deTrim =>
    obtain ⟨ready, step, rfl⟩ := inStep_running h ht hx
    exact .trim ready step
  | deDispose b =>
    obtain ⟨ready, step, rfl⟩ := inStep_running h ht hx
    exact .dispose ready step
  | deCommit =>
    obtain ⟨ready, step, rfl⟩ := inStep_running h ht hx
    exact .commit ready step

end

end Sys2Proof.Machine
end

section
/-! SUPPORT. The Bit Writer and the Code Table in order (R105, R128), under every operation of the encoder that completes. -/

namespace Sys2Proof.Machine

/-- Both units are in order, and `CT.code_q` fits its register. -/
structure UnitsInOrder (b : BitWriter) (ct : CodeTable) : Prop where
  writer : b.ok
  table : ct.ok
  map : ct.mapOk
  codeQ : ct.codeQ < 2 ^ 12

theorem empty_ok : BitWriter.empty.ok := by unfold BitWriter.ok; decide

theorem sunk_of_ok {s t : State} {r : Except State State} (h : Sinks s r) (hr : r = .ok t) : Sunk s t := by
  rwa [hr] at h

/-- The code of a sequence is a byte or a stored code, and both fit `CT.code_q`. -/
theorem codeOf_lt {ct : CodeTable} (hm : ct.mapOk) (ho : ct.ok) {q : IndexSeq} {c : Nat} (h : codeOf ct q = some c) :
    c < 2 ^ 12 := by
  obtain ⟨-, -, -, hnext, -⟩ := ho
  rcases hm.codeOf_iff.1 h with ⟨i, -, rfl⟩ | ⟨-, hmem⟩
  · have := i.isLt; omega
  · have := (hm.2.2 _ hmem).2.2
    dsimp only at this; omega

/-- What the bus operands spell has two indices or more (R75). -/
theorem length_busSeq {ct : CodeTable} (hm : ct.mapOk) {pre : BitVec 12} {last : Byte} {q : IndexSeq}
    (hq : busSeq ct pre last = some q) : 2 ≤ q.length := by
  by_cases hs : ∃ r, ct.spells pre.toNat r
  · obtain ⟨r, hr⟩ := hs
    have hl : last.toNat < 2 ^ ct.mcs := by
      by_contra hc
      rw [busSeq_none (.inl (Nat.le_of_not_lt hc))] at hq
      cases hq
    have hlen := hm.spells_length hr
    rw [hm.busSeq_spells hr hl] at hq
    cases hq
    rw [List.length_append, List.length_singleton]; omega
  · rw [busSeq_none (.inr (not_exists.1 hs))] at hq
    cases hq

/-- What has a code is not empty, so that with one index more it is no literal. -/
theorem length_extended {ct : CodeTable} {q : IndexSeq} {c : Nat} (h : codeOf ct q = some c) (p : Byte) :
    2 ≤ (q ++ [p]).length := by
  match q, h with
  | _ :: _, _ => simp

/-- An emptied table is in order for every minimum code size. -/
theorem UnitsInOrder.started {b : BitWriter} (hb : b.ok) {m : Nat} (h2 : 2 ≤ m) (h8 : m ≤ 8) {hit added : Bool} {q : Nat}
    (hq : q < 2 ^ 12) : UnitsInOrder b ⟨m, m + 1, 2 ^ m + 2, [], hit, q, added⟩ :=
  ⟨hb, started_ok h2 h8, started_mapOk m, hq⟩

section
variable {s t : State} (h : UnitsInOrder s.bw s.ct)
include h

theorem UnitsInOrder.of_writeCode {c w : Nat} (hw : w ≤ 25) (hr : writeCode c w s = .ok t) : UnitsInOrder t.bw t.ct := by
  have hf := sunk_of_ok (sinks_writeCode c w s) hr
  rw [hf.frame.ct]
  exact ⟨(writeCode_ok h.writer hw hr).1, h.table, h.map, h.codeQ⟩

theorem UnitsInOrder.of_flush (hr : flush s = .ok t) : UnitsInOrder t.bw t.ct := by
  have hf := sunk_of_ok (sinks_flush s) hr
  rw [hf.frame.ct, (flush_ok h.writer hr).1]
  exact ⟨empty_ok, h.table, h.map, h.codeQ⟩

theorem UnitsInOrder.of_ctReset : UnitsInOrder (ctReset s).bw (ctReset s).ct := by
  obtain ⟨h2, h8, -⟩ := h.table
  rw [ctReset_eq]
  exact .started h.writer h2 h8 h.codeQ

theorem UnitsInOrder.of_ctTryGet (q : IndexSeq) : UnitsInOrder (ctTryGet q s).bw (ctTryGet q s).ct := by
  cases hq : codeOf s.ct q with
  | some c => rw [ctTryGet_hit hq]; exact ⟨h.writer, h.table, h.map, codeOf_lt h.map h.table hq⟩
  | none => rw [ctTryGet_miss hq]; exact ⟨h.writer, h.table, h.map, (Config.freeBits 12 s.free).isLt⟩

/-- A table with one more sequence is in order. -/
theorem UnitsInOrder.added (hn : s.ct.next ≠ 4096) {q : IndexSeq} (hq : 2 ≤ q.length) (new : ∀ c, (q, c) ∉ s.ct.tab) :
    UnitsInOrder s.bw ((s.ct.grow.insert q).setAdded true) := by
  refine ⟨h.writer, (h.table.added hn q).1, h.map.added h.table hq new, ?_⟩
  rw [grow_insert_eq]
  exact h.codeQ

theorem UnitsInOrder.of_ctTryAdd {q : IndexSeq} (hq : 2 ≤ q.length) (new : lookup q s.ct.tab = none) :
    UnitsInOrder (ctTryAdd q s).bw (ctTryAdd q s).ct := by
  by_cases hn : s.ct.next = 4096
  · rw [ctTryAdd_full q hn]; exact ⟨h.writer, h.table, h.map, h.codeQ⟩
  · rw [ctTryAdd_room q hn]; exact h.added hn hq (lookup_eq_none.1 new)

theorem UnitsInOrder.of_beginFrame {n : Nat} (h1 : 1 ≤ n) (h2 : n ≤ 256) (hr : beginFrame Config.params n s = .ok t) :
    UnitsInOrder t.bw t.ct := by
  obtain ⟨ht, hb, -⟩ := beginFrame_ok h1 h2 hr
  rw [ht]
  exact .started hb (two_le_minCodeSize n) (minCodeSize_le h1 h2) h.codeQ

theorem UnitsInOrder.of_newMatch {c : Nat} {q : IndexSeq} {p : Byte} (hq : 2 ≤ q.length) (new : lookup q s.ct.tab = none)
    (hr : newMatch c q p s = .ok t) : UnitsInOrder t.bw t.ct := by
  by_cases hn : s.ct.next = 4096
  · obtain ⟨hb, -, ht⟩ := newMatch_full h.writer h.table hn hr
    obtain ⟨h2, h8, -⟩ := h.table
    rw [ht]
    exact .started hb h2 h8 h.codeQ
  · obtain ⟨hb, -, ht⟩ := newMatch_room h.writer h.table hn hr
    have ha := h.added hn hq (lookup_eq_none.1 new)
    rw [ht]
    exact ⟨hb, ha.table, ha.map, ha.codeQ⟩

theorem UnitsInOrder.of_endFrame {c : Nat} (hr : endFrame Config.params c s = .ok t) : UnitsInOrder t.bw t.ct := by
  obtain ⟨ht, -⟩ := endFrame_ok h.writer h.table hr
  rw [ht]
  exact ⟨empty_ok, h.table, h.map, h.codeQ⟩

/-- `LZW.ABORT` empties the Bit Writer and the dictionary, and leaves the counters (R148). -/
theorem UnitsInOrder.of_abortFrame : UnitsInOrder (abortFrame s).bw (abortFrame s).ct :=
  ⟨empty_ok, h.table, ⟨List.nodup_nil, List.nodup_nil, fun _ he => nomatch he⟩, h.codeQ⟩

/-- Every operation of the encoder that completes keeps both units in order. -/
theorem UnitsInOrder.of_run {i : Instr} (hr : EncoderRun s i t) : UnitsInOrder t.bw t.ct := by
  cases hr with
  | begin _ low high run => exact h.of_beginFrame low high run
  | firstPixel => exact h
  | pixelHit => exact h.of_ctTryGet _
  | @pixelMiss p _ _ _ _ missed code run =>
    have hlen : 2 ≤ (s.lzw.cur ++ [p]).length := length_extended code p
    rw [codeOf_long hlen, ← ctTryGet_ct_tab] at missed
    exact (h.of_ctTryGet _).of_newMatch hlen missed run
  | endFrame _ _ run => exact h.of_endFrame run
  | abort => exact h.of_abortFrame
  | tableReset => exact h.of_ctReset
  | tryGet => exact h.of_ctTryGet _
  | tryAdd spelt new => exact h.of_ctTryAdd (length_busSeq h.map spelt) new
  | writeCode _ high run => exact h.of_writeCode (by omega) run
  | flush run => exact h.of_flush run
end

end Sys2Proof.Machine
end

section
/-! SUPPORT. The registers in their widths (R13) and the memories in their form, under what an operation and a step can do. -/

namespace Sys2Proof.Machine

/-! ### Registers in their widths (R13) -/

/-- The registers of the Bit Writer and the Code Table fit. -/
def EncoderFits (b : BitWriter) (ct : CodeTable) : Prop :=
  b.nbits < 2 ^ 5 ∧ b.scnt < 2 ^ 8 ∧ b.stg.length ≤ 255 ∧ ct.mcs < 2 ^ 4 ∧ ct.width < 2 ^ 4 ∧ ct.next < 2 ^ 13 ∧
  ct.codeQ < 2 ^ 12 ∧ ∀ e ∈ ct.tab, e.2 < 2 ^ 12

/-- The registers of the clipped frame fit. -/
def ClipFits (d : Delta) : Prop := d.locX < 2 ^ 16 ∧ d.locY < 2 ^ 16 ∧ d.frW < 2 ^ 16 ∧ d.frH < 2 ^ 16

theorem fits_iff {s : State} : s.fits ↔ EncoderFits s.bw s.ct ∧ ClipFits s.de := by
  simp only [State.fits, EncoderFits, ClipFits, and_assoc]

theorem UnitsInOrder.encoderFits {b : BitWriter} {ct : CodeTable} (h : UnitsInOrder b ct) : EncoderFits b ct := by
  obtain ⟨hnbits, -, hscnt, hstg⟩ := h.writer
  obtain ⟨-, hwidth, -⟩ := h.table.width_bounds
  obtain ⟨-, hmcs, -, hnext, -⟩ := h.table
  refine ⟨by omega, by omega, by omega, by omega, by omega, by omega, h.codeQ, fun e he => ?_⟩
  have := (h.map.2.2 e he).2.2
  omega

/-- Free values fit their registers (U4). -/
theorem encoderFits_unspecified (n : Nat) : EncoderFits (.unspecified n) (.unspecified n) := by
  refine ⟨BitVec.isLt _, BitVec.isLt _, List.length_take_le _ _, BitVec.isLt _, BitVec.isLt _, BitVec.isLt _, BitVec.isLt _, ?_⟩
  intro e he
  obtain ⟨f, -, rfl⟩ := List.mem_map.1 he
  exact f.2.isLt

theorem clipFits_unspecified (n : Nat) : ClipFits (.unspecified n) :=
  ⟨BitVec.isLt _, BitVec.isLt _, BitVec.isLt _, BitVec.isLt _⟩

/-- What `DE.TRIM` finds fits its registers, also on an empty canvas (R178). -/
theorem trimBox_lt (s : State) {x y w h : Nat} (e : trimBox Config.params s = (x, y, w, h)) :
    x < 2 ^ 16 ∧ y < 2 ^ 16 ∧ w < 2 ^ 16 ∧ h < 2 ^ 16 := by
  have hw := s.cfg.width_lt
  have hh := s.cfg.height_lt
  rcases trimBox_cases Config.params s with ⟨-, h1⟩ | ⟨-, x0, x1, y0, y1, h1, hx, hy, ⟨hx1, hy1⟩, -⟩ | ⟨-, -, h1⟩
  · rw [h1] at e; cases e; omega
  · rw [h1] at e; cases e; omega
  · rw [h1] at e
    cases e
    show s.cfg.width / 2 < _ ∧ s.cfg.height / 2 < _ ∧ 1 < _ ∧ 1 < _
    omega

theorem clipFits_trimFrame (s : State) : ClipFits (trimFrame Config.params s).de := trimBox_lt s rfl

/-! ### What the delta engine's operations do to its registers -/

/-- `DE.DELTA` leaves the delta engine's own state (R175). -/
theorem deltaFrame_de (b : BitVec 1) (s : State) : (deltaFrame b s).de = s.de := by
  unfold deltaFrame; split
  · split
    · rfl
    · split <;> rfl
  · rfl

/-- `DE.DISPOSE` decides 1 or 2, and clears the Render Buffer or leaves it (R181). -/
theorem disposeFrame_cases (par : Config.Params) (b : BitVec 1) (s : State) :
    ∃ d, (d = .doNotDispose ∨ d = .restoreBackground) ∧
      (disposeFrame par b s = s.setDe { s.de with disp := d, step := .decided } ∨
        disposeFrame par b s = s.setDe { s.de with disp := d, rb := [], step := .decided }.setCleared) := by
  unfold disposeFrame
  split
  · refine ⟨_, ?_, .inl rfl⟩
    split
    · exact .inr rfl
    · unfold lastDisposal; split
      · exact .inr rfl
      · exact .inl rfl
  · split
    · exact ⟨_, .inr rfl, .inr rfl⟩
    · exact ⟨_, .inl rfl, .inl rfl⟩

/-- `DE.COMMIT` leaves the Render Buffer or composites onto it (R184). -/
theorem commitFrame_cases (s : State) :
    commitFrame s = s.setDe s.de.setCommitted ∨
      commitFrame s = s.setDe { s.de with rb := composited s }.setComposited.setCommitted := by
  unfold commitFrame; split
  · exact .inl rfl
  · exact .inr rfl

theorem clipFits_of_run {i : Instr} {s t : State} (h : ClipFits s.de) (hr : DeltaRun s i t) : ClipFits t.de := by
  cases hr with
  | init => exact h
  | delta => rw [deltaFrame_de]; exact h
  | trim => exact clipFits_trimFrame s
  | @dispose b =>
    obtain ⟨d, -, e | e⟩ := disposeFrame_cases Config.params b s
    all_goals rw [e]; exact h
  | commit =>
    obtain e | e := commitFrame_cases s
    all_goals rw [e]; exact h

/-! ### Memories in their form -/

theorem memoriesWf_deltaFrame {s : State} (h : s.memoriesWf) (b : BitVec 1) : (deltaFrame b s).memoriesWf := by
  obtain ⟨hrb, hwb, hidx, hpal, hnxt⟩ := h
  unfold deltaFrame; split
  · split
    · exact ⟨hrb, wf_deltaWorking hwb, hidx, hpal, hnxt⟩
    · split
      · exact ⟨hrb, hwb, wf_deltaIndexed hidx, hpal, hnxt⟩
      · exact ⟨hrb, hwb, hidx, hpal, hnxt⟩
  · exact ⟨hrb, hwb, hidx, hpal, hnxt⟩

theorem memoriesWf_of_run {i : Instr} {s t : State} (h : s.memoriesWf) (hr : DeltaRun s i t) : t.memoriesWf := by
  cases hr with
  | init => exact ⟨Memory.wf_nil _, h.2⟩
  | delta => exact memoriesWf_deltaFrame h _
  | trim => exact h
  | @dispose b =>
    obtain ⟨d, -, e | e⟩ := disposeFrame_cases Config.params b s
    · rw [e]; exact h
    · rw [e]; exact ⟨Memory.wf_nil _, h.2⟩
  | commit =>
    obtain e | e := commitFrame_cases s
    · rw [e]; exact h
    · rw [e]; exact ⟨wf_composited h.1, h.2⟩

/-- The host's writes keep the form of the memories. -/
theorem memoriesWf_of_hosted {s t : State} (h : s.memoriesWf) (ht : Hosted s t) : t.memoriesWf := by
  obtain ⟨hrb, hwb, hidx, hpal, hnxt⟩ := h
  obtain ⟨_, rfl⟩ | ⟨a, c, rfl⟩ | ⟨a, c, rfl⟩ | ⟨a, c, rfl⟩ | ⟨a, c, rfl⟩ | ⟨_, _, _, rfl⟩ := ht
  · exact ⟨hrb, hwb, hidx, hpal, hnxt⟩
  · exact ⟨hrb, Memory.wf_write hwb a c, hidx, hpal, hnxt⟩
  · exact ⟨hrb, hwb, Memory.wf_write hidx a c, hpal, hnxt⟩
  · exact ⟨hrb, hwb, hidx, Memory.wf_write hpal a c, hnxt⟩
  · exact ⟨hrb, hwb, hidx, hpal, Memory.wf_write hnxt a c⟩
  · exact ⟨hrb, hwb, hidx, hpal, hnxt⟩

/-- The host's actions change the inputs only. -/
theorem Hosted.frame {s t : State} (h : Hosted s t) : t = { s with cfg := t.cfg, frames := t.frames } := by
  obtain ⟨_, rfl⟩ | ⟨_, _, rfl⟩ | ⟨_, _, rfl⟩ | ⟨_, _, rfl⟩ | ⟨_, _, rfl⟩ | ⟨_, _, _, rfl⟩ := h <;> rfl

/-! ### Registers and memories together -/

/-- The invariant of R13, R105 and R128 with the form of the memories. -/
structure InRange (s : State) : Prop where
  fits : s.fits
  units : s.unitsOk
  memories : s.memoriesWf

/-- While no fault is taken, the Bit Writer and the Code Table are in order. -/
theorem InRange.inOrder {s : State} (h : InRange s) (hr : s.running) : UnitsInOrder s.bw s.ct := by
  obtain ⟨hb, hc, hm⟩ := h.units (by rw [hr]; decide)
  obtain ⟨-, -, -, -, -, -, hq, -⟩ := h.fits
  exact ⟨hb, hc, hm, hq⟩

/-- A fault found by a check, or an illegal word, changes the fault registers only. -/
theorem InRange.raise {s : State} (h : InRange s) (hr : s.running) (c : Cause) (w : Word) : InRange (s.raise c w) :=
  ⟨h.fits, fun _ => h.units (by rw [hr]; decide), h.memories⟩

/-- After a sink failure the registers hold free values, each within its register (U4). -/
theorem InRange.broke {s u : State} (h : InRange s) (hu : Broke s u) (w : Word) : InRange (u.scramble.raise .sinkIo w) := by
  refine ⟨fits_iff.2 ⟨encoderFits_unspecified _, clipFits_unspecified _⟩, fun hc => absurd rfl hc, Memory.wf_ofList _, ?_⟩
  show _ ∧ _
  rw [State.raise_frames, State.scramble_frames, hu.frame.frames]
  exact h.memories.2

theorem InRange.exec {i : Instr} {s t : State} (h : InRange s) (hr : s.running) (hx : exec i s = .next t) : InRange t := by
  have hclip := (fits_iff.1 h.fits).2
  rcases exec_cases hr hx with ⟨hd, ht⟩ | ⟨hd, ht⟩ | ⟨c, -, -, -, rfl⟩ | ⟨-, -, u, hu, rfl⟩
  · have hrun : t.running := by rw [State.running, ht.frame.flt]; exact hr
    have hu := (h.inOrder hr).of_run (encoderRun_of_exec hr hrun hd hx)
    refine ⟨fits_iff.2 ⟨hu.encoderFits, ?_⟩, fun _ => ⟨hu.writer, hu.table, hu.map⟩, ?_⟩
    · rw [ht.frame.de]; exact hclip
    · rw [State.memoriesWf, ht.frame.de, ht.frame.frames]; exact h.memories
  · have hrun : t.running := by rw [ht]; exact hr
    have hd := deltaRun_of_exec hr hrun hd hx
    have hu : UnitsInOrder t.bw t.ct := by rw [ht]; exact h.inOrder hr
    exact ⟨fits_iff.2 ⟨hu.encoderFits, clipFits_of_run hclip hd⟩, fun _ => ⟨hu.writer, hu.table, hu.map⟩,
      memoriesWf_of_run h.memories hd⟩
  · exact h.raise hr c _
  · exact h.broke hu _

theorem InRange.command {port : Port} {w : Word} {s t : State} (h : InRange s) (hx : command port w s = .next t) : InRange t := by
  rcases command_cases hx with ⟨-, rfl⟩ | ⟨hr, -, rfl⟩ | ⟨hr, i, -, -, hx⟩
  · exact h
  · exact h.raise hr _ _
  · exact h.exec hr hx

theorem unitsInOrder_takeReset (s : State) : UnitsInOrder s.takeReset.bw s.takeReset.ct :=
  .started empty_ok le_rfl (by decide) (by decide)

theorem clipFits_takeReset (s : State) : ClipFits s.takeReset.de := by
  show 0 < 2 ^ 16 ∧ 0 < 2 ^ 16 ∧ 1 < 2 ^ 16 ∧ 1 < 2 ^ 16
  decide

/-- The reset input gives every register a value in its range (R47). -/
theorem InRange.takeReset {s : State} (h : s.memoriesWf) : InRange s.takeReset := by
  have hu := unitsInOrder_takeReset s
  exact ⟨fits_iff.2 ⟨hu.encoderFits, clipFits_takeReset s⟩, fun _ => ⟨hu.writer, hu.table, hu.map⟩, Memory.wf_nil _, h.2⟩

theorem InRange.hosted {s t : State} (h : InRange s) (ht : Hosted s t) : InRange t := by
  refine ⟨?_, ?_, memoriesWf_of_hosted h.memories ht⟩
  · rw [ht.frame]; exact h.fits
  · rw [ht.frame]; exact h.units

/-- Every step keeps the registers in their ranges and the memories in their form. -/
theorem InRange.step {s t : State} (h : InRange s) (hx : step s = .next t) : InRange t := by
  rcases step_cases hx with ⟨-, rfl⟩ | ⟨e, rest, -, hx⟩
  · exact h
  · have h' : InRange { s with events := rest } := ⟨h.fits, h.units, h.memories⟩
    rcases hx with ⟨port, w, -, hx⟩ | ⟨-, rfl⟩ | ⟨-, cfg, rfl⟩ | ⟨-, -, -, -, hx⟩
    · exact h'.command hx
    · exact .takeReset h'.memories
    · exact ⟨h.fits, h.units, h.memories⟩
    · exact h'.hosted hx

end Sys2Proof.Machine
end

section
/-! SUPPORT. The clip in the canvas (R43), under what an operation and a step can do. -/

namespace Sys2Proof.Machine

/-- The delta engine in order over the canvas of `cfg` (R42, R43, R91, R173). -/
structure DeltaInOrder (cfg : Cfg) (d : Delta) : Prop where
  canvas : d.ready = true → 0 < cfg.width ∧ 0 < cfg.height
  clip : d.ready = true → d.step ≠ .frameOpen →
    1 ≤ d.frW ∧ 1 ≤ d.frH ∧ d.locX + d.frW ≤ cfg.width ∧ d.locY + d.frH ≤ cfg.height
  disposal : d.ready = true → d.step = .decided → d.disp = .doNotDispose ∨ d.disp = .restoreBackground
  cleared : d.rbCleared = true → d.rb = []

theorem deltaOk_iff {s : State} : s.deltaOk ↔ (s.flt.cause ≠ .sinkIo → DeltaInOrder s.cfg s.de) := by
  constructor
  · intro h hc
    obtain ⟨h1, h2, h3, h4⟩ := h hc
    exact ⟨h1, h2, h3, h4⟩
  · intro h hc
    exact ⟨(h hc).canvas, (h hc).clip, (h hc).disposal, (h hc).cleared⟩

theorem DeltaInOrder.init {cfg : Cfg} {d : Delta} (hw : 0 < cfg.width) (hh : 0 < cfg.height) :
    DeltaInOrder cfg { d with rb := [] }.setStarted :=
  ⟨fun _ => ⟨hw, hh⟩, fun _ hs => absurd rfl hs, fun _ hs => (nomatch hs), fun _ => rfl⟩

section
variable {s : State} (h : DeltaInOrder s.cfg s.de)
include h

theorem DeltaInOrder.trim (ready : s.de.ready = true) : DeltaInOrder s.cfg (trimFrame Config.params s).de := by
  obtain ⟨hw, hh⟩ := h.canvas ready
  exact ⟨h.canvas, fun _ _ => trimBox_bounds s hw hh rfl, fun _ hs => (nomatch hs), h.cleared⟩

theorem DeltaInOrder.dispose (ready : s.de.ready = true) (step : s.de.step = .trimmed) (b : BitVec 1) :
    DeltaInOrder s.cfg (disposeFrame Config.params b s).de := by
  have hclip := h.clip ready (by rw [step]; decide)
  obtain ⟨d, hd, e | e⟩ := disposeFrame_cases Config.params b s
  · rw [e]; exact ⟨h.canvas, fun _ _ => hclip, fun _ _ => hd, h.cleared⟩
  · rw [e]; exact ⟨h.canvas, fun _ _ => hclip, fun _ _ => hd, fun _ => rfl⟩

theorem DeltaInOrder.commit : DeltaInOrder s.cfg (commitFrame s).de := by
  obtain e | e := commitFrame_cases s
  · rw [e]; exact ⟨h.canvas, fun _ hs => absurd rfl hs, fun _ hs => (nomatch hs), h.cleared⟩
  · rw [e]; exact ⟨h.canvas, fun _ hs => absurd rfl hs, fun _ hs => (nomatch hs), fun hc => (nomatch hc)⟩
end

theorem DeltaInOrder.of_run {i : Instr} {s t : State} (h : DeltaInOrder s.cfg s.de) (hr : DeltaRun s i t) :
    DeltaInOrder s.cfg t.de := by
  cases hr with
  | init wide high => exact .init wide high
  | delta => rw [deltaFrame_de]; exact h
  | trim ready => exact h.trim ready
  | dispose ready step => exact h.dispose ready step _
  | commit => exact h.commit

/-- An instruction keeps the inputs that the host holds, and the events to come. -/
theorem exec_inputs {i : Instr} {s t : State} (h : s.running) (hx : exec i s = .next t) :
    t.cfg = s.cfg ∧ t.events = s.events := by
  rcases exec_cases h hx with ⟨-, ht⟩ | ⟨-, ht⟩ | ⟨c, -, -, -, rfl⟩ | ⟨-, -, u, hu, rfl⟩
  · exact ⟨ht.frame.cfg, ht.frame.events⟩
  · rw [ht]; exact ⟨rfl, rfl⟩
  · exact ⟨rfl, rfl⟩
  · exact ⟨hu.frame.cfg, hu.frame.events⟩

/-- A step takes the first event of the stream. -/
theorem step_events {s t : State} (hx : step s = .next t) : t.events = s.events.tail := by
  rcases step_cases hx with ⟨he, rfl⟩ | ⟨e, rest, he, hx⟩
  · rw [he, List.tail_nil]
  · rw [he, List.tail_cons]
    rcases hx with ⟨port, w, -, hx⟩ | ⟨-, rfl⟩ | ⟨-, cfg, rfl⟩ | ⟨-, -, -, -, hx⟩
    · rcases command_cases hx with ⟨-, rfl⟩ | ⟨-, -, rfl⟩ | ⟨hr, i, -, -, hx⟩
      · rfl
      · rfl
      · exact (exec_inputs hr hx).2
    · rfl
    · rfl
    · rw [hx.frame]

theorem deltaOk_exec {i : Instr} {s t : State} (h : s.deltaOk) (hr : s.running) (hx : exec i s = .next t) : t.deltaOk := by
  have hs : DeltaInOrder s.cfg s.de := deltaOk_iff.1 h (by rw [hr]; decide)
  have hcfg := (exec_inputs hr hx).1
  refine deltaOk_iff.2 fun hc => ?_
  rw [hcfg]
  rcases exec_cases hr hx with ⟨-, ht⟩ | ⟨hd, ht⟩ | ⟨c, -, -, -, rfl⟩ | ⟨-, -, u, -, rfl⟩
  · rw [ht.frame.de]; exact hs
  · have hrun : t.running := by rw [ht]; exact hr
    exact hs.of_run (deltaRun_of_exec hr hrun hd hx)
  · exact hs
  · exact absurd rfl hc

theorem deltaOk_command {port : Port} {w : Word} {s t : State} (h : s.deltaOk) (hx : command port w s = .next t) : t.deltaOk := by
  rcases command_cases hx with ⟨-, rfl⟩ | ⟨hr, -, rfl⟩ | ⟨hr, i, -, -, hx⟩
  · exact h
  · exact fun _ => h (by rw [hr]; decide)
  · exact deltaOk_exec h hr hx

theorem deltaOk_takeReset (s : State) : s.takeReset.deltaOk :=
  deltaOk_iff.2 fun _ => ⟨fun hr => (nomatch hr), fun hr => (nomatch hr), fun hr => (nomatch hr), fun hc => (nomatch hc)⟩

/-- A step keeps the delta engine in order while `cfg.*` is held. -/
theorem deltaOk_step {s t : State} (h : s.deltaOk) (hc : s.cfgHeld) (hx : step s = .next t) : t.deltaOk := by
  rcases step_cases hx with ⟨-, rfl⟩ | ⟨e, rest, he, hx⟩
  · exact h
  · rcases hx with ⟨port, w, -, hx⟩ | ⟨-, rfl⟩ | ⟨⟨cfg, rfl⟩, -⟩ | ⟨-, -, -, hcfg, hx⟩
    · exact deltaOk_command (s := { s with events := rest }) h hx
    · exact deltaOk_takeReset _
    · exact absurd (by rw [he]; exact List.mem_cons_self) (hc cfg)
    · rw [hx.frame, hcfg]; exact h

theorem cfgHeld_step {s t : State} (h : s.cfgHeld) (hx : step s = .next t) : t.cfgHeld := by
  intro c hm
  rw [step_events hx] at hm
  exact h c (List.mem_of_mem_tail hm)

end Sys2Proof.Machine
end

section
/-! SUPPORT. The state after reset, and a command in the stream. -/

namespace Sys2Proof.Machine

/-- In `IDLE` the encoder's invariant asks for the two units only (R30, R150). -/
theorem encoderOk_takeReset (s : State) : s.takeReset.encoderOk := by
  have hu := unitsInOrder_takeReset s
  exact fun _ => ⟨hu.writer, hu.table, fun hi => absurd rfl hi, fun hr => (nomatch hr)⟩

theorem memoriesWf_reset : State.reset.memoriesWf :=
  ⟨Memory.wf_nil _, Memory.wf_nil _, Memory.wf_nil _, Memory.wf_nil _, Memory.wf_nil _⟩

/-! ### A command in the stream -/

/-- A command word that decodes to an operation of its port is that operation, while no fault is taken (R78, R202). -/
theorem command_of_decode {s : State} (h : s.running) {w : Word} {i : Instr} (hd : decode w = .ok i) :
    command i.port w s = exec i s := by
  unfold command
  rw [unlessFaulted_running h, hd]
  cases hp : i.port with
  | commandPort => exact if_pos hp
  | internalBus => exact if_pos hp

theorem step_of_events {s : State} {e : HostEvent} {rest : List HostEvent} (he : s.events = e :: rest) :
    step s = occur { s with events := rest } e := by
  unfold step nextEvent; rw [he]

end Sys2Proof.Machine
end

section
/-! PROOF. The statements of the scope: steps and the invariants they keep. -/

open Sys2Proof Sys2Proof.Machine

/-- Settles O21: the memories' form and the ranges hold after every instruction that completes, because its units' operations keep
them; after a sink failure because free values fit; and after the reset input because its values do. -/
theorem stepKeepsRegistersInRange : Obligations.StepKeepsRegistersInRange := by
  intro s t hfits hunits hmem hx
  have ht : InRange t := InRange.step ⟨hfits, hunits, hmem⟩ hx
  exact ⟨ht.fits, ht.units, ht.memories⟩

/-- Settles O23: only `DE.TRIM` sets the clip, and only on a canvas that `DE.INIT` found not empty; `cfg.*` does not change. -/
theorem stepKeepsTheClipInTheCanvas : Obligations.StepKeepsTheClipInTheCanvas :=
  fun _ _ hdelta hcfg hx => ⟨deltaOk_step hdelta hcfg hx, cfgHeld_step hcfg hx⟩

/-- Settles O6. -/
theorem stepRunsTheDecodedCommand : Obligations.StepRunsTheDecodedCommand := by
  intro s rest w i hrun hdecode hevents
  rw [step_of_events hevents]
  exact command_of_decode (s := { s with events := rest }) hrun hdecode

/-- Settles O13: the state after reset, the values of log entry 4 among it, is what the reset input makes of it, and that meets the
invariants. -/
theorem resetMeetsTheInvariants : Obligations.ResetMeetsTheInvariants := by
  have h : InRange State.reset := InRange.takeReset memoriesWf_reset
  exact ⟨h.fits, h.units, h.memories, encoderOk_takeReset State.reset, deltaOk_takeReset State.reset⟩

end

section
/-! SUPPORT. The encoder's invariant (R30, R150) under every `LZW` operation that completes, and under a step. -/

namespace Sys2Proof.Machine

/-- A lookup changes the result flags of the Code Table only (R121). -/
theorem ctTryGet_ct (q : IndexSeq) (s : State) :
    (ctTryGet q s).ct = { s.ct with hit := (ctTryGet q s).ct.hit, codeQ := (ctTryGet q s).ct.codeQ } := by
  unfold ctTryGet; split <;> rfl

theorem ctTryGet_bw (q : IndexSeq) (s : State) : (ctTryGet q s).bw = s.bw := by unfold ctTryGet; split <;> rfl

/-- A sequence whose code R141 gives has one by R150. -/
theorem CodeTable.mapOk.has_of_codeOf {ct : CodeTable} (h : ct.mapOk) {q : IndexSeq} {c : Nat} (hq : codeOf ct q = some c) :
    ct.has q := by
  rcases h.codeOf_iff.1 hq with ⟨i, rfl, -⟩ | ⟨-, hmem⟩
  · exact .inl rfl
  · exact .inr (List.mem_map.2 ⟨_, hmem, rfl⟩)

/-- The match `q` has a code, and its indices are below `ClearCode` (R32, R143, R150). -/
structure MatchIn (ct : CodeTable) (q : IndexSeq) : Prop where
  coded : ct.has q
  literals : ∀ i ∈ q, i.toNat < ct.clearCode

theorem MatchIn.singleton {ct : CodeTable} {p : Byte} (hp : p.toNat < ct.clearCode) : MatchIn ct [p] :=
  ⟨.inl rfl, fun i hi => by rwa [List.mem_singleton.1 hi]⟩

/-- The match grows by an index as long as what it becomes has a code. -/
theorem MatchIn.extend {ct : CodeTable} {q : IndexSeq} (h : MatchIn ct q) {p : Byte} (hp : p.toNat < ct.clearCode)
    (hq : ct.has (q ++ [p])) : MatchIn ct (q ++ [p]) := by
  refine ⟨hq, fun i hi => ?_⟩
  rcases List.mem_append.1 hi with hi | hi
  · exact h.literals i hi
  · rwa [List.mem_singleton.1 hi]

/-- The encoder and its units in order: from `LZW.BEGIN` on the dictionary is that of R30, and in `RUN` the match is coded. -/
structure EncoderInOrder (b : BitWriter) (ct : CodeTable) (l : Lzw) : Prop where
  writer : b.ok
  table : ct.ok
  dictionary : l.st ≠ .idle → ct.tabOk
  current : l.st = .run → MatchIn ct l.cur

theorem encoderOk_iff {s : State} : s.encoderOk ↔ (s.flt.cause ≠ .sinkIo → EncoderInOrder s.bw s.ct s.lzw) := by
  constructor
  · intro h hc
    obtain ⟨hb, ht, hd, hm⟩ := h hc
    exact ⟨hb, ht, hd, fun hr => ⟨(hm hr).1, (hm hr).2⟩⟩
  · intro h hc
    obtain ⟨hb, ht, hd, hm⟩ := h hc
    exact ⟨hb, ht, hd, fun hr => ⟨(hm hr).coded, (hm hr).literals⟩⟩

/-- A frame has begun: the table is the one of a new clear cycle (R142). -/
theorem EncoderInOrder.of_beginFrame {n : Nat} {s t : State} (low : 1 ≤ n) (high : n ≤ 256)
    (hr : beginFrame Config.params n s = .ok t) : EncoderInOrder t.bw t.ct t.lzw := by
  obtain ⟨ht, hb, -⟩ := beginFrame_ok low high hr
  rw [ht]
  exact ⟨hb, started_ok (two_le_minCodeSize n) (minCodeSize_le low high), fun _ => started_tabOk _, fun h => nomatch h⟩

/-- A lookup keeps the encoder in order. -/
theorem EncoderInOrder.of_ctTryGet {s : State} {l : Lzw} (h : EncoderInOrder s.bw s.ct l) (q : IndexSeq) :
    EncoderInOrder (ctTryGet q s).bw (ctTryGet q s).ct l := by
  rw [ctTryGet_bw, ctTryGet_ct]
  exact ⟨h.writer, h.table, h.dictionary, fun hr => ⟨(h.current hr).coded, (h.current hr).literals⟩⟩

section
variable {s t : State} (h : EncoderInOrder s.bw s.ct s.lzw)
include h

theorem EncoderInOrder.of_firstPixel {p : Byte} (st : s.lzw.st = .first) (literal : p.toNat < s.ct.clearCode) :
    EncoderInOrder s.bw s.ct ⟨.run, [p]⟩ :=
  ⟨h.writer, h.table, fun _ => h.dictionary (by rw [st]; decide), fun _ => .singleton literal⟩

theorem EncoderInOrder.of_longerMatch {p : Byte} {c : Nat} (st : s.lzw.st = .run) (literal : p.toNat < s.ct.clearCode)
    (found : codeOf s.ct (s.lzw.cur ++ [p]) = some c) : EncoderInOrder s.bw s.ct { s.lzw with cur := s.lzw.cur ++ [p] } := by
  have hd := h.dictionary (by rw [st]; decide)
  exact ⟨h.writer, h.table, fun _ => hd, fun _ => (h.current st).extend literal (hd.map.has_of_codeOf found)⟩

/-- A miss adds the current match, which has a code, with one index more, or starts a new clear cycle on a full table (R144). -/
theorem EncoderInOrder.of_newMatch {p : Byte} {c : Nat} {q : IndexSeq} (st : s.lzw.st = .run) (cur : s.lzw.cur = q)
    (literal : p.toNat < s.ct.clearCode) (new : lookup (q ++ [p]) s.ct.tab = none)
    (hr : newMatch c (q ++ [p]) p s = .ok t) : EncoderInOrder t.bw t.ct t.lzw := by
  subst cur
  have hd := h.dictionary (by rw [st]; decide)
  by_cases hn : s.ct.next = 4096
  · obtain ⟨hb, -, ht⟩ := newMatch_full h.writer h.table hn hr
    obtain ⟨h2, h8, -⟩ := h.table
    rw [ht]
    exact ⟨hb, started_ok h2 h8, fun _ => started_tabOk _, fun _ => .singleton literal⟩
  · obtain ⟨hb, -, ht⟩ := newMatch_room h.writer h.table hn hr
    have hok := (h.table.added hn (s.lzw.cur ++ [p])).1
    have htab := hd.added h.table hn (h.current st).coded (lookup_eq_none.1 new)
    rw [ht]
    refine ⟨hb, hok, fun _ => htab, fun _ => .singleton ?_⟩
    rw [grow_insert_eq]
    exact literal

theorem EncoderInOrder.of_endFrame {c : Nat} (st : s.lzw.st = .run) (hr : endFrame Config.params c s = .ok t) :
    EncoderInOrder t.bw t.ct t.lzw := by
  obtain ⟨ht, -⟩ := endFrame_ok h.writer h.table hr
  rw [ht]
  exact ⟨empty_ok, h.table, fun _ => h.dictionary (by rw [st]; decide), fun hr => nomatch hr⟩

/-- Every `LZW` operation that completes keeps the encoder in order; the units' own operations do not come alone (R78). -/
theorem EncoderInOrder.of_run {i : Instr} (port : i.port = .commandPort) (hr : EncoderRun s i t) :
    EncoderInOrder t.bw t.ct t.lzw := by
  cases hr with
  | begin _ low high run => exact .of_beginFrame low high run
  | firstPixel st literal => exact h.of_firstPixel st literal
  | pixelHit st literal found => exact (h.of_longerMatch st literal found).of_ctTryGet _
  | @pixelMiss p _ _ st literal missed code run =>
    have hl := ctTryGet_lzw (s.lzw.cur ++ [p]) s
    rw [codeOf_long (length_extended code p), ← ctTryGet_ct_tab (s.lzw.cur ++ [p])] at missed
    refine .of_newMatch ?_ (by rw [hl]; exact st) (by rw [hl]) ?_ missed run
    · rw [hl]; exact h.of_ctTryGet _
    · rw [ctTryGet_ct]; exact literal
  | endFrame st _ run => exact h.of_endFrame st run
  | abort => exact ⟨empty_ok, h.table, fun hi => absurd rfl hi, fun hr => nomatch hr⟩
  | tableReset | tryGet | tryAdd | writeCode | flush => cases port
end

/-- A command of the command port keeps the encoder's invariant: the delta engine has no part in it, and after a sink failure
nothing is asked of the encoder (U4). -/
theorem encoderOk_exec {i : Instr} {s t : State} (h : s.encoderOk) (port : i.port = .commandPort) (hr : s.running)
    (hx : exec i s = .next t) : t.encoderOk := by
  have hs : EncoderInOrder s.bw s.ct s.lzw := encoderOk_iff.1 h (by rw [hr]; decide)
  refine encoderOk_iff.2 fun hc => ?_
  rcases exec_cases hr hx with ⟨hd, ht⟩ | ⟨-, ht⟩ | ⟨c, -, -, -, rfl⟩ | ⟨-, -, u, -, rfl⟩
  · have hrun : t.running := by rw [State.running, ht.frame.flt]; exact hr
    exact hs.of_run port (encoderRun_of_exec hr hrun hd hx)
  · rw [ht]; exact hs
  · exact hs
  · exact absurd rfl hc

theorem encoderOk_command {w : Word} {s t : State} (h : s.encoderOk) (hx : command .commandPort w s = .next t) :
    t.encoderOk := by
  rcases command_cases hx with ⟨-, rfl⟩ | ⟨hr, -, rfl⟩ | ⟨hr, i, -, port, hx⟩
  · exact h
  · exact fun _ => h (by rw [hr]; decide)
  · exact encoderOk_exec h port hr hx

/-- A step keeps the encoder in order while the bus carries the LZW unit's own calls only. -/
theorem encoderOk_step {s t : State} (h : s.encoderOk) (quiet : s.busQuiet) (hx : step s = .next t) : t.encoderOk := by
  rcases step_cases hx with ⟨-, rfl⟩ | ⟨e, rest, he, hx⟩
  · exact h
  · rcases hx with ⟨port, w, rfl, hx⟩ | ⟨-, rfl⟩ | ⟨-, cfg, rfl⟩ | ⟨-, -, -, -, hx⟩
    · cases port with
      | commandPort => exact encoderOk_command (s := { s with events := rest }) h hx
      | internalBus => exact absurd (by rw [he]; exact List.mem_cons_self) (quiet w)
    · exact encoderOk_takeReset _
    · exact h
    · rw [hx.frame]; exact h

theorem busQuiet_step {s t : State} (h : s.busQuiet) (hx : step s = .next t) : t.busQuiet := by
  intro w hm
  rw [step_events hx] at hm
  exact h w (List.mem_of_mem_tail hm)

end Sys2Proof.Machine
end

section
/-! SUPPORT. What the encoder and the delta engine leave of each other (R20, R215), and of the inputs (R44, R45). -/

namespace Sys2Proof.Machine

/-- The fault state included, an instruction keeps `cfg.*` and the events to come. -/
theorem exec_keeps_inputs {i : Instr} {s t : State} (hx : exec i s = .next t) : t.cfg = s.cfg ∧ t.events = s.events := by
  by_cases h : s.running
  · exact exec_inputs h hx
  · rw [exec_faulted h] at hx; cases hx; exact ⟨rfl, rfl⟩

/-- An operation of the encoder, or of its units, leaves the frame memories; and the delta engine too, unless a sink failure
makes all state of the block unspecified (U4, log entry 6). -/
theorem exec_encoder_keeps {i : Instr} {s t : State} (hd : isDelta i = false) (hx : exec i s = .next t) :
    t.frames = s.frames ∧ (t.de = s.de ∨ (s.running ∧ t.flt.cause = .sinkIo)) := by
  by_cases h : s.running
  · rcases exec_cases h hx with ⟨-, ht⟩ | ⟨hd', -⟩ | ⟨c, -, -, -, rfl⟩ | ⟨-, -, u, hu, rfl⟩
    · exact ⟨ht.frame.frames, .inl ht.frame.de⟩
    · rw [hd] at hd'; cases hd'
    · exact ⟨rfl, .inl rfl⟩
    · exact ⟨hu.frame.frames, .inr ⟨h, rfl⟩⟩
  · rw [exec_faulted h] at hx; cases hx; exact ⟨rfl, .inl rfl⟩

/-- An operation of the delta engine is ignored, faults in its check, or completes. -/
theorem exec_delta_cases {i : Instr} {s t : State} (hd : isDelta i = true) (hx : exec i s = .next t) :
    t = s ∨ (∃ c, t = s.raise c (encode i)) ∨ DeltaRun s i t := by
  by_cases h : s.running
  · rcases exec_cases h hx with ⟨hd', -⟩ | ⟨-, ht⟩ | ⟨c, -, -, -, rfl⟩ | ⟨hd', -⟩
    · rw [hd] at hd'; cases hd'
    · exact .inr (.inr (deltaRun_of_exec h (by rw [ht]; exact h) hd hx))
    · exact .inr (.inl ⟨c, rfl⟩)
    · rw [hd] at hd'; cases hd'
  · rw [exec_faulted h] at hx; cases hx; exact .inl rfl

theorem DeltaRun.frame {i : Instr} {s t : State} (h : DeltaRun s i t) : DeltaFrame s t := by
  cases h with
  | init => exact deltaFrame_initCanvas s
  | delta => exact deltaFrame_deltaFrame _ s
  | trim => exact deltaFrame_trimFrame _ s
  | dispose => exact deltaFrame_disposeFrame _ _ s
  | commit => exact deltaFrame_commitFrame s

/-- An operation of the delta engine leaves the encoder, its units and the sink. -/
theorem exec_delta_keeps {i : Instr} {s t : State} (hd : isDelta i = true) (hx : exec i s = .next t) :
    t.bw = s.bw ∧ t.ct = s.ct ∧ t.lzw = s.lzw ∧ t.out = s.out ∧ t.sinkFail = s.sinkFail ∧ t.free = s.free := by
  rcases exec_delta_cases hd hx with rfl | ⟨c, rfl⟩ | hr
  · exact ⟨rfl, rfl, rfl, rfl, rfl, rfl⟩
  · exact ⟨rfl, rfl, rfl, rfl, rfl, rfl⟩
  · rw [hr.frame]; exact ⟨rfl, rfl, rfl, rfl, rfl, rfl⟩

/-! ### The frame memories -/

theorem frames_disposeFrame (par : Config.Params) (b : BitVec 1) (s : State) : (disposeFrame par b s).frames = s.frames := by
  obtain ⟨d, -, e | e⟩ := disposeFrame_cases par b s
  all_goals rw [e]; rfl

theorem frames_commitFrame (s : State) : (commitFrame s).frames = s.frames := by
  obtain e | e := commitFrame_cases s
  all_goals rw [e]; rfl

/-- `DE.DELTA` changes one memory, which its operand names (R175). -/
theorem frames_deltaFrame_working (s : State) :
    (deltaFrame 0 s).frames = { s.frames with wb := (deltaFrame 0 s).frames.wb } := by
  unfold deltaFrame; split
  · rw [if_pos rfl]; rfl
  · rfl

theorem frames_deltaFrame_indexed (s : State) :
    (deltaFrame 1 s).frames = { s.frames with idx := (deltaFrame 1 s).frames.idx } := by
  unfold deltaFrame; split
  · rw [if_neg (by decide)]; split <;> rfl
  · rfl

/-- No other instruction changes a frame memory (R45). -/
theorem exec_frames {i : Instr} {s t : State} (hx : exec i s = .next t) (hi : ∀ b, i ≠ .deDelta b) :
    t.frames = s.frames := by
  cases hd : isDelta i with
  | false => exact (exec_encoder_keeps hd hx).1
  | true =>
    rcases exec_delta_cases hd hx with rfl | ⟨c, rfl⟩ | hr
    · rfl
    · rfl
    · cases hr with
      | delta => exact absurd rfl (hi _)
      | init | trim => rfl
      | dispose => exact frames_disposeFrame _ _ s
      | commit => exact frames_commitFrame s

theorem exec_deDelta_frames {b : BitVec 1} {s t : State} (hx : exec (.deDelta b) s = .next t) :
    t.frames = s.frames ∨ t.frames = (deltaFrame b s).frames := by
  rcases exec_delta_cases rfl hx with rfl | ⟨c, rfl⟩ | hr
  · exact .inl rfl
  · exact .inl rfl
  · cases hr; exact .inr rfl

end Sys2Proof.Machine
end

section
/-! SUPPORT. The events that are no command: the reset input (R230) and the host's actions on the inputs (R44, R45). -/

namespace Sys2Proof.Machine

/-- In the fault state a command is ignored (R210). -/
theorem command_faulted {s : State} (h : ¬ s.running) (port : Port) (w : Word) : command port w s = .next s :=
  unlessFaulted_faulted h _

/-- A step of a faulted block is the reset input, or leaves the block's registers and the record (R34, R210). -/
theorem step_faulted {s t : State} (h : ¬ s.running) (hx : step s = .next t) :
    (∃ rest, s.events = .rst :: rest ∧ t = State.takeReset { s with events := rest }) ∨
    (s.events.head? ≠ some .rst ∧ t = { s with cfg := t.cfg, frames := t.frames, events := t.events }) := by
  rcases step_cases hx with ⟨he, rfl⟩ | ⟨e, rest, he, hx⟩
  · exact .inr ⟨by rw [he]; simp, rfl⟩
  · rw [he, List.head?_cons]
    rcases hx with ⟨port, w, rfl, hx⟩ | ⟨rfl, rfl⟩ | ⟨⟨cfg, rfl⟩, _, rfl⟩ | ⟨-, hrst, -, -, hx⟩
    · rw [command_faulted (s := { s with events := rest }) h] at hx
      cases hx
      exact .inr ⟨by simp, rfl⟩
    · exact .inl ⟨rest, rfl, rfl⟩
    · exact .inr ⟨by simp, rfl⟩
    · exact .inr ⟨by simpa using hrst, by rw [hx.frame]⟩

/-- A host write to a pixel of the canvas sets the frame memories, and one outside it stops (R45, log entry 18). -/
theorem step_of_canvasWrite {s : State} {e : HostEvent} {rest : List HostEvent} {y x : BitVec 16} {f : Frames}
    (he : s.events = e :: rest)
    (ho : occur { s with events := rest } e = onCanvas y x { s with events := rest } f) :
    (s.cfg.has y.toNat x.toNat → step s = .next (State.setFrames { s with events := rest } f)) ∧
    (¬ s.cfg.has y.toNat x.toNat → step s = .fault .noSuchPixel) := by
  rw [step_of_events he, ho]
  exact ⟨fun hp => if_pos hp, fun hp => if_neg hp⟩

/-- An action of the host on the frame memories or on the palette's description (R45). -/
theorem step_hosted {s t : State} {e : HostEvent} {rest : List HostEvent} (he : s.events = e :: rest) (hx : step s = .next t)
    (hcmd : ∀ port w, e ≠ .command port w) (hrst : e ≠ .rst) (hcfg : ∀ cfg, e ≠ .configure cfg) :
    Hosted { s with events := rest } t ∧ t.cfg = s.cfg := by
  rcases step_cases hx with ⟨h0, -⟩ | ⟨e', rest', he', hx⟩
  · rw [he] at h0; cases h0
  · obtain ⟨rfl, rfl⟩ := List.cons.inj (he.symm.trans he')
    rcases hx with ⟨port, w, h, -⟩ | ⟨h, -⟩ | ⟨⟨cfg, h⟩, -⟩ | ⟨-, -, -, hc, hx⟩
    · exact absurd h (hcmd port w)
    · exact absurd h hrst
    · exact absurd h (hcfg cfg)
    · exact ⟨hx, hc⟩

/-- A pixel written reads as written, and every other pixel of a canvas as before. -/
theorem Memory.read_write_pixel {α : Type} [DecidableEq α] {d : α} {m : List (Nat × α)} (h : Memory.wf d m)
    (y x : BitVec 16) (v : α) :
    read d (write d m (pixel y.toNat x.toNat) v) (pixel y.toNat x.toNat) = v ∧
    ∀ y' x', x' < 65536 → (y', x') ≠ (y.toNat, x.toNat) →
      read d (write d m (pixel y.toNat x.toNat) v) (pixel y' x') = read d m (pixel y' x') := by
  refine ⟨read_write_same h _ _, fun y' x' hx' hne => read_write_other _ fun heq => hne ?_⟩
  obtain ⟨rfl, rfl⟩ := (pixel_inj hx' x.isLt).1 heq
  rfl

end Sys2Proof.Machine
end

section
/-! SUPPORT. The status port (R39): the codes of R31, R42, R91 and R201 tell the values apart, and a number that fits its register
is read back. -/

namespace Sys2Proof.Machine

theorem LzwSt.ofBits_code (st : LzwSt) : LzwSt.ofBits st.code = st := by cases st <;> rfl

theorem DeStep.ofBits_code (st : DeStep) : DeStep.ofBits st.code = st := by cases st <;> rfl

/-- The codes of R91 need two bits of the register's three. -/
theorem Disposal.ofBits_code (d : Disposal) : Disposal.ofBits (d.code.setWidth 2) = d := by cases d <;> rfl

theorem LzwSt.code_injective : Function.Injective LzwSt.code := Function.LeftInverse.injective LzwSt.ofBits_code

theorem DeStep.code_injective : Function.Injective DeStep.code := Function.LeftInverse.injective DeStep.ofBits_code

theorem Disposal.code_injective : Function.Injective Disposal.code :=
  Function.LeftInverse.injective (g := fun b : BitVec 3 => Disposal.ofBits (b.setWidth 2)) Disposal.ofBits_code

theorem Cause.code_injective : Function.Injective Cause.code := by
  intro a b
  cases a <;> cases b <;> decide

/-- A number that fits its register is shown as it is (R13, R39). -/
theorem toNat_ofNat_of_lt {w n : Nat} (h : n < 2 ^ w) : (BitVec.ofNat w n).toNat = n := by
  rw [BitVec.toNat_ofNat, Nat.mod_eq_of_lt h]

/-- Stored codes of 12 bits are all shown (R28, R39). -/
theorem status_ctTab {s : State} (h : ∀ e ∈ s.ct.tab, e.2 < 2 ^ 12) :
    s.status.ctTab.map (fun e => (e.1, e.2.toNat)) = s.ct.tab := by
  unfold State.status
  rw [List.map_map]
  refine (List.map_congr_left fun e he => ?_).trans (List.map_id _)
  exact Prod.ext rfl (toNat_ofNat_of_lt (h e he))

end Sys2Proof.Machine
end

section
/-! PROOF. The statements of the scope: the state, its units and its inputs. -/

open Sys2Proof Sys2Proof.Machine

/-- Settles O22: of the commands of the command port only those of the LZW unit touch the encoder. `LZW.BEGIN` and a full table
start a new dictionary; a miss adds the current match, which has a code, with one index more; and the match grows only to a
sequence that is stored. -/
theorem stepKeepsTheDictionaryInOrder : Obligations.StepKeepsTheDictionaryInOrder :=
  fun _ _ hencoder hquiet hx => ⟨encoderOk_step hencoder hquiet hx, busQuiet_step hquiet hx⟩

/-- Settles O10: a faulted block ignores every command, and the host's other actions change the inputs only. -/
theorem onlyResetLeavesTheFaultState : Obligations.OnlyResetLeavesTheFaultState := by
  intro s t hfault hx
  rcases step_faulted hfault hx with ⟨rest, he, rfl⟩ | ⟨hrst, ht⟩
  · rw [he]
    exact ⟨fun h => absurd rfl h, fun _ => rfl⟩
  · exact ⟨fun _ => by rw [ht]; exact ⟨rfl, rfl⟩, fun h => absurd h hrst⟩

/-- Settles O12: the reset input, new `cfg.*`, and a write to the frame memories each give the event's own inputs and no other. -/
theorem hostActionsChangeOnlyTheInputs : Obligations.HostActionsChangeOnlyTheInputs := by
  intro s t e rest he hx hcmd
  by_cases hrst : e = .rst
  · subst hrst
    rw [step_of_events he] at hx
    cases hx
    exact ⟨rfl, rfl, rfl, fun _ => ⟨rfl, rfl⟩, fun h => absurd rfl h, fun _ h => (nomatch h), fun _ => rfl⟩
  by_cases hcfg : ∃ cfg, e = .configure cfg
  · obtain ⟨cfg, rfl⟩ := hcfg
    rw [step_of_events he] at hx
    cases hx
    exact ⟨rfl, rfl, rfl, fun h => (nomatch h), fun _ => rfl, fun _ h => by cases h; exact ⟨rfl, rfl⟩,
      fun h => absurd rfl (h cfg)⟩
  · have hcfg := not_exists.1 hcfg
    obtain ⟨hhost, hsame⟩ := step_hosted he hx hcmd hrst hcfg
    have ht := hhost.frame
    exact ⟨by rw [ht], by rw [ht], by rw [ht], fun h => absurd h hrst, fun _ => ht, fun cfg h => absurd h (hcfg cfg),
      fun _ => hsame⟩

/-- Settles O19: an instruction that completes changes its own unit's state, a check's fault the fault registers, and only a sink
failure more than that. -/
theorem unitsShareNoState : Obligations.UnitsShareNoState := by
  intro i s t hx
  obtain ⟨hcfg, hevents⟩ := exec_keeps_inputs hx
  refine ⟨hcfg, hevents, fun hd => exec_encoder_keeps hd hx, fun hd => exec_delta_keeps hd hx, exec_frames hx, ?_, ?_⟩
  · rintro rfl
    rcases exec_deDelta_frames hx with h | h
    · rw [h]
    · rw [h]; exact frames_deltaFrame_working s
  · rintro rfl
    rcases exec_deDelta_frames hx with h | h
    · rw [h]
    · rw [h]; exact frames_deltaFrame_indexed s

/-- Settles O54: no two pixels of a canvas share an address, so a write to one leaves the others. -/
theorem hostWritesOnePixel : Obligations.HostWritesOnePixel := by
  refine ⟨?_, ?_, ?_, ?_, ?_⟩
  · rintro s rest y x c ⟨-, hwb, -⟩ he
    obtain ⟨inside, outside⟩ := step_of_canvasWrite he rfl
    exact ⟨fun hp => ⟨_, inside hp, rfl, Memory.read_write_pixel hwb y x c⟩, outside⟩
  · rintro s rest y x i ⟨-, -, hidx, -⟩ he
    obtain ⟨inside, outside⟩ := step_of_canvasWrite he rfl
    exact ⟨fun hp => ⟨_, inside hp, rfl, Memory.read_write_pixel hidx y x i⟩, outside⟩
  · rintro s rest y x c ⟨-, -, -, -, hnxt⟩ he
    obtain ⟨inside, outside⟩ := step_of_canvasWrite he rfl
    exact ⟨fun hp => ⟨_, inside hp, rfl, Memory.read_write_pixel hnxt y x c⟩, outside⟩
  · rintro s rest i c ⟨-, -, -, hpal, -⟩ he
    exact ⟨_, step_of_events he, rfl, Memory.read_write_same hpal _ _, fun j hj => Memory.read_write_other _ hj⟩
  · intro s rest n valid i he
    exact step_of_events he

/-- Settles O11: the values of R47 stand in what the reset input makes of any state, and in `State.reset`. -/
theorem resetGivesTheStatedValues : Obligations.ResetGivesTheStatedValues := by
  refine ⟨fun s rest he => ⟨_, step_of_events he, ?_⟩, ?_⟩
  · exact ⟨rfl, rfl, rfl, rfl, rfl, rfl, rfl, rfl, rfl, rfl⟩
  · exact ⟨rfl, rfl, rfl, rfl, rfl, rfl, rfl, rfl, rfl, rfl⟩

/-- Settles O20: a number below `2 ^ w` survives the register's `w` bits, and no two values share a code. -/
theorem statusPortShowsEveryRegister : Obligations.StatusPortShowsEveryRegister := by
  rintro s ⟨hnbits, hscnt, -, hmcs, hwidth, hnext, hcodeQ, htab, hlocX, hlocY, hfrW, hfrH⟩
  refine ⟨rfl, status_ctTab htab, rfl, rfl, rfl, toNat_ofNat_of_lt hnbits, toNat_ofNat_of_lt hscnt, toNat_ofNat_of_lt hmcs,
    toNat_ofNat_of_lt hwidth, toNat_ofNat_of_lt hnext, rfl, toNat_ofNat_of_lt hcodeQ, rfl, rfl, rfl, rfl, rfl,
    toNat_ofNat_of_lt hlocX, toNat_ofNat_of_lt hlocY, toNat_ofNat_of_lt hfrW, toNat_ofNat_of_lt hfrH, rfl, rfl, rfl, rfl,
    fun s' => ⟨?_, ?_, ?_, ?_⟩⟩
  · exact fun h => LzwSt.code_injective h
  · exact fun h => Cause.code_injective h
  · exact fun h => DeStep.code_injective h
  · exact fun h => Disposal.code_injective h

end

section
/-! SUPPORT. The commands in which a burst can fail, each as the operation it runs once its checks have passed (R142 to R147,
R100, R104); and that no instruction takes a byte back from the sink (R51). -/

namespace Sys2Proof.Machine

/-- What an instruction does to the record is to append to it, in the fault state and in a failure too. -/
theorem exec_out_grows {i : Instr} {s t : State} (hx : exec i s = .next t) : s.out <+: t.out := by
  by_cases h : s.running
  · rcases exec_cases h hx with ⟨-, ht⟩ | ⟨hd, -⟩ | ⟨c, -, -, -, rfl⟩ | ⟨-, -, u, hu, rfl⟩
    · exact ht.grows
    · obtain ⟨-, -, -, hout, -⟩ := exec_delta_keeps hd hx
      rw [hout]
    · exact List.prefix_rfl
    · exact hu.grows
  · rw [exec_faulted h] at hx; cases hx; exact List.prefix_rfl

section
variable {s : State} (h : s.running)
include h

theorem exec_lzwBegin_legal {n : BitVec 9} (st : s.lzw.st = .idle ∨ s.lzw.st = .done) (low : 1 ≤ n.toNat)
    (high : n.toNat ≤ 256) :
    exec (.lzwBegin n) s = finish (encode (.lzwBegin n)) (beginFrame Config.params n.toNat s) := by
  have legal : ¬ (n.toNat = 0 ∨ Config.paletteMax < n.toNat) := not_or.2 ⟨by omega, Nat.not_lt.2 high⟩
  change execLzwBegin n s = _
  unfold execLzwBegin
  dsimp only
  rw [unlessFaulted_running h]
  rcases st with st | st
  all_goals rw [st]; exact if_neg legal

theorem exec_bwWriteCode_legal {code : BitVec 12} {w : BitVec 4} (low : 1 ≤ w.toNat) (high : w.toNat ≤ 12) :
    exec (.bwWriteCode code w) s = finish (encode (.bwWriteCode code w)) (writeCode code.toNat w.toNat s) :=
  (unlessFaulted_running h _).trans (if_pos ⟨low, high⟩)

theorem exec_bwFlush_running : exec .bwFlush s = finish (encode .bwFlush) (flush s) := unlessFaulted_running h _

/-- A pixel that makes the match a sequence with no code ends the match (R144). -/
theorem exec_lzwPixel_miss {p : Byte} {c : Nat} (st : s.lzw.st = .run) (literal : p.toNat < s.ct.clearCode)
    (missed : codeOf s.ct (s.lzw.cur ++ [p]) = none) (code : codeOf s.ct s.lzw.cur = some c) :
    exec (.lzwPixel p) s =
      finish (encode (.lzwPixel p)) (newMatch c (s.lzw.cur ++ [p]) p (ctTryGet (s.lzw.cur ++ [p]) s)) := by
  change execLzwPixel p s = _
  unfold execLzwPixel
  dsimp only
  rw [unlessFaulted_running h, st]
  dsimp only
  rw [if_neg (Nat.not_le.2 literal)]
  unfold nextPixel
  dsimp only
  rw [ctTryGet_ct_hit, codeOf_ctTryGet, ctTryGet_lzw, missed, code]
  exact if_neg Bool.false_ne_true

theorem exec_lzwEnd_run {c : Nat} (st : s.lzw.st = .run) (code : codeOf s.ct s.lzw.cur = some c) :
    exec .lzwEnd s = finish (encode .lzwEnd) (endFrame Config.params c s) := by
  change execLzwEnd s = _
  unfold execLzwEnd
  dsimp only
  rw [unlessFaulted_running h, st]
  dsimp only
  rw [code]

end

end Sys2Proof.Machine
end

section
/-! SUPPORT. The bursts in which each command of the encoder can fail (R52, R207). -/

namespace Sys2Proof.Machine

/-- A miss in `LZW.PIXEL` appends one code, or two to a full table (R144): at most 24 bits. -/
theorem length_missBits {ct : CodeTable} (h : ct.ok) (c d : Nat) :
    (if ct.next < 4096 then bitsOf c ct.width else bitsOf c 12 ++ bitsOf d 12).length ≤ 24 := by
  obtain ⟨-, hwidth, -⟩ := h.width_bounds
  split
  · rw [length_bitsOf]; omega
  · rw [List.length_append, length_bitsOf, length_bitsOf]

section
variable {s : State} (h : s.running)
include h

theorem breaksIn_lzwBegin {n : BitVec 9} (st : s.lzw.st = .idle ∨ s.lzw.st = .done) (low : 1 ≤ n.toNat)
    (high : n.toNat ≤ 256) : s.breaksIn (.lzwBegin n) [[BitVec.ofNat 8 (minCodeSize n.toNat)]] := by
  obtain ⟨t, hm⟩ := makes_beginFrame (s := s) low high
  exact hm.breaks (exec_lzwBegin_legal h st low high) rfl rfl

theorem breaksIn_bwWriteCode {code : BitVec 12} {w : BitVec 4} {data : List Byte} (hb : s.bw.ok) (low : 1 ≤ w.toNat)
    (high : w.toNat ≤ 12) (hf : s.fills (bitsOf code.toNat w.toNat) data) :
    s.breaksIn (.bwWriteCode code w) [fullBlock data] := by
  obtain ⟨blocks, b, hm, hb', hl, hbits⟩ := makes_writeCode (c := code.toNat) (w := w.toNat) hb (by omega)
  have hn : (bitsOf code.toNat w.toNat).length ≤ 24 := by rw [length_bitsOf]; omega
  obtain rfl : blocks = [data] := blocks_of_fills hb hb' hl hn hbits hf
  exact hm.breaks (exec_bwWriteCode_legal h low high) rfl rfl

/-- The lookup before a miss leaves the Bit Writer, the sink and the counters as they are, so that the bits are those of `s`. -/
theorem breaksIn_lzwPixel {p : Byte} {c : Nat} {data : List Byte} (ho : EncoderInOrder s.bw s.ct s.lzw)
    (st : s.lzw.st = .run) (literal : p.toNat < s.ct.clearCode) (new : ∀ d, (s.lzw.cur ++ [p], d) ∉ s.ct.tab)
    (code : codeOf s.ct s.lzw.cur = some c)
    (hf : s.fills (if s.ct.next < 4096 then bitsOf c s.ct.width else bitsOf c 12 ++ bitsOf (2 ^ s.ct.mcs) 12) data) :
    s.breaksIn (.lzwPixel p) [fullBlock data] := by
  have missed : codeOf s.ct (s.lzw.cur ++ [p]) = none := by
    rw [codeOf_long (length_extended code p)]; exact lookup_eq_none.2 new
  have hx := exec_lzwPixel_miss h st literal missed code
  rw [ctTryGet_miss missed] at hx
  obtain ⟨blocks, t, hm, ht, hl, hbits⟩ := makes_newMatch (c := c) (q := s.lzw.cur ++ [p]) (p := p)
    (ho.of_ctTryGet (s.lzw.cur ++ [p])).writer (ho.of_ctTryGet (s.lzw.cur ++ [p])).table
  rw [ctTryGet_miss missed] at hm hbits
  obtain rfl : blocks = [data] := blocks_of_fills ho.writer ht hl (length_missBits ho.table c _) hbits hf
  exact hm.breaks hx rfl rfl

theorem breaksIn_lzwEnd {c : Nat} {data : List Byte} (ho : EncoderInOrder s.bw s.ct s.lzw) (st : s.lzw.st = .run)
    (code : codeOf s.ct s.lzw.cur = some c)
    (hp : s.packs (bitsOf c s.ct.width ++ bitsOf (2 ^ s.ct.mcs + 1) s.ct.width) data) :
    s.breaksIn .lzwEnd (closingBursts data) := by
  obtain ⟨blocks, b, t, hm, hb, hl, hbits⟩ := makes_endFrame (c := c) ho.writer ho.table
  obtain ⟨-, hwidth, -⟩ := ho.table.width_bounds
  have hn : (bitsOf c s.ct.width ++ bitsOf (2 ^ s.ct.mcs + 1) s.ct.width).length ≤ 24 := by
    rw [List.length_append, length_bitsOf, length_bitsOf]; omega
  rw [bursts_of_packs ho.writer hb hl hn hbits hp] at hm
  exact hm.breaks (exec_lzwEnd_run h st code) rfl rfl

theorem breaksIn_bwFlush (hb : s.bw.ok) : s.breaksIn .bwFlush (closingBursts s.bw.lastData) :=
  (makes_flush hb).breaks (exec_bwFlush_running h) rfl rfl

end

end Sys2Proof.Machine
end

section
/-! PROOF. The statements of the scope: the sink's record. -/

open Sys2Proof Sys2Proof.Machine

/-- Settles O27: each command runs, once its checks have passed, an operation whose bursts are known for every answer of the
oracle. The bits appended tell which sub-blocks those are: at most one is completed by the two codes an instruction emits. -/
theorem failedBurstLandsInPart : Obligations.FailedBurstLandsInPart := by
  intro s h
  have inOrder (he : s.encoderOk) : EncoderInOrder s.bw s.ct s.lzw := encoderOk_iff.1 he (by rw [h]; decide)
  have codeOf_cur {c : Nat} (he : s.encoderOk) (st : s.lzw.st = .run) (hc : s.ct.coded s.lzw.cur c) :
      codeOf s.ct s.lzw.cur = some c :=
    ((inOrder he).dictionary (by rw [st]; decide)).map.codeOf_iff.2 hc
  refine ⟨?_, ?_, ?_, ?_, ?_⟩
  · exact fun n st low high => breaksIn_lzwBegin h st low high
  · exact fun code w data hb low high hf => breaksIn_bwWriteCode h hb low high hf
  · intro p c data he st literal new hc hf
    exact breaksIn_lzwPixel h (inOrder he) st (by rwa [s.ct.clearCode_eq]) new (codeOf_cur he st hc) hf
  · exact fun c data he st hc hp => breaksIn_lzwEnd h (inOrder he) st (codeOf_cur he st hc) hp
  · exact breaksIn_bwFlush h

/-- Settles O18: every burst appends to the record, whatever the oracle answers. -/
theorem sinkIsAppendOnly : Obligations.SinkIsAppendOnly := fun _ _ _ hx => exec_out_grows hx

end

section
/-! SUPPORT. The encoder and the decoder undo each other (R70 to R76), and a word that selects a row of the operation map (R72) is
the word of an instruction of that row. -/

namespace Sys2Proof

/-! ### Operands in a word -/

/-- A field of `arg`, when `arg` is put together from parts of `n` bits in all. -/
theorem field_cmdWord (u o : BitVec 4) {n : Nat} (h : n = 24) (a : BitVec n) {k l : Nat} (hk : k + l ≤ 24) :
    (cmdWord u o (a.cast h)).extractLsb' k l = a.extractLsb' k l := by
  subst h
  exact argField_cmdWord u o a hk

section
variable (u o : BitVec 4) {k l m : Nat}

/-- The last operand stands in the low bits of the word. -/
theorem lastOperand_cmdWord (h : l + k = 24) (z : BitVec l) (x : BitVec k) :
    (cmdWord u o ((z ++ x).cast h)).extractLsb' 0 k = x := by
  rw [field_cmdWord u o h _ (by omega), extract_low _ _ (by omega), extract_all]

/-- The operand before the last stands above it. -/
theorem firstOperand_cmdWord (h : l + m + k = 24) (z : BitVec l) (x : BitVec m) (y : BitVec k) :
    (cmdWord u o ((z ++ x ++ y).cast h)).extractLsb' k m = x := by
  rw [field_cmdWord u o h _ (by omega), extract_high _ _ le_rfl, Nat.sub_self, extract_low _ _ (by omega), extract_all]

end

/-! ### The decoder reads back the encoder's words -/

theorem decode_cmdWord_lzw (o : BitVec 4) (a : BitVec 24) : decode (cmdWord 1 o a) = decodeLzw (cmdWord 1 o a) o.toNat := by
  unfold decode; rw [unitOf_cmdWord, opOf_cmdWord]; rfl

theorem decode_cmdWord_ct (o : BitVec 4) (a : BitVec 24) : decode (cmdWord 2 o a) = decodeCt (cmdWord 2 o a) o.toNat := by
  unfold decode; rw [unitOf_cmdWord, opOf_cmdWord]; rfl

theorem decode_cmdWord_bw (o : BitVec 4) (a : BitVec 24) : decode (cmdWord 3 o a) = decodeBw (cmdWord 3 o a) o.toNat := by
  unfold decode; rw [unitOf_cmdWord, opOf_cmdWord]; rfl

theorem decode_cmdWord_de (o : BitVec 4) (a : BitVec 24) : decode (cmdWord 4 o a) = decodeDe (cmdWord 4 o a) o.toNat := by
  unfold decode; rw [unitOf_cmdWord, opOf_cmdWord]; rfl

/-- The decoder's reading of an operation with one operand, below must-be-zero bits. -/
theorem ifZero_oneOperand {w : Word} {u o : BitVec 4} {k l : Nat} (h : l + k = 24) (x : BitVec k) (f : BitVec k → Instr)
    (hw : w = cmdWord u o ((0#l ++ x).cast h)) : ifZero (w.extractLsb' k l) (f (w.extractLsb' 0 k)) = .ok (f x) := by
  subst hw
  have zero : (cmdWord u o ((0#l ++ x).cast h)).extractLsb' k l = 0 := by
    rw [field_cmdWord u o h _ (by omega), extract_high _ _ le_rfl, Nat.sub_self]
    exact extract_all _
  rw [zero, lastOperand_cmdWord]
  exact ifZero_zero _

/-- The decoder's reading of an operation with two operands, side by side below must-be-zero bits. -/
theorem ifZero_twoOperands {w : Word} {u o : BitVec 4} {k l m : Nat} (h : l + m + k = 24) (x : BitVec m) (y : BitVec k)
    (f : BitVec m → BitVec k → Instr) (hw : w = cmdWord u o ((0#l ++ x ++ y).cast h)) :
    ifZero (w.extractLsb' (m + k) l) (f (w.extractLsb' k m) (w.extractLsb' 0 k)) = .ok (f x y) := by
  subst hw
  have zero : (cmdWord u o ((0#l ++ x ++ y).cast h)).extractLsb' (m + k) l = 0 := by
    rw [field_cmdWord u o h _ (by omega), extract_high _ _ (by omega), Nat.add_sub_cancel, extract_high _ _ le_rfl,
      Nat.sub_self]
    exact extract_all _
  rw [zero, firstOperand_cmdWord, lastOperand_cmdWord]
  exact ifZero_zero _

theorem decode_encode (i : Instr) : decode (encode i) = .ok i := by
  cases i with
  | lzwBegin n => exact (decode_cmdWord_lzw _ _).trans (ifZero_oneOperand rfl n .lzwBegin rfl)
  | lzwPixel p => exact (decode_cmdWord_lzw _ _).trans (ifZero_oneOperand rfl p .lzwPixel rfl)
  | lzwEnd => rfl
  | lzwAbort => rfl
  | ctReset => rfl
  | ctTryGet pre last => exact (decode_cmdWord_ct _ _).trans (ifZero_twoOperands rfl pre last .ctTryGet rfl)
  | ctTryAdd pre last => exact (decode_cmdWord_ct _ _).trans (ifZero_twoOperands rfl pre last .ctTryAdd rfl)
  | bwWriteCode code bitWidth =>
    exact (decode_cmdWord_bw _ _).trans (ifZero_twoOperands rfl bitWidth code (fun b c => .bwWriteCode c b) rfl)
  | bwFlush => rfl
  | deInit => rfl
  | deDelta indexed => exact (decode_cmdWord_de _ _).trans (ifZero_oneOperand rfl indexed .deDelta rfl)
  | deTrim => rfl
  | deDispose hasNext => exact (decode_cmdWord_de _ _).trans (ifZero_oneOperand rfl hasNext .deDispose rfl)
  | deCommit => rfl

/-! ### Words with an operation's `unit` and `op` and zero must-be-zero bits -/

/-- The word has the `unit` and `op`, and its bits from `k` up to `arg`'s end, `l` of them, are zero. -/
structure HasFields (w : Word) (u o : BitVec 4) (k l : Nat) : Prop where
  unit : unitOf w = u
  op : opOf w = o
  zero : w.extractLsb' k l = 0

section
variable {w : Word} {u o : BitVec 4} {k l m : Nat}

theorem HasFields.noOperand (h : HasFields w u o 0 24) : cmdWord u o 0 = w := by
  obtain ⟨rfl, rfl, zero⟩ := h
  rw [← zero]
  exact cmdWord_fields w

theorem HasFields.oneOperand (h : HasFields w u o k l) (hk : l + k = 24) :
    cmdWord u o ((0#l ++ w.extractLsb' 0 k).cast hk) = w := by
  obtain ⟨rfl, rfl, zero⟩ := h
  have arg : (w.extractLsb' 0 (l + k)).cast hk = argOf w := by
    apply BitVec.eq_of_toNat_eq; simp [hk]
  rw [argOf_of_zero k l zero, arg]
  exact cmdWord_fields w

theorem HasFields.twoOperands (h : HasFields w u o (m + k) l) (hk : l + m + k = 24) :
    cmdWord u o ((0#l ++ w.extractLsb' k m ++ w.extractLsb' 0 k).cast hk) = w := by
  have pair := append_extract w 0 k m
  rw [Nat.zero_add] at pair
  rw [BitVec.append_assoc, pair]
  exact h.oneOperand (by omega)

end

/-! ### What decodes is its instruction's word -/

section
variable {w : Word} {i : Instr}

/-- An operation's must-be-zero bits are zero in a word that decodes to it, which is then what its fields make. -/
theorem encode_of_ifZero {n : Nat} {u : BitVec 4} {k l : Nat} {j : Instr} (unit : unitOf w = u) (op : (opOf w).toNat = n)
    (hi : ifZero (w.extractLsb' k l) j = .ok i) (word : HasFields w u (BitVec.ofNat 4 n) k l → encode j = w) :
    encode i = w := by
  obtain ⟨zero, rfl⟩ := ifZero_ok hi
  exact word ⟨unit, by rw [← op, BitVec.ofNat_toNat, BitVec.setWidth_eq], zero⟩

theorem encode_of_decodeLzw (unit : unitOf w = 1) : ∀ {n : Nat}, (opOf w).toNat = n → decodeLzw w n = .ok i → encode i = w
  | 0, op, hi => encode_of_ifZero unit op hi fun h => h.oneOperand rfl
  | 1, op, hi => encode_of_ifZero unit op hi fun h => h.oneOperand rfl
  | 2, op, hi => encode_of_ifZero unit op hi fun h => h.noOperand
  | 3, op, hi => encode_of_ifZero unit op hi fun h => h.noOperand

theorem encode_of_decodeCt (unit : unitOf w = 2) : ∀ {n : Nat}, (opOf w).toNat = n → decodeCt w n = .ok i → encode i = w
  | 0, op, hi => encode_of_ifZero unit op hi fun h => h.noOperand
  | 1, op, hi => encode_of_ifZero unit op hi fun h => h.twoOperands (m := 12) rfl
  | 2, op, hi => encode_of_ifZero unit op hi fun h => h.twoOperands (m := 12) rfl

theorem encode_of_decodeBw (unit : unitOf w = 3) : ∀ {n : Nat}, (opOf w).toNat = n → decodeBw w n = .ok i → encode i = w
  | 0, op, hi => encode_of_ifZero unit op hi fun h => h.twoOperands (m := 4) rfl
  | 1, op, hi => encode_of_ifZero unit op hi fun h => h.noOperand

theorem encode_of_decodeDe (unit : unitOf w = 4) : ∀ {n : Nat}, (opOf w).toNat = n → decodeDe w n = .ok i → encode i = w
  | 0, op, hi => encode_of_ifZero unit op hi fun h => h.noOperand
  | 1, op, hi => encode_of_ifZero unit op hi fun h => h.oneOperand rfl
  | 2, op, hi => encode_of_ifZero unit op hi fun h => h.noOperand
  | 3, op, hi => encode_of_ifZero unit op hi fun h => h.oneOperand rfl
  | 4, op, hi => encode_of_ifZero unit op hi fun h => h.noOperand

theorem encode_of_decode (hi : decode w = .ok i) : encode i = w := by
  unfold decode at hi
  split at hi
  case h_1 unit => exact encode_of_decodeLzw (BitVec.eq_of_toNat_eq unit) rfl hi
  case h_2 unit => exact encode_of_decodeCt (BitVec.eq_of_toNat_eq unit) rfl hi
  case h_3 unit => exact encode_of_decodeBw (BitVec.eq_of_toNat_eq unit) rfl hi
  case h_4 unit => exact encode_of_decodeDe (BitVec.eq_of_toNat_eq unit) rfl hi
  case h_5 => cases hi

end

/-! ### The rows of the operation map -/

section
variable {w : Word} {r : OpRow}

/-- A row whose mask leaves the operands out fixes the other fields of the words that select it. -/
theorem HasFields.of_selects {u o : BitVec 4} {k l : Nat} (h : r.selects w = true) (hk : l + k = 24)
    (mask : r.mask = cmdWord 0xF 0xF ((BitVec.allOnes l ++ 0#k).cast hk)) (pattern : r.pattern = cmdWord u o 0) :
    HasFields w u o k l := by
  have masked : w &&& cmdWord 0xF 0xF ((BitVec.allOnes l ++ 0#k).cast hk) = cmdWord u o 0 := by
    rw [← mask, ← pattern]; exact beq_iff_eq.1 h
  have field (j n : Nat) := congrArg (BitVec.extractLsb' j n) masked
  simp only [BitVec.extractLsb'_and] at field
  refine ⟨?_, ?_, ?_⟩
  · have := field 28 4
    rw [unitOf_cmdWord, unitOf_cmdWord] at this
    rwa [← BitVec.and_allOnes (x := unitOf w)]
  · have := field 24 4
    rw [opOf_cmdWord, opOf_cmdWord] at this
    rwa [← BitVec.and_allOnes (x := opOf w)]
  · have := field k l
    rw [field_cmdWord _ _ hk _ (by omega), extract_high _ _ le_rfl, Nat.sub_self, extract_all, BitVec.and_allOnes,
      argField_cmdWord _ _ _ (by omega)] at this
    rw [this]; simp

/-- A word that selects a row is the word of an instruction of that row's operation. -/
theorem exists_encode_of_selects (hr : r ∈ opRows) (h : r.selects w = true) :
    ∃ i, encode i = w ∧ i.mnemonic = r.mnemonic := by
  unfold opRows at hr
  simp only [List.cons_append, List.nil_append, List.mem_cons, List.not_mem_nil, or_false] at hr
  obtain rfl | rfl | rfl | rfl | rfl | rfl | rfl | rfl | rfl | rfl | rfl | rfl | rfl | rfl := hr
  · exact ⟨.lzwBegin _, (HasFields.of_selects h rfl rfl rfl).oneOperand rfl, rfl⟩
  · exact ⟨.lzwPixel _, (HasFields.of_selects h rfl rfl rfl).oneOperand rfl, rfl⟩
  · exact ⟨.lzwEnd, (HasFields.of_selects h rfl rfl rfl).noOperand, rfl⟩
  · exact ⟨.lzwAbort, (HasFields.of_selects h rfl rfl rfl).noOperand, rfl⟩
  · exact ⟨.ctReset, (HasFields.of_selects h rfl rfl rfl).noOperand, rfl⟩
  · exact ⟨.ctTryGet _ _, (HasFields.of_selects h rfl rfl rfl).twoOperands (m := 12) rfl, rfl⟩
  · exact ⟨.ctTryAdd _ _, (HasFields.of_selects h rfl rfl rfl).twoOperands (m := 12) rfl, rfl⟩
  · exact ⟨.bwWriteCode _ _, (HasFields.of_selects h rfl rfl rfl).twoOperands (m := 4) rfl, rfl⟩
  · exact ⟨.bwFlush, (HasFields.of_selects h rfl rfl rfl).noOperand, rfl⟩
  · exact ⟨.deInit, (HasFields.of_selects h rfl rfl rfl).noOperand, rfl⟩
  · exact ⟨.deDelta _, (HasFields.of_selects h rfl rfl rfl).oneOperand rfl, rfl⟩
  · exact ⟨.deTrim, (HasFields.of_selects h rfl rfl rfl).noOperand, rfl⟩
  · exact ⟨.deDispose _, (HasFields.of_selects h rfl rfl rfl).oneOperand rfl, rfl⟩
  · exact ⟨.deCommit, (HasFields.of_selects h rfl rfl rfl).noOperand, rfl⟩

/-- Of two rows, the words that select the one do not select the other (R72). -/
theorem eq_of_selects {r' : OpRow} (hr : r ∈ opRows) (hr' : r' ∈ opRows) (h : r.selects w = true) (h' : r'.selects w = true) :
    r = r' := by
  have apart : ∀ r ∈ opRows, ∀ r' ∈ opRows, r.pattern &&& r'.mask = r'.pattern &&& r.mask → r = r' := by decide
  refine apart r hr r' hr' ?_
  rw [← beq_iff_eq.1 h, ← beq_iff_eq.1 h', BitVec.and_assoc, BitVec.and_assoc, BitVec.and_comm r.mask]

end

/-- The word of an instruction selects the instruction's row. -/
theorem exists_row_of_encode (i : Instr) :
    ∃ r ∈ opRows, r.mnemonic = i.mnemonic ∧ r.port = i.port ∧ r.selects (encode i) = true := by
  cases i with
  | lzwBegin n => exact Laws.Encodes.lzwBegin n
  | lzwPixel p => exact Laws.Encodes.lzwPixel p
  | lzwEnd => exact Laws.Encodes.lzwEnd
  | lzwAbort => exact Laws.Encodes.lzwAbort
  | ctReset => exact Laws.Encodes.ctReset
  | ctTryGet pre last => exact Laws.Encodes.ctTryGet pre last
  | ctTryAdd pre last => exact Laws.Encodes.ctTryAdd pre last
  | bwWriteCode code bitWidth => exact Laws.Encodes.bwWriteCode code bitWidth
  | bwFlush => exact Laws.Encodes.bwFlush
  | deInit => exact Laws.Encodes.deInit
  | deDelta indexed => exact Laws.Encodes.deDelta indexed
  | deTrim => exact Laws.Encodes.deTrim
  | deDispose hasNext => exact Laws.Encodes.deDispose hasNext
  | deCommit => exact Laws.Encodes.deCommit

/-! ### Illegal words (R77) -/

/-- How many operations the unit with this number has (R72). -/
def opCount (u : BitVec 4) : Nat :=
  match u.toNat with
  | 1 => 4
  | 2 => 3
  | 3 => 2
  | 4 => 5
  | _ => 0

theorem opOf_cmdWord_lt {u o : BitVec 4} (a : BitVec 24) (h : o.toNat < opCount u) :
    (opOf (cmdWord u o a)).toNat < opCount (unitOf (cmdWord u o a)) := by
  unfold opOf unitOf
  rwa [opOf_cmdWord, unitOf_cmdWord]

theorem opOf_encode_lt (i : Instr) : (opOf (encode i)).toNat < opCount (unitOf (encode i)) := by
  cases i <;> exact opOf_cmdWord_lt _ (by decide)

/-- An `op` that the unit does not have is illegal; so is every `op` of a unit that does not exist. -/
theorem illegal_of_opCount_le {w : Word} (h : opCount (unitOf w) ≤ (opOf w).toNat) : ∃ e, decode w = .error e := by
  cases hd : decode w with
  | error e => exact ⟨e, rfl⟩
  | ok i =>
    have := opOf_encode_lt i
    rw [encode_of_decode hd] at this
    omega

theorem illegal_iff {w : Word} : (∃ e, decode w = .error e) ↔ ∀ r ∈ opRows, r.selects w = false := by
  constructor
  · rintro ⟨e, he⟩ r hr
    by_contra hs
    obtain ⟨i, rfl, -⟩ := exists_encode_of_selects hr (Bool.eq_true_of_not_eq_false hs)
    rw [decode_encode] at he
    cases he
  · intro h
    cases hd : decode w with
    | error e => exact ⟨e, rfl⟩
    | ok i =>
      obtain ⟨r, hr, -, -, hs⟩ := exists_row_of_encode i
      rw [encode_of_decode hd, h r hr] at hs
      cases hs

/-! ### Words on the bus -/

namespace Machine

/-- The internal bus refuses a word that is no `CT` or `BW` operation (R78, log entry 2). -/
theorem command_bus_refused {s : State} (h : s.running) {w : Word} (other : ∀ i, decode w = .ok i → i.port = .commandPort) :
    command .internalBus w s = .refused .noSuchBusWord := by
  unfold command
  rw [unlessFaulted_running h]
  cases hd : decode w with
  | error e => rfl
  | ok i => exact if_neg (by rw [other i hd]; decide)

/-- Operands that spell no sequence are refused by both operations that take some (R75, U10). -/
theorem exec_noSuchSequence {s : State} (h : s.running) {pre : BitVec 12} {last : Byte} (none : busSeq s.ct pre last = none) :
    exec (.ctTryGet pre last) s = .refused .noSuchSequence ∧ exec (.ctTryAdd pre last) s = .refused .noSuchSequence := by
  unfold exec execCtTryGet execCtTryAdd
  dsimp only
  rw [unlessFaulted_running h, unlessFaulted_running h, none]
  exact ⟨rfl, rfl⟩

end Machine

end Sys2Proof
end

section
/-! SUPPORT. The frame function (R149), with its variables `tab`, `width` and `next` as a Code Table in order, and the codes it has
emitted in their widths (R81, R82, R86, R129). -/

namespace Sys2Proof.Machine

/-! ### The codes of an open frame -/

/-- The width of a code is at least that of the code before it, or it is `mcs + 1` after a `ClearCode` (R82, R86). -/
def WidthFollows (m : Nat) (e e' : Emitted) : Prop := e.2 ≤ e'.2 ∨ (e.1 = 2 ^ m ∧ e'.2 = m + 1)

/-- The codes of a frame that has not ended, whose next code has the width `w`. -/
structure OpenCodes (m : Nat) (codes : List Emitted) (w : Nat) : Prop where
  fit : ∀ e ∈ codes, e.1 < 2 ^ e.2 ∧ m + 1 ≤ e.2 ∧ e.2 ≤ 12
  first : codes.head? = some (2 ^ m, m + 1)
  noEoi : ∀ e ∈ codes, e.1 ≠ 2 ^ m + 1
  widths : ∀ c, (codes ++ [(c, w)]).IsChain (WidthFollows m)

theorem OpenCodes.start {m : Nat} (h : m ≤ 8) : OpenCodes m [(2 ^ m, m + 1)] (m + 1) := by
  have fits : 2 ^ m < 2 ^ (m + 1) := Nat.pow_lt_pow_right (by decide) (Nat.lt_succ_self m)
  refine ⟨?_, rfl, ?_, ?_⟩
  · intro e he
    obtain rfl := List.mem_singleton.1 he
    exact ⟨fits, le_rfl, by omega⟩
  · simp
  · intro c
    exact .cons_cons (.inl le_rfl) (.singleton _)

section
variable {m w : Nat} {codes : List Emitted} (h : OpenCodes m codes w) (low : m + 1 ≤ w) (high : w ≤ 12)
include h low high

theorem OpenCodes.fit_append {c : Nat} (fits : c < 2 ^ w) :
    ∀ e ∈ codes ++ [(c, w)], e.1 < 2 ^ e.2 ∧ m + 1 ≤ e.2 ∧ e.2 ≤ 12 := by
  intro e he
  rcases List.mem_append.1 he with he | he
  · exact h.fit e he
  · obtain rfl := List.mem_singleton.1 he
    exact ⟨fits, low, high⟩

omit low high in
theorem OpenCodes.first_append (e : Emitted) : (codes ++ [e]).head? = some (2 ^ m, m + 1) := by
  rw [List.head?_append, h.first]; rfl

/-- A code that is not `EOI` is emitted at the width `w`, and `w'` is the width after it. -/
theorem OpenCodes.emit {c w' : Nat} (fits : c < 2 ^ w) (eoi : c ≠ 2 ^ m + 1) (next : w ≤ w' ∨ (c = 2 ^ m ∧ w' = m + 1)) :
    OpenCodes m (codes ++ [(c, w)]) w' := by
  refine ⟨h.fit_append low high fits, h.first_append _, ?_, ?_⟩
  · intro e he
    rcases List.mem_append.1 he with he | he
    · exact h.noEoi e he
    · obtain rfl := List.mem_singleton.1 he
      exact eoi
  · intro d
    rw [List.append_assoc]
    exact List.isChain_append_cons_cons.2 ⟨h.widths c, next, .singleton _⟩

end

/-! ### The variables of the frame function -/

/-- The dictionary of the frame function as a Code Table. -/
def Parse.table (m : Nat) (f : Parse) : CodeTable := ⟨m, f.width, f.next, f.tab, false, 0, false⟩

theorem Parse.code_eq (m : Nat) (f : Parse) : f.code = codeOf (f.table m) f.cur := by
  obtain ⟨codes, tab, width, next, cur⟩ := f
  match cur with
  | [] => rfl
  | [_] => rfl
  | _ :: _ :: _ => rfl

/-- What one turn of the loop of R149 can do: the match grows, its code is emitted and the longer sequence stored, or on a full table a
new clear cycle begins. -/
inductive Turn (m : Nat) (f : Parse) (p : Byte) : Parse → Prop
  | longerMatch : Turn m f p { f with cur := f.cur ++ [p] }
  | newCode {c : Nat} {g : Parse} (code : f.code = some c) (new : lookup (f.cur ++ [p]) f.tab = none) (room : f.next ≠ 4096)
      (codes : g.codes = f.codes ++ [(c, f.width)]) (table : g.table m = (f.table m).grow.insert (f.cur ++ [p]))
      (cur : g.cur = [p]) : Turn m f p g
  | newCycle {c : Nat} (code : f.code = some c) (full : f.next = 4096) :
      Turn m f p ⟨f.codes ++ [(c, f.width)] ++ [(2 ^ m, f.width)], [], m + 1, 2 ^ m + 2, [p]⟩

theorem turn_of_pixel {m : Nat} {f g : Parse} {p : Byte} (h : f.pixel m p = some g) : Turn m f p g := by
  unfold Parse.pixel at h
  dsimp only at h
  split at h
  · cases h; exact .longerMatch
  · rename_i new
    obtain ⟨c, code, h⟩ := Option.map_eq_some_iff.1 h
    rw [Nat.one_shiftLeft, Nat.one_shiftLeft] at h
    split at h
    · rename_i full
      rw [← h, List.append_cons]
      exact .newCycle code full
    · rename_i room
      subst h
      refine .newCode code new room rfl ?_ rfl
      rw [grow_insert_eq]
      rfl

/-- The frame function's variables in order: the dictionary is a Code Table's (R30), the match is of indices below `ClearCode`, and the
codes so far fit. -/
structure Parse.InOrder (m : Nat) (f : Parse) : Prop where
  table : (f.table m).ok
  map : (f.table m).mapOk
  literals : ∀ i ∈ f.cur, i.toNat < 2 ^ m
  codes : OpenCodes m f.codes f.width

theorem Parse.inOrder_start {m : Nat} (low : 2 ≤ m) (high : m ≤ 8) {p : Byte} (hp : p.toNat < 2 ^ m) :
    (Parse.start m p).InOrder m := by
  unfold Parse.start
  rw [Nat.one_shiftLeft]
  exact ⟨started_ok low high, started_mapOk m, by simpa using hp, .start high⟩

section
variable {m : Nat} {f : Parse} (h : f.InOrder m)
include h

theorem Parse.InOrder.width_bounds : m + 1 ≤ f.width ∧ f.width ≤ 12 ∧ f.next ≤ 2 ^ f.width := h.table.width_bounds

/-- The code of the match is a literal, below `ClearCode`, or a stored code, above `EOI` and below `next`. -/
theorem Parse.InOrder.code_bounds {c : Nat} (code : f.code = some c) : c < 2 ^ f.width ∧ c ≠ 2 ^ m + 1 := by
  obtain ⟨low, -, next⟩ := h.width_bounds
  have clear : 2 ^ m < 2 ^ f.width := Nat.pow_lt_pow_right (by decide) low
  rw [Parse.code_eq m] at code
  rcases h.map.codeOf_iff.1 code with ⟨i, cur, rfl⟩ | ⟨-, stored⟩
  · have := h.literals i (by rw [cur]; exact List.mem_singleton_self i)
    omega
  · obtain ⟨-, above, below⟩ := h.map.2.2 _ stored
    rw [CodeTable.firstCode_eq] at above
    dsimp only [Parse.table] at above below
    omega

theorem Parse.InOrder.emit {c w : Nat} (code : f.code = some c) (wider : f.width ≤ w) :
    OpenCodes m (f.codes ++ [(c, f.width)]) w := by
  obtain ⟨low, high, -⟩ := h.width_bounds
  obtain ⟨fits, eoi⟩ := h.code_bounds code
  exact h.codes.emit low high fits eoi (.inl wider)

theorem Parse.InOrder.turn {p : Byte} {g : Parse} (hp : p.toNat < 2 ^ m) (ht : Turn m f p g) : g.InOrder m := by
  cases ht with
  | longerMatch =>
    refine ⟨h.table, h.map, fun i hi => ?_, h.codes⟩
    rcases List.mem_append.1 hi with hi | hi
    · exact h.literals i hi
    · rwa [List.mem_singleton.1 hi]
  | newCode code new room codes table cur =>
    obtain ⟨ok, wider⟩ := h.table.added room (f.cur ++ [p])
    have long := length_extended (Parse.code_eq m f ▸ code) p
    have map := h.map.added h.table long (lookup_eq_none.1 new)
    have width : g.width = (f.table m).grow.width := congrArg CodeTable.width table
    rw [← table] at ok map
    refine ⟨ok, map, by rw [cur]; simpa using hp, ?_⟩
    rw [codes, width]
    exact h.emit code wider
  | @newCycle c code full =>
    obtain ⟨low, high, -⟩ := h.width_bounds
    obtain ⟨two, eight, -⟩ := h.table
    refine ⟨started_ok two eight, started_mapOk m, by simpa using hp, ?_⟩
    exact (h.emit code le_rfl).emit low high (Nat.pow_lt_pow_right (by decide) low) (by omega) (.inr ⟨rfl, rfl⟩)

end

/-- The loop of R149 keeps its variables in order. -/
theorem Parse.InOrder.pixels {m : Nat} {g : Parse} : ∀ {ps : List Byte} {f : Parse}, f.InOrder m →
    (∀ p ∈ ps, p.toNat < 2 ^ m) → Parse.pixels m f ps = some g → g.InOrder m
  | [], _, h, _, hg => by cases hg; exact h
  | p :: ps, f, h, hp, hg => by
    obtain ⟨f', turn, rest⟩ := Option.bind_eq_some_iff.1 hg
    obtain ⟨hp, hps⟩ := List.forall_mem_cons.1 hp
    exact (h.turn hp (turn_of_pixel turn)).pixels hps rest

/-- A frame's codes are those of an open frame and, last, `EOI` at the width they leave (R147). -/
theorem exists_openCodes_of_frameCodes {m : Nat} {pixels : List Byte} {codes : List Emitted} (low : 2 ≤ m) (high : m ≤ 8)
    (hp : ∀ p ∈ pixels, p.toNat < 2 ^ m) (hc : frameCodes m pixels = some codes) :
    ∃ body w, codes = body ++ [(2 ^ m + 1, w)] ∧ OpenCodes m body w ∧ m + 1 ≤ w ∧ w ≤ 12 := by
  match pixels, hp, hc with
  | p :: ps, hp, hc =>
    obtain ⟨hp, hps⟩ := List.forall_mem_cons.1 hp
    obtain ⟨f, loop, last⟩ := Option.bind_eq_some_iff.1 hc
    have hf := (Parse.inOrder_start low high hp).pixels hps loop
    obtain ⟨c, code, rfl⟩ := Option.map_eq_some_iff.1 last
    obtain ⟨wlow, whigh, -⟩ := hf.width_bounds
    refine ⟨f.codes ++ [(c, f.width)], f.width, ?_, hf.emit code le_rfl, wlow, whigh⟩
    rw [Nat.one_shiftLeft, ← List.append_cons]

end Sys2Proof.Machine
end

section
/-! PROOF. The statements of the scope: the encoding. -/

open Sys2Proof Sys2Proof.Machine

/-- Settles O2: `unit` and `op` of an instruction's word choose the decoder's branch, whose fields give back the operands. -/
theorem decodeOfEncodeIsTheInstruction : Obligations.DecodeOfEncodeIsTheInstruction := decode_encode

/-- Settles O3: in each branch of the decoder `unit`, `op` and the must-be-zero bits are known, and the operands are the rest. -/
theorem decodedWordsAreTheirEncodings : Obligations.DecodedWordsAreTheirEncodings := fun _ _ => encode_of_decode

/-- Settles O4: a word that decodes is its instruction's, which selects its row, and a word that selects a row is an instruction's. -/
theorem decoderFollowsTheOperationMap : Obligations.DecoderFollowsTheOperationMap := by
  intro w
  have operands {i : Instr} (hd : decode w = .ok i) : w = encode i := (encode_of_decode hd).symm
  refine ⟨fun i hd => ?_, fun r hr hs => ?_, fun r hr r' hr' => eq_of_selects hr hr', fun n hd => ?_, fun p hd => ?_,
    fun pre last hd => ?_, fun pre last hd => ?_, fun code n hd => ?_, fun b hd => ?_, fun b hd => ?_⟩
  · obtain ⟨r, hr, mnemonic, port, hs⟩ := exists_row_of_encode i
    exact ⟨r, hr, operands hd ▸ hs, mnemonic, port⟩
  · obtain ⟨i, rfl, mnemonic⟩ := exists_encode_of_selects hr hs
    exact ⟨i, decode_encode i, mnemonic⟩
  · exact operands hd ▸ (lastOperand_cmdWord 1 0 rfl 0#15 n).symm
  · exact operands hd ▸ (lastOperand_cmdWord 1 1 rfl 0#16 p).symm
  · exact operands hd ▸
      ⟨(firstOperand_cmdWord 2 1 rfl 0#4 pre last).symm, (lastOperand_cmdWord 2 1 rfl (0#4 ++ pre) last).symm⟩
  · exact operands hd ▸
      ⟨(firstOperand_cmdWord 2 2 rfl 0#4 pre last).symm, (lastOperand_cmdWord 2 2 rfl (0#4 ++ pre) last).symm⟩
  · exact operands hd ▸
      ⟨(firstOperand_cmdWord 3 0 rfl 0#8 n code).symm, (lastOperand_cmdWord 3 0 rfl (0#8 ++ n) code).symm⟩
  · exact operands hd ▸ (lastOperand_cmdWord 4 1 rfl 0#23 b).symm
  · exact operands hd ▸ (lastOperand_cmdWord 4 3 rfl 0#23 b).symm

/-- Settles O5: a word that decodes selects its instruction's row, and its `op` is one of its unit's. -/
theorem wordsOutsideTheMapAreIllegal : Obligations.WordsOutsideTheMapAreIllegal := by
  intro w
  have noUnit : ∀ u : BitVec 4, u = 0 ∨ 5 ≤ u.toNat → opCount u = 0 := by decide
  refine ⟨illegal_iff.symm, fun h => illegal_of_opCount_le ?_, fun h hop => illegal_of_opCount_le ?_,
    fun h hop => illegal_of_opCount_le ?_, fun h hop => illegal_of_opCount_le ?_, fun h hop => illegal_of_opCount_le ?_⟩
  · rw [noUnit _ h]; exact Nat.zero_le _
  all_goals rw [unitOf, h]; exact hop

/-- Settles O32: such operands name no sequence, and both operations look the sequence up first. -/
theorem busOperandsWithoutMeaningAreRefused : Obligations.BusOperandsWithoutMeaningAreRefused :=
  fun _ _ _ h operands => exec_noSuchSequence h (busSeq_none operands)

/-- Settles O44: the frame function's dictionary is a Code Table in order, so the match's code is below `CT.next` and fits the width,
which falls only where the `ClearCode` of a full table is emitted. -/
theorem frameCodesFitTheirWidths : Obligations.FrameCodesFitTheirWidths := by
  intro m pixels codes low high hp hc
  obtain ⟨body, w, rfl, hb, wlow, whigh⟩ := exists_openCodes_of_frameCodes low high hp hc
  have eoi : 2 ^ m + 1 < 2 ^ w := by
    have h1 : 2 ^ (m + 1) ≤ 2 ^ w := Nat.pow_le_pow_right (by decide) wlow
    have h2 : 2 ^ 2 ≤ 2 ^ m := Nat.pow_le_pow_right (by decide) low
    omega
  exact ⟨hb.fit_append wlow whigh eoi, hb.first_append _, ⟨body, w, rfl, hb.noEoi⟩, fun _ _ _ _ split =>
    List.isChain_iff_forall_rel_of_append_cons_cons.1 (hb.widths _) split⟩

/-- Settles O1: the words are those of the instructions. -/
theorem assemblerExamplesDecode : Obligations.AssemblerExamplesDecode :=
  ⟨decode_encode (.lzwBegin 4), decode_encode (.lzwPixel 3), decode_encode .lzwEnd, decode_encode .lzwAbort,
    decode_encode (.ctTryGet 6 1), decode_encode (.ctTryAdd 258 0x41), decode_encode .ctReset,
    decode_encode (.bwWriteCode 4 3), decode_encode .bwFlush, decode_encode .deInit, decode_encode (.deDelta 0),
    decode_encode (.deDelta 1), decode_encode .deTrim, decode_encode (.deDispose 1), decode_encode .deCommit⟩

/-- Settles O8: a word that decodes selects its instruction's row, whose port is then the command port. -/
theorem otherWordsOnTheBusAreRefused : Obligations.OtherWordsOnTheBusAreRefused := by
  intro s rest w h events rows
  rw [step_of_events events]
  refine command_bus_refused (s := { s with events := rest }) h fun i hd => ?_
  obtain ⟨r, hr, -, port, hs⟩ := exists_row_of_encode i
  exact port ▸ rows r hr (encode_of_decode hd ▸ hs)

end

section
/-! SUPPORT. `BW.WRITE_CODE` and `BW.FLUSH` on a sink that accepts (R100, R104), and a sequence of codes (R106). -/

namespace Sys2Proof.Machine

theorem Sunk.suffix {s t : State} (h : Sunk s t) : t.sinkFail <:+ s.sinkFail := by
  obtain ⟨pre, hpre, -⟩ := h.answers
  exact ⟨pre, hpre.symm⟩

theorem Sunk.running {s t : State} (h : Sunk s t) (hs : s.running) : t.running :=
  (congrArg Flt.cause h.frame.flt).trans hs

/-- The bits `bits` were written, and the Bit Writer is in order again. -/
structure Wrote (s t : State) (bits : List Bool) : Prop where
  sunk : Sunk s t
  writer : t.bw.ok
  appended : s.appends t bits

theorem Wrote.refl {s : State} (hb : s.bw.ok) : Wrote s s [] := ⟨.refl s, hb, appends_refl s⟩

theorem Wrote.trans {s t u : State} {a b : List Bool} (h : Wrote s t a) (k : Wrote t u b) : Wrote s u (a ++ b) :=
  ⟨h.sunk.trans k.sunk, k.writer, h.appended.trans k.appended⟩

theorem exists_writeCode {s : State} (hb : s.bw.ok) (ha : s.sinkAccepts) (c : Nat) {w : Nat} (hw : w ≤ 25) :
    ∃ t, writeCode c w s = .ok t ∧ Wrote s t (bitsOf c w) := by
  obtain ⟨t, ht⟩ := (sinks_writeCode c w s).ok_of_accepts ha
  obtain ⟨writer, appended⟩ := writeCode_ok hb hw ht
  exact ⟨t, ht, sunk_of_ok (sinks_writeCode c w s) ht, writer, appended⟩

/-! ### Instructions one after another -/

theorem execAll_cons {i : Instr} {s t : State} (h : exec i s = .next t) (is : List Instr) :
    execAll (i :: is) s = execAll is t := by
  rw [execAll, h]

theorem execAll_append {is : List Instr} : ∀ {s t : State}, execAll is s = .next t → ∀ js : List Instr,
    execAll (is ++ js) s = execAll js t := by
  induction is with
  | nil => rintro s t ⟨⟩ js; rfl
  | cons i is ih =>
    intro s t h js
    cases hx : exec i s with
    | next u =>
      rw [execAll_cons hx] at h
      rw [List.cons_append, execAll_cons hx, ih h]
    | fault r => rw [execAll, hx] at h; cases h
    | refused r => rw [execAll, hx] at h; cases h

/-- The bits of codes, each at its width, in the order they are appended (R83, R106). -/
def codeBits (codes : List Emitted) : List Bool := codes.flatMap fun e => bitsOf e.1 e.2

section
variable {s : State} (h : s.running)
include h

theorem exec_bwWriteCode_reserved {code : BitVec 12} {w : BitVec 4} (reserved : w = 0 ∨ 13 ≤ w.toNat) :
    exec (.bwWriteCode code w) s = .refused .reservedBitWidth := by
  refine (unlessFaulted_running h _).trans (if_neg ?_)
  rintro ⟨low, high⟩
  replace high : w.toNat ≤ 12 := high
  rcases reserved with rfl | reserved
  · exact absurd low (by decide)
  · omega

theorem exec_bwWriteCode_wrote {code : BitVec 12} {w : BitVec 4} (hb : s.bw.ok) (ha : s.sinkAccepts) (low : 1 ≤ w.toNat)
    (high : w.toNat ≤ 12) :
    ∃ t, exec (.bwWriteCode code w) s = .next t ∧ Wrote s t (bitsOf code.toNat w.toNat) := by
  obtain ⟨t, ht, wrote⟩ := exists_writeCode hb ha code.toNat (w := w.toNat) (by omega)
  exact ⟨t, by rw [exec_bwWriteCode_legal h low high, ht]; rfl, wrote⟩

theorem exec_bwFlush_drained (hb : s.bw.ok) (ha : s.sinkAccepts) :
    ∃ t, exec .bwFlush s = .next t ∧ Sunk s t ∧ t.bw = .empty ∧ t.out = s.out ++ shortBlock s.bw.lastData ++ [0] := by
  obtain ⟨t, ht⟩ := (sinks_flush s).ok_of_accepts ha
  exact ⟨t, by rw [exec_bwFlush_running h, ht]; rfl, sunk_of_ok (sinks_flush s) ht, flush_ok hb ht⟩

/-- A sequence of `BW.WRITE_CODE` completes and appends the bits of its codes. -/
theorem execAll_writeCodes {codes : List (BitVec 12 × BitVec 4)} (hb : s.bw.ok) (ha : s.sinkAccepts)
    (legal : ∀ e ∈ codes, 1 ≤ e.2.toNat ∧ e.2.toNat ≤ 12) :
    ∃ t, execAll (codes.map fun e => .bwWriteCode e.1 e.2) s = .next t ∧
      Wrote s t (codeBits (codes.map fun e => (e.1.toNat, e.2.toNat))) := by
  induction codes generalizing s with
  | nil => exact ⟨s, rfl, .refl hb⟩
  | cons e codes ih =>
    obtain ⟨⟨low, high⟩, legal⟩ := List.forall_mem_cons.1 legal
    obtain ⟨t, hx, first⟩ := exec_bwWriteCode_wrote h (code := e.1) hb ha low high
    obtain ⟨u, hxs, rest⟩ := ih (first.sunk.running h) first.writer (first.sunk.accepts ha) legal
    exact ⟨u, (execAll_cons hx _).trans hxs, first.trans rest⟩

end

end Sys2Proof.Machine
end

section
/-! SUPPORT. The output encoding (R83, R84) by the bits it holds: the data bytes are the bits of the codes, zero-padded, and
data bytes cut at every 255th are their sub-blocks. -/

namespace Sys2Proof.Machine

/-! ### The packed codes (R83) -/

theorem packed_shiftRight (c w rest : Nat) : (c % (1 <<< w) + rest <<< w) >>> w = rest := by
  have hlow : c % (1 <<< w) < 2 ^ w := by rw [Nat.one_shiftLeft]; exact Nat.mod_lt _ (Nat.two_pow_pos w)
  rw [Nat.shiftLeft_eq rest, Nat.shiftRight_eq_div_pow, Nat.add_mul_div_right _ _ (Nat.two_pow_pos w), Nat.div_eq_of_lt hlow,
    Nat.zero_add]

/-- The low bits of a packed value are those of its first code. -/
theorem bitsOf_packed (c w rest n : Nat) :
    bitsOf (c % (1 <<< w) + rest <<< w) (w + n) = bitsOf c w ++ bitsOf rest n := by
  have hmod : (c % (1 <<< w) + rest <<< w) % (1 <<< w) = c % (1 <<< w) := by
    rw [Nat.shiftLeft_eq rest, Nat.one_shiftLeft, Nat.add_mul_mod_self_right, Nat.mod_mod]
  rw [bitsOf_add, packed_shiftRight, ← bitsOf_mod, hmod, bitsOf_mod]

theorem packedLength_cons (e : Emitted) (codes : List Emitted) : packedLength (e :: codes) = e.2 + packedLength codes := by
  unfold packedLength
  rw [List.map_cons, List.sum_cons]

theorem bitsOf_packedValue (codes : List Emitted) : bitsOf (packedValue codes) (packedLength codes) = codeBits codes := by
  induction codes with
  | nil => rfl
  | cons e codes ih =>
    rw [packedLength_cons, packedValue, bitsOf_packed, ih]
    rfl

theorem length_codeBits (codes : List Emitted) : (codeBits codes).length = packedLength codes := by
  rw [← bitsOf_packedValue, length_bitsOf]

theorem packedValue_shiftRight (codes : List Emitted) : packedValue codes >>> packedLength codes = 0 := by
  induction codes with
  | nil => rfl
  | cons e codes ih => rw [packedLength_cons, packedValue, Nat.shiftRight_add, packed_shiftRight, ih]

theorem bitsOf_zero_value (n : Nat) : bitsOf 0 n = List.replicate n false := by
  rw [List.eq_replicate_iff]; simp [bitsOf]

/-- The bytes of a number, the lowest first, hold its bits. -/
theorem bitsOfBytes_bytes (v n : Nat) :
    bitsOfBytes ((List.range n).map fun j => BitVec.ofNat 8 (v >>> (8 * j) % 256)) = bitsOf v (8 * n) := by
  induction n with
  | zero => rfl
  | succ n ih =>
    have hbyte : (BitVec.ofNat 8 (v >>> (8 * n) % 256)).toNat = v >>> (8 * n) % (1 <<< 8) := by
      rw [BitVec.toNat_ofNat]; exact Nat.mod_mod _ _
    rw [List.range_succ, List.map_append, bitsOfBytes_append, ih, List.map_singleton, bitsOfBytes_singleton, hbyte, bitsOf_mod,
      Nat.mul_succ, bitsOf_add]

theorem length_dataBytes (codes : List Emitted) : (dataBytes codes).length = (packedLength codes + 7) / 8 := by
  unfold dataBytes
  rw [List.length_map, List.length_range]

theorem dataBytes_padded (codes : List Emitted) :
    ∃ pad < 8, bitsOfBytes (dataBytes codes) = codeBits codes ++ List.replicate pad false := by
  refine ⟨8 * ((packedLength codes + 7) / 8) - packedLength codes, by omega, ?_⟩
  have hsplit : 8 * ((packedLength codes + 7) / 8) =
      packedLength codes + (8 * ((packedLength codes + 7) / 8) - packedLength codes) := by omega
  rw [dataBytes, bitsOfBytes_bytes, hsplit, bitsOf_add, bitsOf_packedValue, packedValue_shiftRight, bitsOf_zero_value,
    Nat.add_sub_cancel_left]

/-- Bits have one zero-padding to whole bytes. -/
theorem eq_of_padded {x y : List Byte} {bits : List Bool} {m n : Nat} (hm : m < 8) (hn : n < 8)
    (hx : bitsOfBytes x = bits ++ List.replicate m false) (hy : bitsOfBytes y = bits ++ List.replicate n false) : x = y := by
  have hlx := congrArg List.length hx
  have hly := congrArg List.length hy
  rw [length_bitsOfBytes, List.length_append, List.length_replicate] at hlx hly
  obtain rfl : m = n := by omega
  exact bitsOfBytes_inj (hx.trans hy.symm)

/-- What went out and what a flush still has to write are together the data bytes of the codes. -/
theorem dataBytes_eq {codes : List Emitted} {sent : List Byte} {b : BitWriter} (hb : b.ok)
    (h : bitsOfBytes sent ++ b.pending = codeBits codes) : dataBytes codes = sent ++ b.lastData := by
  obtain ⟨m, hm, hdata⟩ := dataBytes_padded codes
  obtain ⟨n, hn, hlast⟩ := pending_padded hb
  refine eq_of_padded hm hn hdata ?_
  rw [bitsOfBytes_append, hlast, ← List.append_assoc, h]

/-! ### The sub-blocks (R84) -/

theorem subBlocksUpTo_nil (fuel : Nat) : subBlocksUpTo fuel [] = [] := by
  cases fuel with
  | zero => rfl
  | succ => exact if_pos rfl

theorem subBlocksUpTo_short {last : List Byte} (hl : last.length ≤ 255) {fuel : Nat} (hf : last.length ≤ fuel) :
    subBlocksUpTo fuel last = shortBlock last := by
  by_cases he : last = []
  · rw [he, subBlocksUpTo_nil]; rfl
  · obtain ⟨fuel, rfl⟩ : ∃ n, fuel = n + 1 :=
      Nat.exists_eq_add_one.2 (Nat.lt_of_lt_of_le (List.length_pos_iff.2 he) hf)
    rw [subBlocksUpTo, if_neg he, Config.blockMax, List.take_of_length_le hl, List.drop_of_length_le hl, subBlocksUpTo_nil,
      List.append_nil, shortBlock, if_neg he]

theorem subBlocksUpTo_full {d : List Byte} (hd : d.length = 255) (fuel : Nat) (data : List Byte) :
    subBlocksUpTo (fuel + 1) (d ++ data) = fullBlock d ++ subBlocksUpTo fuel data := by
  have hne : d ++ data ≠ [] := List.ne_nil_of_length_pos (by rw [List.length_append]; omega)
  rw [subBlocksUpTo, if_neg hne, Config.blockMax, List.take_left' hd, List.drop_left' hd, hd]
  rfl

theorem subBlocksUpTo_flatten {blocks : List (List Byte)} (hd : ∀ d ∈ blocks, d.length = 255) {last : List Byte}
    (hl : last.length ≤ 255) : ∀ {fuel : Nat}, (blocks.flatten ++ last).length ≤ fuel →
    subBlocksUpTo fuel (blocks.flatten ++ last) = blocks.flatMap fullBlock ++ shortBlock last := by
  induction blocks with
  | nil => exact fun hf => subBlocksUpTo_short hl hf
  | cons d blocks ih =>
    intro fuel hf
    obtain ⟨hfull, hrest⟩ := List.forall_mem_cons.1 hd
    rw [List.flatten_cons, List.append_assoc] at hf ⊢
    rw [List.length_append] at hf
    obtain ⟨fuel, rfl⟩ : ∃ n, fuel = n + 1 := Nat.exists_eq_add_one.2 (by omega)
    rw [subBlocksUpTo_full hfull, ih hrest (by omega), List.flatMap_cons, List.append_assoc]

/-- Full sub-blocks and the rest of the data. -/
theorem subBlocks_flatten {blocks : List (List Byte)} (hd : ∀ d ∈ blocks, d.length = 255) {last : List Byte}
    (hl : last.length ≤ 255) : subBlocks (blocks.flatten ++ last) = blocks.flatMap fullBlock ++ shortBlock last :=
  subBlocksUpTo_flatten hd hl le_rfl

/-- One length byte for every 255 data bytes begun. -/
theorem length_subBlocksUpTo {fuel : Nat} : ∀ {data : List Byte}, data.length ≤ fuel →
    (subBlocksUpTo fuel data).length = data.length + (data.length + 254) / 255 := by
  induction fuel with
  | zero =>
    intro data hf
    rw [List.eq_nil_of_length_eq_zero (Nat.le_zero.1 hf)]
    rfl
  | succ fuel ih =>
    intro data hf
    by_cases he : data = []
    · rw [he, subBlocksUpTo_nil]; rfl
    · have hpos : 0 < data.length := List.length_pos_iff.2 he
      have hdrop : (data.drop 255).length ≤ fuel := by rw [List.length_drop]; omega
      rw [subBlocksUpTo, if_neg he, Config.blockMax, List.length_append, List.length_cons, ih hdrop, List.length_take,
        List.length_drop]
      omega

theorem length_blockStream (codes : List Emitted) :
    (blockStream codes).length = (dataBytes codes).length + ((dataBytes codes).length + 254) / 255 + 1 := by
  rw [blockStream, List.length_append, subBlocks, length_subBlocksUpTo le_rfl]
  rfl

/-! ### The stream of a Bit Writer that began empty (R106) -/

theorem length_flatten_blocks {blocks : List (List Byte)} (hd : ∀ d ∈ blocks, d.length = 255) :
    blocks.flatten.length = 255 * blocks.length := by
  rw [List.length_flatten, List.map_congr_left hd, List.map_const', List.sum_replicate, smul_eq_mul, Nat.mul_comm]

section
variable {s t : State} {codes : List Emitted} (empty : s.bw = .empty) (wrote : Wrote s t (codeBits codes))
include empty wrote

/-- The full sub-blocks of the data are in the sink, and the rest of the data in the block. -/
theorem Wrote.exists_blocks : ∃ blocks : List (List Byte), (∀ d ∈ blocks, d.length = 255) ∧
    t.out = s.out ++ blocks.flatMap fullBlock ∧ dataBytes codes = blocks.flatten ++ t.bw.lastData ∧
    blocks.length = packedLength codes / (8 * 255) := by
  obtain ⟨blocks, full, out, bits⟩ := wrote.appended
  rw [empty] at bits
  replace bits : bitsOfBytes blocks.flatten ++ t.bw.pending = codeBits codes := bits
  refine ⟨blocks, full, out, dataBytes_eq wrote.writer bits, ?_⟩
  have hlen := congrArg List.length bits
  have hpending := length_pending wrote.writer
  rw [List.length_append, length_bitsOfBytes, length_flatten_blocks full, length_codeBits] at hlen
  omega

/-- Before a flush exactly the full sub-blocks whose last byte is complete have been written. -/
theorem Wrote.out_before_flush :
    t.out = s.out ++ subBlocks ((dataBytes codes).take (255 * (packedLength codes / (8 * 255)))) := by
  obtain ⟨blocks, full, out, data, number⟩ := wrote.exists_blocks empty
  have hblocks := subBlocks_flatten full (last := []) (Nat.zero_le _)
  rw [List.append_nil] at hblocks
  rw [data, ← number, List.take_left' (length_flatten_blocks full), hblocks, out, shortBlock, if_pos rfl, List.append_nil]

/-- The bytes a flush adds complete the stream. -/
theorem Wrote.out_flushed : t.out ++ shortBlock t.bw.lastData ++ [0] = s.out ++ blockStream codes := by
  obtain ⟨blocks, full, out, data, -⟩ := wrote.exists_blocks empty
  rw [out, blockStream, data, subBlocks_flatten full (length_lastData wrote.writer), List.append_assoc, List.append_assoc,
    ← List.append_assoc (blocks.flatMap fullBlock)]

end

end Sys2Proof.Machine
end

section
/-! PROOF. The statements of the scope: the Bit Writer. -/

open Sys2Proof Sys2Proof.Machine

/-- Settles O28: each `BW.WRITE_CODE` appends its bits and sends full sub-blocks only, so the sub-blocks sent and the data left in
the block are the data bytes of the packed codes; the flush writes what is left. -/
theorem codeStreamIsPackedIntoSubBlocks : Obligations.CodeStreamIsPackedIntoSubBlocks := by
  intro s codes h empty ha legal
  replace empty : s.bw = .empty := empty
  obtain ⟨u, hx, wrote⟩ := execAll_writeCodes h (by rw [empty]; exact empty_ok) ha legal
  obtain ⟨t, hflush, -, hbw, hout⟩ :=
    exec_bwFlush_drained (wrote.sunk.running h) wrote.writer (wrote.sunk.accepts ha)
  rw [wrote.out_flushed empty] at hout
  refine ⟨_, _, rfl, rfl, ⟨u, hx, wrote.out_before_flush empty⟩, t, ?_, hout, hbw, ?_⟩
  · rw [execAll_append hx, execAll_cons hflush]; rfl
  · rw [hout, List.length_append, length_blockStream, length_dataBytes]
    omega

/-- Settles O24: the bits join the accumulator above those already there, and the drain loop loses none. -/
theorem writeCodeAppendsItsBits : Obligations.WriteCodeAppendsItsBits := by
  intro s code bitWidth h hb ha low high
  obtain ⟨t, hx, wrote⟩ := exec_bwWriteCode_wrote h (code := code) hb ha low high
  exact ⟨t, hx, wrote.sunk.frame, wrote.writer, wrote.sunk.suffix, wrote.appended⟩

/-- Settles O26: a flush changes `BW.*` and the sink only, and what it writes and leaves is known. -/
theorem flushDrainsAndTerminates : Obligations.FlushDrainsAndTerminates := by
  intro s h hb ha
  obtain ⟨t, hx, sunk, hbw, hout⟩ := exec_bwFlush_drained h hb ha
  have frame : t = { s with bw := t.bw, out := t.out, sinkFail := t.sinkFail } := sunk.frame
  rw [hbw, hout] at frame
  exact ⟨t, hx, frame, sunk.suffix⟩

/-- Settles O25: such a width fails the check of R101. -/
theorem reservedWidthsAreRefused : Obligations.ReservedWidthsAreRefused :=
  fun _ _ _ h reserved => exec_bwWriteCode_reserved h reserved

end

section
/-! SUPPORT. The Code Table's operations as instructions alone on the bus (R120 to R124), their words (R75), and the phases of a clear
cycle (R127). -/

namespace Sys2Proof

/-- A word is its `unit` and `op` with `arg` in the bits left free. -/
theorem cmdWord_eq_or (u o : BitVec 4) (a : BitVec 24) : cmdWord u o a = cmdWord u o 0 ||| a.setWidth 32 := by
  refine BitVec.eq_of_getLsbD_eq fun i hi => ?_
  simp only [cmdWord, BitVec.getLsbD_or, BitVec.getLsbD_append, BitVec.getLsbD_setWidth]
  by_cases h : i < 24
  · simp [h, hi]
  · simp [h, a.getLsbD_of_ge i (Nat.le_of_not_lt h)]

/-- The operands `prefix` and `last` stand side by side at the low end of `arg` (R75). -/
theorem setWidth_busOperands (pre : BitVec 12) (last : BitVec 8) :
    (0#4 ++ pre ++ last).setWidth 32 = pre.setWidth 32 <<< 8 ||| last.setWidth 32 := by
  refine BitVec.eq_of_getLsbD_eq fun i hi => ?_
  simp only [BitVec.getLsbD_setWidth, BitVec.getLsbD_append, BitVec.getLsbD_or, BitVec.getLsbD_shiftLeft]
  by_cases h : i < 8
  · simp [h, hi]
  · simp [h, hi, last.getLsbD_of_ge i (Nat.le_of_not_lt h), show i - 8 < 32 by omega]
    exact BitVec.lt_of_getLsbD

/-- The word of an operation on the bus operands (R121, R124). -/
theorem cmdWord_busOperands (u o : BitVec 4) (pre : BitVec 12) (last : BitVec 8) :
    cmdWord u o (0#4 ++ pre ++ last) = cmdWord u o 0 ||| pre.setWidth 32 <<< 8 ||| last.setWidth 32 := by
  rw [cmdWord_eq_or, setWidth_busOperands, BitVec.or_assoc]

namespace Machine

/-! ### The instructions -/

section
variable {s : State} (h : s.running)
include h

theorem exec_ctReset_running : exec .ctReset s = .next (ctReset s) := unlessFaulted_running h _

section
variable {pre : BitVec 12} {last : Byte} {q : IndexSeq} (spelt : busSeq s.ct pre last = some q)
include spelt

theorem exec_ctTryGet_spelt : exec (.ctTryGet pre last) s = .next (ctTryGet q s) := by
  refine (unlessFaulted_running h _).trans ?_
  rw [spelt]

theorem exec_ctTryAdd_new (new : lookup q s.ct.tab = none) : exec (.ctTryAdd pre last) s = .next (ctTryAdd q s) := by
  refine (unlessFaulted_running h _).trans ?_
  rw [spelt]
  dsimp only
  rw [new]

theorem exec_ctTryAdd_stored {c : Nat} (stored : lookup q s.ct.tab = some c) :
    exec (.ctTryAdd pre last) s = .refused .alreadyStored := by
  refine (unlessFaulted_running h _).trans ?_
  rw [spelt]
  dsimp only
  rw [stored]

end

/-- A lookup that answers is one of a sequence the operands spell. -/
theorem exists_ctTryGet_of_exec {pre : BitVec 12} {last : Byte} {t : State} (hx : exec (.ctTryGet pre last) s = .next t) :
    ∃ q, t = ctTryGet q s := by
  cases spelt : busSeq s.ct pre last with
  | none => rw [(exec_noSuchSequence h spelt).1] at hx; cases hx
  | some q => rw [exec_ctTryGet_spelt h spelt] at hx; cases hx; exact ⟨q, rfl⟩

/-- An addition that answers is one of a sequence the operands spell. -/
theorem exists_ctTryAdd_of_exec {pre : BitVec 12} {last : Byte} {t : State} (hx : exec (.ctTryAdd pre last) s = .next t) :
    ∃ q, t = ctTryAdd q s := by
  cases spelt : busSeq s.ct pre last with
  | none => rw [(exec_noSuchSequence h spelt).2] at hx; cases hx
  | some q =>
    cases stored : lookup q s.ct.tab with
    | none => rw [exec_ctTryAdd_new h spelt stored] at hx; cases hx; exact ⟨q, rfl⟩
    | some c => rw [exec_ctTryAdd_stored h spelt stored] at hx; cases hx

end

/-- The sequence the bus operands spell has two indices or more, so that its code is what is stored (R75, R141). -/
theorem CodeTable.mapOk.codeOf_spells {ct : CodeTable} (h : ct.mapOk) {c : Nat} {q : IndexSeq} (hq : ct.spells c q)
    (last : Byte) : codeOf ct (q ++ [last]) = lookup (q ++ [last]) ct.tab := by
  have := h.spells_length hq
  exact codeOf_long (by rw [List.length_append, List.length_singleton]; omega)

/-- The state after an addition to a table with room, written out (R124). -/
theorem ctTryAdd_room_eq {s : State} (q : IndexSeq) (room : s.ct.next ≠ 4096) :
    ctTryAdd q s = { s with ct := { s.ct with
      width := if s.ct.next = 2 ^ s.ct.width then s.ct.width + 1 else s.ct.width
      tab := s.ct.tab ++ [(q, s.ct.next)]
      next := s.ct.next + 1
      added := true } } := by
  rw [ctTryAdd_room q room, grow_insert_eq]
  rfl

/-! ### The phases of a clear cycle -/

/-- The phase is a function of `CT.mcs` and `CT.next` (R29). -/
theorem CodeTable.phase_congr {a b : CodeTable} (mcs : a.mcs = b.mcs) (next : a.next = b.next) : a.phase = b.phase := by
  unfold phase
  rw [firstCode_eq, firstCode_eq, mcs, next]

theorem phase_ctReset (s : State) : (ctReset s).ct.phase = .start := by
  rw [ctReset_eq]
  exact if_pos (CodeTable.firstCode_eq _).symm

theorem phase_ctTryGet (q : IndexSeq) (s : State) : (ctTryGet q s).ct.phase = s.ct.phase := by
  rw [ctTryGet_ct]
  exact CodeTable.phase_congr rfl rfl

/-- The first code is far below the last one, so that a table is not both just reset and full. -/
theorem CodeTable.ok.firstCode_lt {ct : CodeTable} (h : ct.ok) : ct.firstCode < 4096 := by
  obtain ⟨-, high, -⟩ := h
  have : 2 ^ ct.mcs ≤ 2 ^ 8 := Nat.pow_le_pow_right (by decide) high
  rw [firstCode_eq]
  omega

theorem CodeTable.ok.phase_full_iff {ct : CodeTable} (h : ct.ok) : ct.phase = .full ↔ ct.next = 4096 := by
  have := h.firstCode_lt
  unfold phase
  split_ifs with start full
  · exact ⟨fun h => (nomatch h), fun h => by omega⟩
  · exact ⟨fun _ => full, fun _ => rfl⟩
  · exact ⟨fun h => (nomatch h), fun h => absurd h full⟩

/-- A table that has given out a code is not in *start* (R29). -/
theorem CodeTable.phase_of_firstCode_lt {ct : CodeTable} (h : ct.firstCode < ct.next) :
    ct.phase = if ct.next = 4096 then .full else .growing :=
  if_neg (Nat.ne_of_gt h)

/-- An addition to a table with room gives out one more code, and fills the table with 4095 (R127). -/
theorem phase_ctTryAdd_room {s : State} (h : s.ct.ok) (q : IndexSeq) (room : s.ct.next ≠ 4096) :
    (ctTryAdd q s).ct.phase = if s.ct.next = 4095 then .full else .growing := by
  have first : s.ct.firstCode < s.ct.next + 1 := Nat.lt_succ_of_le h.2.2.1
  have last : s.ct.next + 1 = 4096 ↔ s.ct.next = 4095 := by omega
  rw [ctTryAdd_room_eq q room]
  refine (CodeTable.phase_of_firstCode_lt first).trans ?_
  simp only [last]

end Machine

end Sys2Proof
end

section
/-! SUPPORT. The minimum code size (R130): its table of values, and what leaves it as it is. -/

namespace Sys2Proof.Machine

/-! ### Values -/

theorem bitsNeededFor_le_iff {n b : Nat} (hn : 1 ≤ n) : bitsNeededFor n ≤ b ↔ n ≤ 2 ^ b := by
  rw [bitsNeededFor, bitlen_le_iff]
  omega

theorem minCodeSize_eq_two {n : Nat} (hn : 1 ≤ n) (high : n ≤ 4) : minCodeSize n = 2 :=
  le_antisymm ((minCodeSize_le_iff hn).2 ⟨le_rfl, high⟩) (two_le_minCodeSize n)

/-- Above the least minimum code size, the palettes of one minimum code size are those between two powers of two. -/
theorem minCodeSize_eq_succ {n b : Nat} (hb : 2 ≤ b) (low : 2 ^ b < n) (high : n ≤ 2 ^ (b + 1)) : minCodeSize n = b + 1 := by
  have hn : 1 ≤ n := by omega
  have upper := (minCodeSize_le_iff hn).2 ⟨Nat.le_succ_of_le hb, high⟩
  have lower : ¬ minCodeSize n ≤ b := fun h => absurd ((minCodeSize_le_iff hn).1 h).2 (Nat.not_le.2 low)
  omega

/-- The values of R130. -/
theorem minCodeSize_table {n : Nat} (low : 1 ≤ n) (high : n ≤ 256) :
    minCodeSize n =
      if n ≤ 4 then 2 else if n ≤ 8 then 3 else if n ≤ 16 then 4 else if n ≤ 32 then 5
      else if n ≤ 64 then 6 else if n ≤ 128 then 7 else 8 := by
  split_ifs with h4 h8 h16 h32 h64 h128
  · exact minCodeSize_eq_two low h4
  · exact minCodeSize_eq_succ (by decide) (Nat.lt_of_not_le h4) h8
  · exact minCodeSize_eq_succ (by decide) (Nat.lt_of_not_le h8) h16
  · exact minCodeSize_eq_succ (by decide) (Nat.lt_of_not_le h16) h32
  · exact minCodeSize_eq_succ (by decide) (Nat.lt_of_not_le h32) h64
  · exact minCodeSize_eq_succ (by decide) (Nat.lt_of_not_le h64) h128
  · exact minCodeSize_eq_succ (by decide) (Nat.lt_of_not_le h128) high

/-! ### The register -/

theorem ct_of_writeCode {c w : Nat} {s t : State} (hr : writeCode c w s = .ok t) : t.ct = s.ct :=
  (sunk_of_ok (sinks_writeCode c w s) hr).frame.ct

theorem ct_of_flush {s t : State} (hr : flush s = .ok t) : t.ct = s.ct := (sunk_of_ok (sinks_flush s) hr).frame.ct

theorem mcs_ctTryGet (q : IndexSeq) (s : State) : (ctTryGet q s).ct.mcs = s.ct.mcs := by rw [ctTryGet_ct]

theorem mcs_ctTryAdd (q : IndexSeq) (s : State) : (ctTryAdd q s).ct.mcs = s.ct.mcs := by
  by_cases full : s.ct.next = 4096
  · rw [ctTryAdd_full q full]
  · rw [ctTryAdd_room_eq q full]

/-- A miss in `LZW.PIXEL` writes a code and adds a sequence, and writes `ClearCode` and resets the table if it was full (R144). -/
theorem mcs_of_newMatch {c : Nat} {q : IndexSeq} {p : Byte} {s t : State} (hr : newMatch c q p s = .ok t) :
    t.ct.mcs = s.ct.mcs := by
  unfold newMatch at hr
  cases hu : emit c s with
  | error u => rw [hu] at hr; cases hr
  | ok u =>
    rw [hu] at hr
    have added : (ctTryAdd q (u.setLzw { u.lzw with cur := [p] })).ct.mcs = s.ct.mcs := by
      rw [mcs_ctTryAdd, ← ct_of_writeCode hu]; rfl
    dsimp only [Except.bind] at hr
    split at hr
    · cases hr; exact added
    · cases hv : emit _ (ctTryAdd q (u.setLzw { u.lzw with cur := [p] })) with
      | error v => rw [hv] at hr; cases hr
      | ok v =>
        rw [hv] at hr
        cases hr
        exact (congrArg CodeTable.mcs (ct_of_writeCode hv)).trans added

/-- `LZW.END` writes two codes and flushes (R147). -/
theorem ct_of_endFrame {par : Config.Params} {c : Nat} {s t : State} (hr : endFrame par c s = .ok t) : t.ct = s.ct := by
  unfold endFrame at hr
  cases hu : emit c s with
  | error u => rw [hu] at hr; cases hr
  | ok u =>
    rw [hu] at hr
    dsimp only [Except.bind] at hr
    cases hv : writeCode u.ct.eoi (eoiWidth par u.ct) u with
    | error v => rw [hv] at hr; cases hr
    | ok v =>
      rw [hv] at hr
      dsimp only at hr
      cases hw : flush v with
      | error w => rw [hw] at hr; cases hr
      | ok w =>
        rw [hw] at hr
        cases hr
        exact (ct_of_flush hw).trans ((ct_of_writeCode hv).trans (ct_of_writeCode hu))

/-- Of the operations of the encoder that complete, only `LZW.BEGIN` changes the minimum code size (R130). -/
theorem EncoderRun.mcs {i : Instr} {s t : State} (hr : EncoderRun s i t) (other : ∀ n, i ≠ .lzwBegin n) :
    t.ct.mcs = s.ct.mcs := by
  cases hr with
  | begin => exact absurd rfl (other _)
  | firstPixel | abort | tableReset => rfl
  | pixelHit | tryGet => exact mcs_ctTryGet _ s
  | pixelMiss _ _ _ _ run => exact (mcs_of_newMatch run).trans (mcs_ctTryGet _ s)
  | endFrame _ _ run => rw [ct_of_endFrame run]
  | tryAdd => exact mcs_ctTryAdd _ s
  | writeCode _ _ run => rw [ct_of_writeCode run]
  | flush run => rw [ct_of_flush run]

/-- `LZW.BEGIN` computes the minimum code size of its operand (R130, R142). -/
theorem mcs_of_lzwBegin {n : BitVec 9} {s t : State} (h : s.running) (ht : t.running) (hx : exec (.lzwBegin n) s = .next t) :
    t.ct.mcs = minCodeSize n.toNat := by
  cases encoderRun_of_exec h ht rfl hx with
  | begin _ low high run => rw [(beginFrame_ok low high run).1]

theorem mcs_of_exec {i : Instr} {s t : State} (h : s.running) (ht : t.running) (hx : exec i s = .next t)
    (other : ∀ n, i ≠ .lzwBegin n) : t.ct.mcs = s.ct.mcs := by
  cases hd : isDelta i with
  | false => exact (encoderRun_of_exec h ht hd hx).mcs other
  | true =>
    obtain ⟨-, ct, -⟩ := exec_delta_keeps hd hx
    rw [ct]

end Sys2Proof.Machine
end

section
/-! PROOF. The statements of the scope: the Code Table. -/

open Sys2Proof Sys2Proof.Machine

/-- Settles O30: the operands spell a sequence of two indices or more, and a map stores no sequence twice, so that the code found is
the one stored. -/
theorem lookupIsByContent : Obligations.LookupIsByContent := by
  refine ⟨fun s pre last q h hm spells literal => ?_, fun s i => ctTryGet_hit rfl, cmdWord_busOperands 2 1⟩
  have code := hm.codeOf_spells spells last
  rw [exec_ctTryGet_spelt h (hm.busSeq_spells spells literal)]
  refine ⟨fun c stored => ?_, fun new => ⟨_, rfl, ?_⟩⟩
  · rw [ctTryGet_hit (code.trans (hm.lookup_iff.2 stored))]
  · rw [ctTryGet_miss (code.trans (lookup_eq_none.2 new))]

/-- Settles O31: what the addition does rests on the lookup of the sequence and on the room in the table alone. -/
theorem additionAssignsTheNextCode : Obligations.AdditionAssignsTheNextCode := by
  refine ⟨fun s pre last q h _ hm spells literal => ?_, cmdWord_busOperands 2 2⟩
  have spelt := hm.busSeq_spells spells literal
  refine ⟨fun c stored => exec_ctTryAdd_stored h spelt (hm.lookup_iff.2 stored), fun new => ?_⟩
  rw [exec_ctTryAdd_new h spelt (lookup_eq_none.2 new)]
  exact ⟨fun full => by rw [ctTryAdd_full _ full], fun room => by rw [ctTryAdd_room_eq _ (Nat.ne_of_lt room)]⟩

/-- Settles O33: the phase is a function of `CT.next`, which a reset sets to the first code, an addition to a table with room
increases by one, and nothing else in the table changes. -/
theorem phasesOfTheClearCycle : Obligations.PhasesOfTheClearCycle := by
  intro s t h hok
  refine ⟨fun hx => ?_, fun pre last hx => ?_, fun pre last hx => ?_⟩
  · rw [exec_ctReset_running h] at hx
    cases hx
    exact phase_ctReset s
  · obtain ⟨q, rfl⟩ := exists_ctTryGet_of_exec h hx
    exact phase_ctTryGet q s
  · obtain ⟨q, rfl⟩ := exists_ctTryAdd_of_exec h hx
    rw [Ne, hok.phase_full_iff]
    refine ⟨fun full => ?_, fun room => ⟨?_, phase_ctTryAdd_room hok q room⟩⟩
    · rw [ctTryAdd_full q full]
      exact ⟨hok.phase_full_iff.2 full, rfl⟩
    · rw [ctTryAdd_room_eq q room]

/-- Settles O34: the minimum code size is the least from 2 on whose power of two holds the palette, and of the instructions only
`LZW.BEGIN` writes its register. -/
theorem minimumCodeSizeOfAPalette : Obligations.MinimumCodeSizeOfAPalette :=
  ⟨fun _ => rfl, fun _ _ => bitsNeededFor_le_iff, fun _ => minCodeSize_table, fun _ _ _ h hx ht => mcs_of_lzwBegin h ht hx,
    fun _ _ _ h hx ht other => mcs_of_exec h ht hx other⟩

/-- Settles O29: the reset writes three registers of the table and no result flag. -/
theorem tableResetStartsAClearCycle : Obligations.TableResetStartsAClearCycle :=
  ⟨fun s h => by rw [exec_ctReset_running h, ctReset_eq], by decide, rfl⟩

end

section
/-! SUPPORT. Each command of the encoder in each state (R140): the check it fails, or the operation it runs (R142 to R148). -/

namespace Sys2Proof.Machine

theorem setWidth_zero_append {k l n : Nat} (x : BitVec l) : (0#k ++ x).setWidth n = x.setWidth n :=
  BitVec.eq_of_toNat_eq (by simp)

/-- The encoder's invariant, while no sink failure has been taken. -/
theorem State.encoderOk.inOrder {s : State} (he : s.encoderOk) (h : s.running) : EncoderInOrder s.bw s.ct s.lzw :=
  encoderOk_iff.1 he (by rw [h]; decide)

section
variable {b : BitWriter} {ct : CodeTable} {l : Lzw} (h : EncoderInOrder b ct l) (st : l.st = .run)
include h st

theorem EncoderInOrder.dictionary_of_run : ct.tabOk := h.dictionary (by rw [st]; decide)

/-- The match of an open frame has a code (R150). -/
theorem EncoderInOrder.exists_code : ∃ c, codeOf ct l.cur = some c :=
  (h.dictionary_of_run st).codeOf_has (h.current st).coded

end

theorem ran_of_ok {s t : State} {r : Except State State} (h : Runs s r) (hr : r = .ok t) : Ran s t := by
  rwa [hr] at h

section
variable {s : State} (h : s.running)
include h

/-! ### Checks that fail -/

theorem exec_lzwBegin_badState {n : BitVec 9} (st : s.lzw.st = .first ∨ s.lzw.st = .run) :
    exec (.lzwBegin n) s = .next (s.raise .badState (encode (.lzwBegin n))) := by
  refine (unlessFaulted_running h _).trans ?_
  rcases st with st | st <;> rw [st]

theorem exec_lzwPixel_badState {p : Byte} (st : s.lzw.st = .idle ∨ s.lzw.st = .done) :
    exec (.lzwPixel p) s = .next (s.raise .badState (encode (.lzwPixel p))) := by
  refine (unlessFaulted_running h _).trans ?_
  rcases st with st | st <;> rw [st]

theorem exec_lzwPixel_operandRange {p : Byte} (st : s.lzw.st = .first ∨ s.lzw.st = .run) (high : s.ct.clearCode ≤ p.toNat) :
    exec (.lzwPixel p) s = .next (s.raise .operandRange (encode (.lzwPixel p))) := by
  refine (unlessFaulted_running h _).trans ?_
  rcases st with st | st <;> rw [st] <;> exact if_pos high

theorem exec_lzwEnd_badState (st : s.lzw.st = .idle ∨ s.lzw.st = .done) :
    exec .lzwEnd s = .next (s.raise .badState (encode .lzwEnd)) := by
  refine (unlessFaulted_running h _).trans ?_
  rcases st with st | st <;> rw [st]

theorem exec_lzwEnd_emptyFrame (st : s.lzw.st = .first) : exec .lzwEnd s = .next (s.raise .emptyFrame (encode .lzwEnd)) := by
  refine (unlessFaulted_running h _).trans ?_
  rw [st]

/-! ### Commands that make no burst -/

theorem exec_lzwPixel_first {p : Byte} (st : s.lzw.st = .first) (literal : p.toNat < s.ct.clearCode) :
    exec (.lzwPixel p) s = .next (s.setLzw ⟨.run, [p]⟩) := by
  refine (unlessFaulted_running h _).trans ?_
  rw [st]
  exact if_neg (Nat.not_le.2 literal)

theorem exec_lzwPixel_run {p : Byte} (st : s.lzw.st = .run) (literal : p.toNat < s.ct.clearCode) :
    exec (.lzwPixel p) s = nextPixel (encode (.lzwPixel p)) p s := by
  refine (unlessFaulted_running h _).trans ?_
  rw [st]
  exact if_neg (Nat.not_le.2 literal)

/-- A pixel that makes the match a longer sequence with a code (R144). -/
theorem exec_lzwPixel_hit {p : Byte} {c : Nat} (st : s.lzw.st = .run) (literal : p.toNat < s.ct.clearCode)
    (found : codeOf s.ct (s.lzw.cur ++ [p]) = some c) :
    exec (.lzwPixel p) s =
      .next { s with lzw := ⟨.run, s.lzw.cur ++ [p]⟩, ct := { s.ct with hit := true, codeQ := c } } := by
  rw [exec_lzwPixel_run h st literal, nextPixel, ctTryGet_hit found, ← st]
  rfl

theorem exec_lzwAbort_running : exec .lzwAbort s = .next (abortFrame s) := unlessFaulted_running h _

/-! ### A match without a code (log entry 14) -/

theorem exec_lzwPixel_uncoded {p : Byte} (st : s.lzw.st = .run) (literal : p.toNat < s.ct.clearCode)
    (missed : codeOf s.ct (s.lzw.cur ++ [p]) = none) (uncoded : codeOf s.ct s.lzw.cur = none) :
    exec (.lzwPixel p) s = .fault .matchWithoutCode := by
  rw [exec_lzwPixel_run h st literal, nextPixel]
  dsimp only
  rw [ctTryGet_ct_hit, codeOf_ctTryGet, ctTryGet_lzw, missed, uncoded]
  exact if_neg Bool.false_ne_true

theorem exec_lzwEnd_uncoded (st : s.lzw.st = .run) (uncoded : codeOf s.ct s.lzw.cur = none) :
    exec .lzwEnd s = .fault .matchWithoutCode := by
  refine (unlessFaulted_running h _).trans ?_
  rw [st]
  dsimp only
  rw [uncoded]

/-! ### Commands on a sink that accepts -/

section
variable (accepts : s.sinkAccepts)
include accepts

theorem exec_lzwBegin_completes {n : BitVec 9} (st : s.lzw.st = .idle ∨ s.lzw.st = .done) (low : 1 ≤ n.toNat)
    (high : n.toNat ≤ 256) : ∃ t, exec (.lzwBegin n) s = .next t ∧ beginFrame Config.params n.toNat s = .ok t := by
  obtain ⟨t, run⟩ := (runs_beginFrame Config.params n.toNat s).ok_of_accepts accepts
  exact ⟨t, by rw [exec_lzwBegin_legal h st low high, run]; rfl, run⟩

theorem exec_lzwEnd_completes {c : Nat} (st : s.lzw.st = .run) (code : codeOf s.ct s.lzw.cur = some c) :
    ∃ t, exec .lzwEnd s = .next t ∧ endFrame Config.params c s = .ok t := by
  obtain ⟨t, run⟩ := (runs_endFrame Config.params c s).ok_of_accepts accepts
  exact ⟨t, by rw [exec_lzwEnd_run h st code, run]; rfl, run⟩

section
variable {p : Byte} {c : Nat} (st : s.lzw.st = .run) (literal : p.toNat < s.ct.clearCode)
  (missed : codeOf s.ct (s.lzw.cur ++ [p]) = none) (code : codeOf s.ct s.lzw.cur = some c)
include st literal missed code

theorem exec_lzwPixel_miss_completes : ∃ t, exec (.lzwPixel p) s = .next t ∧
    newMatch c (s.lzw.cur ++ [p]) p (ctTryGet (s.lzw.cur ++ [p]) s) = .ok t := by
  obtain ⟨t, run⟩ := (runs_newMatch c (s.lzw.cur ++ [p]) p (ctTryGet (s.lzw.cur ++ [p]) s)).ok_of_accepts
    ((ran_ctTryGet _ s).accepts accepts)
  exact ⟨t, by rw [exec_lzwPixel_miss h st literal missed code, run]; rfl, run⟩

variable (order : EncoderInOrder s.bw s.ct s.lzw)
include order

/-- A miss on a table with room: the code of the match goes out at the width before the addition (R144, R145). -/
theorem exec_lzwPixel_room (room : s.ct.next ≠ 4096) : ∃ t, exec (.lzwPixel p) s = .next t ∧
    t = { s with
      bw := t.bw, out := t.out, sinkFail := t.sinkFail, free := t.free
      lzw := ⟨.run, [p]⟩
      ct := { s.ct with
        hit := false
        codeQ := t.ct.codeQ
        added := true
        width := if s.ct.next = 2 ^ s.ct.width then s.ct.width + 1 else s.ct.width
        tab := s.ct.tab ++ [(s.lzw.cur ++ [p], s.ct.next)]
        next := s.ct.next + 1 } } ∧
    t.bw.ok ∧ s.appends t (bitsOf c s.ct.width) := by
  obtain ⟨t, hx, run⟩ := exec_lzwPixel_miss_completes h accepts st literal missed code
  have looked := order.of_ctTryGet (s.lzw.cur ++ [p])
  rw [ctTryGet_miss missed] at run looked
  obtain ⟨writer, appended, ht⟩ := newMatch_room looked.writer looked.table room run
  rw [grow_insert_eq] at ht
  refine ⟨t, hx, ?_, writer, appended⟩
  rw [ht, ← st]
  rfl

/-- A miss on a full table: `ClearCode` follows the code of the match, and the table is reset (R144). -/
theorem exec_lzwPixel_full (full : s.ct.next = 4096) : ∃ t, exec (.lzwPixel p) s = .next t ∧
    t = { s with
      bw := t.bw, out := t.out, sinkFail := t.sinkFail, free := t.free
      lzw := ⟨.run, [p]⟩
      ct := { s.ct with
        hit := false
        codeQ := t.ct.codeQ
        added := false
        width := s.ct.mcs + 1
        tab := []
        next := 2 ^ s.ct.mcs + 2 } } ∧
    t.bw.ok ∧ s.appends t (bitsOf c 12 ++ bitsOf (2 ^ s.ct.mcs) 12) := by
  obtain ⟨t, hx, run⟩ := exec_lzwPixel_miss_completes h accepts st literal missed code
  have looked := order.of_ctTryGet (s.lzw.cur ++ [p])
  rw [ctTryGet_miss missed] at run looked
  obtain ⟨writer, appended, ht⟩ := newMatch_full looked.writer looked.table full run
  refine ⟨t, hx, ?_, writer, appended⟩
  rw [ht, ← st]

end
end
end

end Sys2Proof.Machine
end

section
/-! PROOF. The statements of the scope: the LZW encoder. -/

open Sys2Proof Sys2Proof.Machine

/-- Settles O35: on a sink that accepts, the frame's beginning completes, and its one code is written into an empty Bit Writer. -/
theorem beginOpensAFrame : Obligations.BeginOpensAFrame := by
  intro s n h accepts st low high
  obtain ⟨t, hx, run⟩ := exec_lzwBegin_completes h accepts st low high
  obtain ⟨ht, -, writer⟩ := beginFrame_ok low high run
  exact ⟨t, hx, _, rfl, ht, writer⟩

/-- Settles O36: the state is checked before the index, and neither check writes any other state. -/
theorem firstPixelStartsTheMatch : Obligations.FirstPixelStartsTheMatch := by
  refine ⟨fun p => ?_, fun s p h => ?_⟩
  · exact (cmdWord_eq_or 1 1 (0#16 ++ p)).trans (congrArg _ (setWidth_zero_append p))
  · rw [← s.ct.clearCode_eq]
    exact ⟨exec_lzwPixel_badState h, exec_lzwPixel_operandRange h, exec_lzwPixel_first h⟩

/-- Settles O37: in `RUN` the dictionary is a map, so that the extended sequence has a code exactly if it is stored. -/
theorem pixelInRun : Obligations.PixelInRun := by
  intro s p h he accepts st literal
  have order := he.inOrder h
  have map := (order.dictionary_of_run st).map
  rw [← s.ct.clearCode_eq] at literal
  have missed {c : Nat} (new : ∀ d, (s.lzw.cur ++ [p], d) ∉ s.ct.tab) (code : codeOf s.ct s.lzw.cur = some c) :
      codeOf s.ct (s.lzw.cur ++ [p]) = none :=
    (codeOf_long (length_extended code p)).trans (lookup_eq_none.2 new)
  refine ⟨fun c stored => ?_, fun c new coded room => ?_, fun c new coded full => ?_⟩
  · exact exec_lzwPixel_hit h st literal (map.codeOf_iff.2 (.inr ⟨(map.2.2 _ stored).1, stored⟩))
  · have code := map.codeOf_iff.2 coded
    exact exec_lzwPixel_room h accepts st literal (missed new code) code order (Nat.ne_of_lt room)
  · have code := map.codeOf_iff.2 coded
    obtain ⟨t, hx, ht, appended⟩ := exec_lzwPixel_full h accepts st literal (missed new code) code order full
    exact ⟨t, hx, ht, order.table.width_full full, appended⟩

/-- Settles O38: the two codes are written at the width of the table, which `LZW.END` does not change, before the flush. -/
theorem endClosesTheFrame : Obligations.EndClosesTheFrame := by
  refine fun s h => ⟨exec_lzwEnd_badState h, exec_lzwEnd_emptyFrame h, fun c he accepts st coded => ?_⟩
  have order := he.inOrder h
  have map := (order.dictionary_of_run st).map
  obtain ⟨t, hx, run⟩ := exec_lzwEnd_completes h accepts st (map.codeOf_iff.2 coded)
  exact ⟨t, hx, endFrame_ok order.writer order.table run⟩

/-- Settles O39: in a dictionary that is a map, what has no code by R150 has none by R141. -/
theorem matchWithoutCodeStops : Obligations.MatchWithoutCodeStops := by
  intro s h map st uncoded
  have none_of {q : IndexSeq} (hq : ∀ c, ¬ s.ct.coded q c) : codeOf s.ct q = none :=
    Option.eq_none_iff_forall_not_mem.2 fun c hc => hq c (map.codeOf_iff.1 hc)
  refine ⟨exec_lzwEnd_uncoded h st (none_of uncoded), fun p literal new => ?_⟩
  rw [← s.ct.clearCode_eq] at literal
  exact exec_lzwPixel_uncoded h st literal (none_of new) (none_of uncoded)

/-- Settles O40: the abort assigns its registers and makes no burst. -/
theorem abortAbandonsTheFrame : Obligations.AbortAbandonsTheFrame :=
  ⟨fun _ h => exec_lzwAbort_running h, fun _ h => exec_faulted h _, by decide⟩

end

section
/-! SUPPORT. The encoder's state table (R140): what each `LZW` command does in each state, on a sink that accepts. -/

namespace Sys2Proof.Machine

/-- The instruction completes in the state its cell names, or raises the fault its cell names. -/
def MeetsCell (s : State) (i : Instr) : Prop :=
  match encoderCell s.lzw.st i with
  | some (.inl st) => ∃ t, exec i s = .next t ∧ t.lzw.st = st ∧ t.running
  | some (.inr c) => exec i s = .next (s.raise c (encode i))
  | none => True

section
variable {s : State} (h : s.running) (accepts : s.sinkAccepts)
include h accepts

theorem meetsCell_lzwBegin {n : BitVec 9} (low : 1 ≤ n.toNat) (high : n.toNat ≤ 256) : MeetsCell s (.lzwBegin n) := by
  have opens (st : s.lzw.st = .idle ∨ s.lzw.st = .done) :
      ∃ t, exec (.lzwBegin n) s = .next t ∧ t.lzw.st = .first ∧ t.running := by
    obtain ⟨t, hx, run⟩ := exec_lzwBegin_completes h accepts st low high
    have ht := (beginFrame_ok low high run).1
    exact ⟨t, hx, by rw [ht], by rw [ht]; exact h⟩
  unfold MeetsCell
  cases st : s.lzw.st with
  | idle => exact opens (.inl st)
  | first => exact exec_lzwBegin_badState h (.inl st)
  | run => exact exec_lzwBegin_badState h (.inr st)
  | done => exact opens (.inr st)

variable (order : EncoderInOrder s.bw s.ct s.lzw)
include order

/-- In `RUN` the match has a code (R150), so that a pixel has an effect whether it makes the match longer or ends it. -/
theorem exists_lzwPixel_of_run {p : Byte} (st : s.lzw.st = .run) (literal : p.toNat < s.ct.clearCode) :
    ∃ t, exec (.lzwPixel p) s = .next t ∧ t.lzw.st = .run ∧ t.running := by
  cases found : codeOf s.ct (s.lzw.cur ++ [p]) with
  | some c => exact ⟨_, exec_lzwPixel_hit h st literal found, rfl, h⟩
  | none =>
    obtain ⟨c, code⟩ := order.exists_code st
    by_cases full : s.ct.next = 4096
    · obtain ⟨t, hx, ht, -⟩ := exec_lzwPixel_full h accepts st literal found code order full
      exact ⟨t, hx, by rw [ht], by rw [ht]; exact h⟩
    · obtain ⟨t, hx, ht, -⟩ := exec_lzwPixel_room h accepts st literal found code order full
      exact ⟨t, hx, by rw [ht], by rw [ht]; exact h⟩

theorem meetsCell_lzwPixel {p : Byte} (literal : p.toNat < s.ct.clearCode) : MeetsCell s (.lzwPixel p) := by
  unfold MeetsCell
  cases st : s.lzw.st with
  | idle => exact exec_lzwPixel_badState h (.inl st)
  | first => exact ⟨_, exec_lzwPixel_first h st literal, rfl, h⟩
  | run => exact exists_lzwPixel_of_run h accepts order st literal
  | done => exact exec_lzwPixel_badState h (.inr st)

theorem meetsCell_lzwEnd : MeetsCell s .lzwEnd := by
  unfold MeetsCell
  cases st : s.lzw.st with
  | idle => exact exec_lzwEnd_badState h (.inl st)
  | first => exact exec_lzwEnd_emptyFrame h st
  | run =>
    obtain ⟨c, code⟩ := order.exists_code st
    obtain ⟨t, hx, run⟩ := exec_lzwEnd_completes h accepts st code
    have ht := (endFrame_ok order.writer order.table run).1
    exact ⟨t, hx, by rw [ht], by rw [ht]; exact h⟩
  | done => exact exec_lzwEnd_badState h (.inr st)

end

theorem meetsCell_lzwAbort {s : State} (h : s.running) : MeetsCell s .lzwAbort :=
  ⟨_, exec_lzwAbort_running h, rfl, h⟩

end Sys2Proof.Machine
end

section
/-! PROOF. The statement of the scope on the encoder's state table. -/

open Sys2Proof Sys2Proof.Machine

/-- Settles O41: each `LZW` command meets its cell in each of the four states; the table has no cell for other operations. -/
theorem encoderStateTable : Obligations.EncoderStateTable := by
  intro i s h he accepts legal literal
  have order := he.inOrder h
  have meets : MeetsCell s i := by
    cases i with
    | lzwBegin n =>
      obtain ⟨low, high⟩ : 1 ≤ n.toNat ∧ n.toNat ≤ 256 := by simpa [Instr.wellFormed] using legal
      exact meetsCell_lzwBegin h accepts low high
    | lzwPixel p => exact meetsCell_lzwPixel h accepts order (by rw [s.ct.clearCode_eq]; exact literal p rfl)
    | lzwEnd => exact meetsCell_lzwEnd h accepts order
    | lzwAbort => exact meetsCell_lzwAbort h
    | ctReset | ctTryGet | ctTryAdd | bwWriteCode | bwFlush | deInit | deDelta | deTrim | deDispose | deCommit => exact trivial
  exact ⟨fun st cell => by rwa [MeetsCell, cell] at meets, fun c cell => by rwa [MeetsCell, cell] at meets⟩

end

section
/-! SUPPORT. The frame function (R149), one turn at a time, and how many codes it emits. -/

namespace Sys2Proof.Machine

section
variable {m : Nat} {f : Parse} {p : Byte}

theorem Parse.pixel_stored {d : Nat} (stored : lookup (f.cur ++ [p]) f.tab = some d) :
    f.pixel m p = some { f with cur := f.cur ++ [p] } := by
  rw [pixel, stored]

section
variable {c : Nat} (new : lookup (f.cur ++ [p]) f.tab = none) (code : f.code = some c)
include new code

theorem Parse.pixel_room (room : f.next ≠ 4096) : ∃ g, f.pixel m p = some g ∧ g.codes = f.codes ++ [(c, f.width)] ∧
    g.table m = (f.table m).grow.insert (f.cur ++ [p]) ∧ g.cur = [p] := by
  rw [grow_insert_eq, pixel, new, code, ← Nat.one_shiftLeft]
  exact ⟨_, congrArg some (if_neg room), rfl, rfl, rfl⟩

theorem Parse.pixel_full (full : f.next = 4096) :
    f.pixel m p = some ⟨f.codes ++ [(c, f.width), (2 ^ m, f.width)], [], m + 1, 2 ^ m + 2, [p]⟩ := by
  rw [pixel, new, code, Nat.one_shiftLeft]
  exact congrArg some (if_pos full)

end
end

/-! ### The number of codes -/

/-- How many of the codes are not `ClearCode`. -/
def othersThanClear (m : Nat) (codes : List Emitted) : Nat := codes.countP fun e => ¬ e.1 = 2 ^ m

theorem othersThanClear_append (m : Nat) (a b : List Emitted) :
    othersThanClear m (a ++ b) = othersThanClear m a + othersThanClear m b := List.countP_append

theorem othersThanClear_le_length (m : Nat) (codes : List Emitted) : othersThanClear m codes ≤ codes.length :=
  List.countP_le_length

theorem othersThanClear_clear (m w : Nat) : othersThanClear m [(2 ^ m, w)] = 0 := by simp [othersThanClear]

theorem length_eq_clear_add_others (m : Nat) (codes : List Emitted) :
    codes.length = (codes.filter fun e => e.1 = 2 ^ m).length + othersThanClear m codes := by
  rw [List.length_eq_countP_add_countP (fun e : Emitted => decide (e.1 = 2 ^ m)), List.countP_eq_length_filter, othersThanClear]
  simp

/-- A turn of the loop emits at most one code that is not `ClearCode`. -/
theorem Turn.others_le {m : Nat} {f g : Parse} {p : Byte} (h : Turn m f p g) :
    othersThanClear m g.codes ≤ othersThanClear m f.codes + 1 := by
  cases h with
  | longerMatch => exact Nat.le_succ _
  | newCode code new room codes table cur =>
    rw [codes, othersThanClear_append]
    exact Nat.add_le_add_left (othersThanClear_le_length m _) _
  | newCycle code full =>
    rw [othersThanClear_append, othersThanClear_append, othersThanClear_clear]
    exact Nat.add_le_add_left (othersThanClear_le_length m _) _

theorem Parse.others_pixels {m : Nat} {g : Parse} : ∀ {ps : List Byte} {f : Parse}, Parse.pixels m f ps = some g →
    othersThanClear m g.codes ≤ othersThanClear m f.codes + ps.length
  | [], _, hg => by cases hg; exact le_rfl
  | p :: ps, f, hg => by
    obtain ⟨f', turn, rest⟩ := Option.bind_eq_some_iff.1 hg
    have first := (turn_of_pixel turn).others_le
    have others := others_pixels rest
    rw [List.length_cons]
    omega

/-- Of a frame's codes, one is emitted for each pixel at most, and two at its end; the others are `ClearCode`. -/
theorem length_frameCodes_le {m : Nat} {pixels : List Byte} {codes : List Emitted} (hc : frameCodes m pixels = some codes) :
    codes.length ≤ pixels.length + 1 + (codes.filter fun e => e.1 = 2 ^ m).length := by
  match pixels, hc with
  | p :: ps, hc =>
    obtain ⟨f, loop, last⟩ := Option.bind_eq_some_iff.1 hc
    obtain ⟨c, -, rfl⟩ := Option.map_eq_some_iff.1 last
    have others := Parse.others_pixels loop
    have start : othersThanClear m (Parse.start m p).codes = 0 := by
      rw [Parse.start, Nat.one_shiftLeft]; exact othersThanClear_clear m _
    have ending := othersThanClear_le_length m [(c, f.width), ((1 <<< m) + 1, f.width)]
    rw [length_eq_clear_add_others m, othersThanClear_append, List.length_cons]
    rw [List.length_cons, List.length_singleton] at ending
    omega

/-- A frame's codes are at least `ClearCode`, the final match's, and `EOI`. -/
theorem three_le_length_frameCodes {m : Nat} {pixels : List Byte} {codes : List Emitted} (low : 2 ≤ m) (high : m ≤ 8)
    (hp : ∀ p ∈ pixels, p.toNat < 2 ^ m) (hc : frameCodes m pixels = some codes) : 3 ≤ codes.length := by
  match pixels, hp, hc with
  | p :: ps, hp, hc =>
    obtain ⟨hp, hps⟩ := List.forall_mem_cons.1 hp
    obtain ⟨f, loop, last⟩ := Option.bind_eq_some_iff.1 hc
    obtain ⟨c, -, rfl⟩ := Option.map_eq_some_iff.1 last
    have clear := ((Parse.inOrder_start low high hp).pixels hps loop).codes.first
    have : 0 < f.codes.length := List.length_pos_of_mem (List.mem_of_head? clear)
    rw [List.length_append, List.length_cons, List.length_singleton]
    omega

end Sys2Proof.Machine
end

section
/-! SUPPORT. Commands of the stream, one step each (R44 (b)). -/

namespace Sys2Proof.Machine

theorem run_succ {M : Host.Core} {s t : M.State} (h : M.step s = .next t) (k : Nat) : M.run (k + 1) s = M.run k t := by
  rw [Host.Core.run, h]

/-- The word of an `LZW` or `DE` operation, presented on the command port. -/
def presented (i : Instr) : HostEvent := .command .commandPort (encode i)

/-- A step that takes such a word runs its instruction. -/
theorem run_presented {i : Instr} (port : i.port = .commandPort) {s t : State} {rest : List HostEvent} (h : s.running)
    (events : s.events = presented i :: rest) (hx : exec i { s with events := rest } = .next t) (k : Nat) :
    core.run (k + 1) s = core.run k t := by
  refine run_succ (M := core) ?_ k
  have taken := command_of_decode (s := { s with events := rest }) h (decode_encode i)
  rw [port] at taken
  exact (step_of_events events).trans (taken.trans hx)

end Sys2Proof.Machine
end

section
/-! SUPPORT. A frame in the machine and in the frame function (R149): the Code Table and the match are the variables of the function,
and the bits appended are those of its codes. -/

namespace Sys2Proof.Machine

/-- A Code Table but for its result flags (R33), which the frame function does not have. -/
def CodeTable.unflagged (ct : CodeTable) : CodeTable := { ct with hit := false, codeQ := 0, added := false }

/-- A frame is open in `t`: since `s` the bits of the codes of `f` were appended, the Code Table is the dictionary of `f`, and the
delta engine and the inputs are as in `s`. -/
structure FrameOpen (m : Nat) (s : State) (f : Parse) (t : State) : Prop where
  running : t.running
  accepts : t.sinkAccepts
  order : EncoderInOrder t.bw t.ct t.lzw
  table : t.ct.unflagged = f.table m
  appended : s.appends t (codeBits f.codes)
  kept : t.de = s.de ∧ t.cfg = s.cfg ∧ t.frames = s.frames

theorem codeOf_unflagged (ct : CodeTable) (q : IndexSeq) : codeOf ct.unflagged q = codeOf ct q := by
  match q with
  | [] => rfl
  | [_] => rfl
  | _ :: _ :: _ => rfl

/-- A flush completes the stream of the codes whose bits were appended to an empty Bit Writer. -/
theorem State.appends.out_flushed {s t : State} {codes : List Emitted} (appended : s.appends t (codeBits codes))
    (empty : s.bw = .empty) (writer : t.bw.ok) :
    t.out ++ shortBlock t.bw.lastData ++ [0] = s.out ++ blockStream codes := by
  have grows : s.out <+: t.out := by
    obtain ⟨blocks, -, out, -⟩ := appended
    exact out ▸ List.prefix_append _ _
  exact Wrote.out_flushed (s := { t with bw := s.bw, out := s.out }) empty ⟨⟨rfl, grows, [], rfl, by simp⟩, writer, appended⟩

theorem codeBits_append (a b : List Emitted) : codeBits (a ++ b) = codeBits a ++ codeBits b := List.flatMap_append

section
variable {m : Nat} {s t : State} {f : Parse} (h : FrameOpen m s f t)
include h

/-- The events still to come have no part in an open frame. -/
theorem FrameOpen.withEvents (rest : List HostEvent) : FrameOpen m s f { t with events := rest } :=
  ⟨h.running, h.accepts, h.order, h.table, h.appended, h.kept⟩

theorem FrameOpen.mcs : t.ct.mcs = m := congrArg CodeTable.mcs h.table
theorem FrameOpen.width : t.ct.width = f.width := congrArg CodeTable.width h.table
theorem FrameOpen.next : t.ct.next = f.next := congrArg CodeTable.next h.table
theorem FrameOpen.tab : t.ct.tab = f.tab := congrArg CodeTable.tab h.table

/-- A frame stays open under a command of the encoder that completes, if its bits are those of the codes that the frame function
appends and its table is the function's. -/
theorem FrameOpen.step {i : Instr} {u : State} {g : Parse} {codes : List Emitted} (port : i.port = .commandPort)
    (encoder : isDelta i = false) (hx : exec i t = .next u) (hu : u.running) (table : u.ct.unflagged = g.table m)
    (appended : t.appends u (codeBits codes)) (hg : g.codes = f.codes ++ codes) : FrameOpen m s g u := by
  have hran : Ran t u := by
    rcases exec_cases h.running hx with ⟨-, ran⟩ | ⟨delta, -⟩ | ⟨c, -, cause, -, rfl⟩ | ⟨-, -, v, -, rfl⟩
    · exact ran
    · rw [encoder] at delta; cases delta
    · exact absurd hu cause
    · cases hu
  obtain ⟨de, cfg, frames⟩ := h.kept
  refine ⟨hu, hran.accepts h.accepts, h.order.of_run port (encoderRun_of_exec h.running hu encoder hx), table, ?_,
    hran.frame.de.trans de, hran.frame.cfg.trans cfg, hran.frame.frames.trans frames⟩
  rw [hg, codeBits_append]
  exact h.appended.trans appended

/-- The match has one code, in the machine and in the frame function. -/
theorem FrameOpen.exists_code (lzw : t.lzw = ⟨.run, f.cur⟩) : ∃ c, codeOf t.ct t.lzw.cur = some c ∧ f.code = some c := by
  obtain ⟨c, code⟩ := h.order.exists_code (by rw [lzw])
  refine ⟨c, code, ?_⟩
  rw [Parse.code_eq m, ← h.table, codeOf_unflagged, ← code, lzw]

/-- A pixel in the machine is a turn of the loop of the frame function (R144, R149). -/
theorem FrameOpen.pixel {p : Byte} (literal : p.toNat < 2 ^ m) (lzw : t.lzw = ⟨.run, f.cur⟩) :
    ∃ g u, f.pixel m p = some g ∧ exec (.lzwPixel p) t = .next u ∧ FrameOpen m s g u ∧ u.lzw = ⟨.run, g.cur⟩ := by
  have st : t.lzw.st = .run := by rw [lzw]
  have cur : t.lzw.cur = f.cur := by rw [lzw]
  obtain ⟨c, code, fcode⟩ := h.exists_code lzw
  have literal' : p.toNat < t.ct.clearCode := by rwa [t.ct.clearCode_eq, h.mcs]
  have extended : codeOf t.ct (t.lzw.cur ++ [p]) = lookup (f.cur ++ [p]) f.tab := by
    rw [codeOf_long (length_extended code p), cur, h.tab]
  cases found : lookup (f.cur ++ [p]) f.tab with
  | some d =>
    have hx := exec_lzwPixel_hit h.running st literal' (extended.trans found)
    refine ⟨_, _, Parse.pixel_stored found, hx, ?_, by rw [cur]⟩
    exact h.step (codes := []) rfl rfl hx h.running h.table (appends_refl t) (List.append_nil _).symm
  | none =>
    have missed := extended.trans found
    by_cases full : f.next = 4096
    · obtain ⟨u, hx, hu, -, appended⟩ :=
        exec_lzwPixel_full h.running h.accepts st literal' missed code h.order (h.next.trans full)
      have width : f.width = 12 := h.width.symm.trans (h.order.table.width_full (h.next.trans full))
      refine ⟨_, u, Parse.pixel_full found fcode full, hx, h.step rfl rfl hx ?_ ?_ ?_ rfl, by rw [hu]⟩
      · rw [hu]; exact h.running
      · rw [hu, ← h.mcs]; rfl
      · rw [width, ← h.mcs]
        simpa [codeBits] using appended
    · obtain ⟨u, hx, hu, -, appended⟩ :=
        exec_lzwPixel_room h.running h.accepts st literal' missed code h.order fun hn => full (h.next.symm.trans hn)
      obtain ⟨g, hg, codes, table, gcur⟩ := Parse.pixel_room found fcode full
      refine ⟨g, u, hg, hx, h.step rfl rfl hx ?_ ?_ ?_ codes, by rw [hu, gcur]⟩
      · rw [hu]; exact h.running
      · rw [table, ← h.table, ← cur, hu, grow_insert_eq]; rfl
      · rw [← h.width]
        simpa [codeBits] using appended

/-- The final match's code and `EOI` complete the frame's codes, and the flush writes them out (R147, R149). -/
theorem FrameOpen.finish (lzw : t.lzw = ⟨.run, f.cur⟩) (empty : s.bw = .empty) :
    ∃ codes u, f.finish m = some codes ∧ exec .lzwEnd t = .next u ∧ u.out = s.out ++ blockStream codes ∧
      u.lzw.st = .done ∧ u.running ∧ u.bw = .empty ∧ u.de = s.de ∧ u.cfg = s.cfg ∧ u.frames = s.frames := by
  have st : t.lzw.st = .run := by rw [lzw]
  obtain ⟨c, code, fcode⟩ := h.exists_code lzw
  obtain ⟨u, hx, run⟩ := exec_lzwEnd_completes h.running h.accepts st code
  obtain ⟨hu, v, writer, appended, out⟩ := endFrame_ok h.order.writer h.order.table run
  have all : s.appends v (codeBits (f.codes ++ [(c, f.width), ((1 <<< m) + 1, f.width)])) := by
    rw [codeBits_append]
    refine h.appended.trans ?_
    rw [Nat.one_shiftLeft, ← h.width, ← h.mcs]
    simpa [codeBits] using appended
  obtain ⟨de, cfg, frames⟩ := h.kept
  refine ⟨_, u, by rw [Parse.finish, fcode]; rfl, hx, out.trans (all.out_flushed empty writer), ?_⟩
  rw [hu]
  exact ⟨rfl, h.running, rfl, de, cfg, frames⟩

/-- The first pixel starts the match, and nothing is emitted (R143). -/
theorem FrameOpen.firstPixel {p : Byte} (start : f = .start m p) (st : t.lzw.st = .first) (literal : p.toNat < 2 ^ m) :
    ∃ u, exec (.lzwPixel p) t = .next u ∧ FrameOpen m s f u ∧ u.lzw = ⟨.run, f.cur⟩ := by
  have hx := exec_lzwPixel_first h.running st (p := p) (by rwa [t.ct.clearCode_eq, h.mcs])
  refine ⟨_, hx, ?_, by rw [start]; rfl⟩
  exact h.step (codes := []) rfl rfl hx h.running h.table (appends_refl t) (List.append_nil _).symm

end

/-- What `LZW.BEGIN` leaves in the Bit Writer are the bits of `ClearCode` (R142). -/
theorem pending_fresh {m : Nat} {b : BitWriter} (high : m ≤ 8) (h6 : m ≤ 6 → b = ⟨BitVec.ofNat 32 (2 ^ m), m + 1, [], 0⟩)
    (h7 : m = 7 → b = ⟨0, 0, [0x80], 1⟩) (h8 : m = 8 → b = ⟨1, 1, [0x00], 1⟩) : b.pending = bitsOf (2 ^ m) (m + 1) := by
  rcases (show m ≤ 6 ∨ m = 7 ∨ m = 8 by omega) with low | rfl | rfl
  · have fits : 2 ^ m < 2 ^ 32 := Nat.pow_lt_pow_right (by decide) (by omega)
    rw [h6 low, BitWriter.pending, BitVec.toNat_ofNat, Nat.mod_eq_of_lt fits]
    rfl
  · rw [h7 rfl]; decide
  · rw [h8 rfl]; decide

/-- `s` when `LZW.BEGIN` has written the minimum code size `m` and emptied the Bit Writer (R142). -/
def State.sizeWritten (m : Nat) (s : State) : State := { s with bw := .empty, out := s.out ++ [BitVec.ofNat 8 m] }

/-- The frame that `LZW.BEGIN` opens is the frame function's before its first pixel (R142, R149). -/
theorem exists_frameOpen_of_lzwBegin {s : State} {n : BitVec 9} (h : s.running) (accepts : s.sinkAccepts)
    (st : s.lzw.st = .idle ∨ s.lzw.st = .done) (low : 1 ≤ n.toNat) (high : n.toNat ≤ 256) (p : Byte) :
    ∃ t, exec (.lzwBegin n) s = .next t ∧ t.lzw.st = .first ∧
      FrameOpen (minCodeSize n.toNat) (s.sizeWritten (minCodeSize n.toNat)) (.start (minCodeSize n.toNat) p) t := by
  obtain ⟨t, hx, run⟩ := exec_lzwBegin_completes h accepts st low high
  obtain ⟨ht, -, h6, h7, h8⟩ := beginFrame_ok low high run
  have ran := ran_of_ok (runs_beginFrame Config.params n.toNat s) run
  have pending := pending_fresh (minCodeSize_le low high) h6 h7 h8
  refine ⟨t, hx, by rw [ht], by rw [ht]; exact h, ran.accepts accepts, .of_beginFrame low high run, ?_, ?_, ?_⟩
  · rw [ht, Parse.start, Nat.one_shiftLeft]; rfl
  · refine ⟨[], by simp, by rw [ht, State.sizeWritten]; simp, ?_⟩
    rw [Parse.start, Nat.one_shiftLeft, pending]
    simp [codeBits, State.sizeWritten, BitWriter.pending, BitWriter.empty]
  · rw [ht]; exact ⟨rfl, rfl, rfl⟩

/-- `LZW.BEGIN` and the first pixel of the stream lead to where the loop of the frame function begins (R142, R143, R149). -/
theorem exists_run_of_begin {s : State} {n : BitVec 9} {p : Byte} {rest : List HostEvent} (h : s.running)
    (accepts : s.sinkAccepts) (st : s.lzw.st = .idle ∨ s.lzw.st = .done) (low : 1 ≤ n.toNat) (high : n.toNat ≤ 256)
    (literal : p.toNat < 2 ^ minCodeSize n.toNat)
    (events : s.events = presented (.lzwBegin n) :: presented (.lzwPixel p) :: rest) :
    ∃ t, (∀ k, core.run (k + 2) s = core.run k t) ∧ t.lzw = ⟨.run, [p]⟩ ∧ t.events = rest ∧
      FrameOpen (minCodeSize n.toNat) (s.sizeWritten (minCodeSize n.toNat)) (.start (minCodeSize n.toNat) p) t := by
  obtain ⟨t, hx, st', begun⟩ := exists_frameOpen_of_lzwBegin (s := { s with events := presented (.lzwPixel p) :: rest })
    h accepts st low high p
  obtain ⟨u, hx', opened, lzw⟩ := (begun.withEvents rest).firstPixel rfl st' literal
  refine ⟨u, fun k => ?_, lzw, (exec_keeps_inputs hx').2, ⟨opened.running, opened.accepts, opened.order, opened.table,
    opened.appended, opened.kept⟩⟩
  rw [run_presented rfl h events hx, run_presented rfl begun.running (exec_keeps_inputs hx).2 hx']

/-- The pixels of the stream, one step each, are the loop of the frame function (R149). -/
theorem FrameOpen.pixels {m : Nat} {s : State} {rest : List HostEvent} : ∀ {ps : List Byte} {f : Parse} {t : State},
    FrameOpen m s f t → t.lzw = ⟨.run, f.cur⟩ → (∀ p ∈ ps, p.toNat < 2 ^ m) →
    t.events = ps.map (fun p => presented (.lzwPixel p)) ++ rest →
    ∃ g u, Parse.pixels m f ps = some g ∧ (∀ k, core.run (ps.length + k) t = core.run k u) ∧ FrameOpen m s g u ∧
      u.lzw = ⟨.run, g.cur⟩ ∧ u.events = rest
  | [], f, t, h, lzw, _, events => ⟨f, t, rfl, fun k => by rw [List.length_nil, Nat.zero_add], h, lzw, events⟩
  | p :: ps, f, t, h, lzw, literals, events => by
    obtain ⟨literal, literals⟩ := List.forall_mem_cons.1 literals
    obtain ⟨f', t', turn, hx, h', lzw'⟩ :=
      (h.withEvents (ps.map (fun p => presented (.lzwPixel p)) ++ rest)).pixel literal lzw
    obtain ⟨g, u, loop, runs, hu⟩ := h'.pixels lzw' literals (exec_keeps_inputs hx).2
    refine ⟨g, u, ?_, fun k => ?_, hu⟩
    · rw [Parse.pixels, turn]; exact loop
    · rw [List.length_cons, Nat.succ_add_eq_add_succ, Nat.add_succ, run_presented rfl h.running events hx, runs]

end Sys2Proof.Machine
end

section
/-! PROOF. The statement of the scope on a whole frame. -/

open Sys2Proof Sys2Proof.Machine

/-- Settles O43: after every command the dictionary and the match are the variables of the frame function, and the bits written into
the empty Bit Writer are those of its codes; the flush makes them the image data. -/
theorem frameGivesItsImageData : Obligations.FrameGivesItsImageData := by
  intro s n pixels rest h accepts st low high nonempty literals events
  match pixels, nonempty with
  | p :: ps, _ =>
    obtain ⟨t, begun, lzw, events, opened⟩ := exists_run_of_begin
      (rest := ps.map (fun p => presented (.lzwPixel p)) ++ presented .lzwEnd :: rest) h accepts st low high
      (literals p List.mem_cons_self) (by rw [events]; simp [presented])
    obtain ⟨f, u, loop, runs, opened, lzw, events⟩ :=
      opened.pixels lzw (fun q hq => literals q (List.mem_cons_of_mem p hq)) events
    obtain ⟨codes, v, last, hx, out, done, running, empty, de, cfg, frames⟩ := (opened.withEvents rest).finish lzw rfl
    have hcodes : frameCodes (minCodeSize n.toNat) (p :: ps) = some codes := by rw [frameCodes, loop]; exact last
    refine ⟨codes, v, hcodes,
      three_le_length_frameCodes (two_le_minCodeSize _) (minCodeSize_le low high) literals hcodes,
      length_frameCodes_le hcodes, ?_, ?_, done, running, empty, de, cfg, frames, (exec_keeps_inputs hx).2⟩
    · calc core.run (ps.length + 1 + 2) s
        _ = core.run (ps.length + 1) t := begun _
        _ = core.run 1 u := runs 1
        _ = core.run 0 v := run_presented rfl opened.running events hx 0
    · rw [out, State.sizeWritten, List.append_assoc]; rfl

end

section
/-! SUPPORT. The delta engine's commands as instructions (R172): out of its step each faults, in its step each completes, and where the
step moves. -/

namespace Sys2Proof.Machine

theorem Cfg.width_eq_zero_iff {cfg : Cfg} : cfg.width = 0 ↔ cfg.w = 0 := BitVec.toNat_inj (y := 0)
theorem Cfg.height_eq_zero_iff {cfg : Cfg} : cfg.height = 0 ↔ cfg.h = 0 := BitVec.toNat_inj (y := 0)

/-- A canvas without pixels is the one fault of `DE.INIT` (R173). -/
theorem exec_deInit_deConfig {s : State} (h : s.running) (noPixel : s.cfg.w = 0 ∨ s.cfg.h = 0) :
    exec .deInit s = .next (s.raise .deConfig (encode .deInit)) := by
  rw [← Cfg.width_eq_zero_iff, ← Cfg.height_eq_zero_iff] at noPixel
  exact (unlessFaulted_running h _).trans (if_pos noPixel)

theorem exec_badState {i : Instr} {s : State} {st : DeStep} (h : s.running) (needs : neededStep i = some st)
    (out : s.de.ready = false ∨ s.de.step ≠ st) : exec i s = .next (s.raise .badState (encode i)) := by
  cases i with
  | lzwBegin | lzwPixel | lzwEnd | lzwAbort | ctReset | ctTryGet | ctTryAdd | bwWriteCode | bwFlush | deInit => cases needs
  | deDelta | deTrim | deDispose | deCommit => cases needs; exact inStep_illegal h out _ _

/-- A command of the delta engine that passes its check is what the machine answers. -/
theorem DeltaRun.exec {i : Instr} {s t : State} (run : DeltaRun s i t) (h : s.running) : exec i s = .next t := by
  cases run with
  | init wide high => exact (unlessFaulted_running h _).trans (if_neg (by omega))
  | delta ready step | trim ready step | dispose ready step | commit ready step => exact inStep_ready h ready step _ _

theorem DeltaRun.running {i : Instr} {s t : State} (run : DeltaRun s i t) (h : s.running) : t.running := by
  rw [run.frame]; exact h

theorem deltaRun_init {s : State} (wide : s.cfg.w ≠ 0) (high : s.cfg.h ≠ 0) : DeltaRun s .deInit (initCanvas s) :=
  .init (Nat.pos_of_ne_zero (mt Cfg.width_eq_zero_iff.1 wide)) (Nat.pos_of_ne_zero (mt Cfg.height_eq_zero_iff.1 high))

/-- Every register but the disposal, the step and the Render Buffer's two stays. -/
theorem disposeFrame_frame (par : Config.Params) (b : BitVec 1) (s : State) :
    disposeFrame par b s = { s with de := { s.de with
      rb := (disposeFrame par b s).de.rb, rbCleared := (disposeFrame par b s).de.rbCleared,
      disp := (disposeFrame par b s).de.disp, step := .decided } } := by
  obtain ⟨d, -, e | e⟩ := disposeFrame_cases par b s
  all_goals rw [e]; rfl

theorem ready_disposeFrame (par : Config.Params) (b : BitVec 1) (s : State) :
    (disposeFrame par b s).de.ready = s.de.ready := by rw [disposeFrame_frame]

theorem step_disposeFrame (par : Config.Params) (b : BitVec 1) (s : State) : (disposeFrame par b s).de.step = .decided := by
  rw [disposeFrame_frame]

theorem cfg_disposeFrame (par : Config.Params) (b : BitVec 1) (s : State) : (disposeFrame par b s).cfg = s.cfg := by
  rw [disposeFrame_frame]

theorem inClip_disposeFrame (par : Config.Params) (b : BitVec 1) (s : State) (y x : Nat) :
    (disposeFrame par b s).de.inClip y x = s.de.inClip y x := by rw [disposeFrame_frame]; rfl

theorem ready_commitFrame (s : State) : (commitFrame s).de.ready = s.de.ready := by
  obtain e | e := commitFrame_cases s
  all_goals rw [e]; rfl

theorem step_commitFrame (s : State) : (commitFrame s).de.step = .frameOpen := by
  obtain e | e := commitFrame_cases s
  all_goals rw [e]; rfl

end Sys2Proof.Machine
end

section
/-! SUPPORT. What each command of the delta engine computes, case by case (R175, R178, R181, R184), and the delay (R186). -/

namespace Sys2Proof.Machine

/-! ### `DE.DELTA` (R175) -/

/-- An update that gives every pixel of the canvas its own value back changes nothing. -/
theorem Memory.update_eq_self {α : Type} [DecidableEq α] {d : α} {m : List (Nat × α)} (h : Memory.wf d m) {w n : Nat}
    (hw : w ≤ 65536) {f : Nat → Nat → α → α}
    (fixed : ∀ y < n, ∀ x < w, f y x (Memory.read d m (Memory.pixel y x)) = Memory.read d m (Memory.pixel y x)) :
    Memory.update d w n f m = m := by
  refine Memory.ext (Memory.wf_update h w n f) h fun a => ?_
  have ha : a = Memory.pixel (a / 65536) (a % 65536) := by rw [Memory.pixel]; omega
  rw [ha, Memory.read_update h hw (Nat.mod_lt _ (by decide))]
  split
  · next inside => exact fixed _ inside.1 _ inside.2
  · rfl

theorem deltaApplies_iff {s : State} :
    deltaApplies s = true ↔ s.cfg.deltaAllowed = true ∧ s.de.havePrev = true ∧ s.cfg.qTransp = true := by
  rw [deltaApplies, Bool.and_eq_true, Bool.and_eq_true, and_assoc]

theorem deltaFrame_of_not_applies {s : State} (off : ¬ deltaApplies s = true) (b : BitVec 1) : deltaFrame b s = s := if_neg off

theorem deltaFrame_working {s : State} (on : deltaApplies s = true) : deltaFrame 0 s = deltaWorking s :=
  (if_pos on).trans (if_pos rfl)

theorem deltaFrame_indexed {s : State} (on : deltaApplies s = true) (valid : s.frames.tIdxValid = true) :
    deltaFrame 1 s = deltaIndexed s :=
  (if_pos on).trans ((if_neg (by decide)).trans (if_pos valid))

theorem deltaFrame_without_index {s : State} (noIndex : ¬ s.frames.tIdxValid = true) : deltaFrame 1 s = s := by
  rw [deltaFrame, if_neg (by decide : ¬ (1 : BitVec 1) = 0), if_neg noIndex, ite_self]

/-- `DE.DELTA 0` writes the working buffer alone. -/
theorem deltaFrame_working_frame (s : State) :
    deltaFrame 0 s = { s with frames := { s.frames with wb := (deltaFrame 0 s).frames.wb } } :=
  (deltaFrame_deltaFrame 0 s).trans (by rw [deltaFrame_de, frames_deltaFrame_working])

/-- `DE.DELTA 1` writes the indexed frame alone. -/
theorem deltaFrame_indexed_frame (s : State) :
    deltaFrame 1 s = { s with frames := { s.frames with idx := (deltaFrame 1 s).frames.idx } } :=
  (deltaFrame_deltaFrame 1 s).trans (by rw [deltaFrame_de, frames_deltaFrame_indexed])

theorem colorAt_deltaFrame_working {s : State} (h : Memory.wf transparent s.frames.wb) {y x : Nat} (hp : s.cfg.has y x) :
    colorAt (deltaFrame 0 s).frames.wb y x =
      if deltaApplies s = true ∧ colorAt s.frames.wb y x = colorAt s.de.rb y x then transparent
      else colorAt s.frames.wb y x := by
  by_cases on : deltaApplies s = true
  · simp only [on, true_and, deltaFrame_working on, colorAt_deltaWorking h hp]
  · rw [deltaFrame_of_not_applies on, if_neg fun c => on c.1]

theorem indexAt_deltaFrame_indexed {s : State} (h : Memory.wf (0 : Byte) s.frames.idx) {y x : Nat} (hp : s.cfg.has y x) :
    indexAt (deltaFrame 1 s).frames.idx y x =
      if deltaApplies s = true ∧ s.frames.tIdxValid = true ∧
        Memory.read transparent s.frames.pal (indexAt s.frames.idx y x).toNat = colorAt s.de.rb y x
      then s.frames.tIdx else indexAt s.frames.idx y x := by
  by_cases on : deltaApplies s = true
  · by_cases valid : s.frames.tIdxValid = true
    · simp only [on, valid, true_and, deltaFrame_indexed on valid, indexAt_deltaIndexed h hp]
    · rw [deltaFrame_without_index valid, if_neg fun c => valid c.2.1]
  · rw [deltaFrame_of_not_applies on, if_neg fun c => on c.1]

/-- `DE.DELTA 0` has nothing left to do where every pixel that it would replace is `TRANSPARENT`. -/
theorem deltaWorking_eq_self {s : State} (h : Memory.wf transparent s.frames.wb)
    (done : ∀ y x, s.cfg.has y x → colorAt s.frames.wb y x = colorAt s.de.rb y x → colorAt s.frames.wb y x = transparent) :
    deltaWorking s = s := by
  have hw := s.cfg.width_lt
  rw [deltaWorking, Memory.update_eq_self h (by omega)]
  · rfl
  · intro y hy x hx
    split
    · next same => exact (done y x ⟨hy, hx⟩ same).symm
    · rfl

/-! ### `DE.TRIM` (R178) -/

theorem trimBox_keepBorders {s : State} (keep : s.cfg.keepBorders = true) (par : Config.Params) :
    trimBox par s = (0, 0, s.cfg.width, s.cfg.height) := if_pos keep

theorem trimBox_invisible {s : State} (trims : s.cfg.keepBorders = false)
    (invisible : ∀ y x, s.cfg.has y x → s.frames.vis y x = false) (par : Config.Params) :
    trimBox par s = ((par.center s.cfg.width s.cfg.height).1, (par.center s.cfg.width s.cfg.height).2, 1, 1) := by
  obtain ⟨keep, -⟩ | ⟨-, x0, x1, y0, y1, -, -, -, ⟨hx1, -⟩, ⟨-, col1, -⟩, -⟩ | ⟨-, -, box⟩ := trimBox_cases par s
  · rw [trims] at keep; cases keep
  · obtain ⟨y, hy, seen⟩ := visCol_iff.1 col1
    rw [invisible y x1 ⟨hy, hx1⟩] at seen; cases seen
  · exact box

/-- The box of the visible columns `x0` to `x1` and rows `y0` to `y1`: each outermost one holds a visible pixel of the canvas, and no
visible pixel lies outside. -/
theorem trimBox_visible {s : State} (trims : s.cfg.keepBorders = false) (visible : ∃ y x, s.cfg.has y x ∧ s.frames.vis y x = true)
    (par : Config.Params) :
    ∃ x0 x1 y0 y1, trimBox par s = (x0, y0, x1 - x0 + 1, y1 - y0 + 1) ∧ x0 ≤ x1 ∧ y0 ≤ y1 ∧
      (∀ x ∈ [x0, x1], ∃ y, s.cfg.has y x ∧ s.frames.vis y x = true) ∧
      (∀ y ∈ [y0, y1], ∃ x, s.cfg.has y x ∧ s.frames.vis y x = true) ∧
      ∀ y x, s.cfg.has y x → s.frames.vis y x = true → x0 ≤ x ∧ x ≤ x1 ∧ y0 ≤ y ∧ y ≤ y1 := by
  obtain ⟨keep, -⟩ | ⟨-, x0, x1, y0, y1, box, hx, hy, ⟨hx1, hy1⟩, ⟨col0, col1, row0, row1⟩, least⟩ | ⟨-, invisible, -⟩ :=
    trimBox_cases par s
  · rw [trims] at keep; cases keep
  · have col {x : Nat} (hc : s.visCol x = true) (inside : x < s.cfg.width) : ∃ y, s.cfg.has y x ∧ s.frames.vis y x = true := by
      obtain ⟨y, high, seen⟩ := visCol_iff.1 hc
      exact ⟨y, ⟨high, inside⟩, seen⟩
    have row {y : Nat} (hr : s.visRow y = true) (inside : y < s.cfg.height) : ∃ x, s.cfg.has y x ∧ s.frames.vis y x = true := by
      obtain ⟨x, wide, seen⟩ := visRow_iff.1 hr
      exact ⟨x, ⟨inside, wide⟩, seen⟩
    exact ⟨x0, x1, y0, y1, box, hx, hy, by simp [col col0 (by omega), col col1 hx1],
      by simp [row row0 (by omega), row row1 hy1], fun y x hp => least y x hp.1 hp.2⟩
  · obtain ⟨y, x, hp, seen⟩ := visible
    rw [invisible y x hp.1 hp.2] at seen; cases seen

/-- No visible pixel is trimmed away. -/
theorem inClip_trimFrame {s : State} (par : Config.Params) {y x : Nat} (hp : s.cfg.has y x) (seen : s.frames.vis y x = true) :
    (trimFrame par s).de.inClip y x = true := by
  obtain ⟨hy, hx⟩ := hp
  rw [inClip_iff, trimFrame_eq]
  cases keep : s.cfg.keepBorders with
  | true =>
    rw [trimBox_keepBorders keep]
    rw [Nat.zero_add, Nat.zero_add]
    exact ⟨Nat.zero_le y, hy, Nat.zero_le x, hx⟩
  | false =>
    obtain ⟨x0, x1, y0, y1, box, -, -, -, -, least⟩ := trimBox_visible keep ⟨y, x, ⟨hy, hx⟩, seen⟩ par
    have := least y x ⟨hy, hx⟩ seen
    rw [box]; dsimp only; omega

/-! ### `DE.DISPOSE` (R181) -/

section
variable {s : State} {par : Config.Params} {b : BitVec 1}

theorem disposeFrame_deltaOff (off : s.cfg.deltaAllowed = false) :
    disposeFrame par b s = s.setDe { s.de with
      disp := if b = 1 ∨ s.cfg.looping = true then .restoreBackground else lastDisposal par, step := .decided } := if_pos off

theorem disposeFrame_background (on : s.cfg.deltaAllowed = true)
    (calls : s.cfg.qTransp = true ∧ b = 1 ∧ newlyTransparent s = true) :
    disposeFrame par b s =
      s.setDe { s.de with disp := .restoreBackground, rb := clearedBuffer, step := .decided }.setCleared :=
  (if_neg (by rw [on]; decide)).trans (if_pos calls)

theorem disposeFrame_keeps (on : s.cfg.deltaAllowed = true)
    (calls : ¬ (s.cfg.qTransp = true ∧ b = 1 ∧ newlyTransparent s = true)) :
    disposeFrame par b s = s.setDe { s.de with disp := .doNotDispose, step := .decided } :=
  (if_neg (by rw [on]; decide)).trans (if_neg calls)

theorem lastDisposal_cases (par : Config.Params) :
    lastDisposal par = .doNotDispose ∨ lastDisposal par = .restoreBackground := by
  unfold lastDisposal; split
  · exact .inr rfl
  · exact .inl rfl

/-- The Render Buffer is cleared together with a disposal to background only. -/
theorem rb_disposeFrame_of_kept (kept : (disposeFrame par b s).de.disp ≠ .restoreBackground) :
    (disposeFrame par b s).de.rb = s.de.rb := by
  cases on : s.cfg.deltaAllowed with
  | false => rw [disposeFrame_deltaOff on]; rfl
  | true =>
    by_cases calls : s.cfg.qTransp = true ∧ b = 1 ∧ newlyTransparent s = true
    · rw [disposeFrame_background on calls] at kept; exact absurd rfl kept
    · rw [disposeFrame_keeps on calls]; rfl

theorem comp_disposeFrame_of_kept (kept : (disposeFrame par b s).de.disp ≠ .restoreBackground) (y x : Nat) :
    (disposeFrame par b s).comp y x = s.comp y x := by
  rw [State.comp, State.comp, frames_disposeFrame, rb_disposeFrame_of_kept kept]

/-- With delta frames a disposal to background clears the Render Buffer. -/
theorem rb_disposeFrame_of_background (on : s.cfg.deltaAllowed = true)
    (background : (disposeFrame par b s).de.disp = .restoreBackground) : (disposeFrame par b s).de.rb = clearedBuffer := by
  by_cases calls : s.cfg.qTransp = true ∧ b = 1 ∧ newlyTransparent s = true
  · rw [disposeFrame_background on calls]; rfl
  · rw [disposeFrame_keeps on calls] at background; cases background

end

/-! ### `DE.COMMIT` (R184) -/

theorem commitFrame_background {s : State} (hd : s.de.disp = .restoreBackground) : commitFrame s = s.setDe s.de.setCommitted :=
  if_pos hd

theorem commitFrame_composites {s : State} (hd : s.de.disp ≠ .restoreBackground) :
    commitFrame s = s.setDe { s.de with rb := composited s }.setComposited.setCommitted := if_neg hd

theorem disp_commitFrame (s : State) : (commitFrame s).de.disp = s.de.disp := by
  obtain e | e := commitFrame_cases s
  all_goals rw [e]; rfl

theorem colorAt_commitFrame {s : State} (kept : s.de.disp ≠ .restoreBackground) (h : Memory.wf transparent s.de.rb) {y x : Nat}
    (hp : s.cfg.has y x) :
    colorAt (commitFrame s).de.rb y x =
      if s.de.inClip y x = true ∧ s.frames.vis y x = true then s.frames.col y x else colorAt s.de.rb y x := by
  rw [commitFrame_composites kept]
  exact colorAt_composited h hp

/-- Where no visible pixel lies outside the clip, the commit leaves the frame's composited result. -/
theorem colorAt_commitFrame_of_clip {s : State} (kept : s.de.disp ≠ .restoreBackground) (h : Memory.wf transparent s.de.rb)
    {y x : Nat} (hp : s.cfg.has y x) (clip : s.frames.vis y x = true → s.de.inClip y x = true) :
    colorAt (commitFrame s).de.rb y x = s.comp y x := by
  simp only [colorAt_commitFrame kept h hp, and_iff_right_of_imp clip]; rfl

/-- After a disposal that keeps the frame, the commit leaves the result the frame had before the disposal was inferred. -/
theorem colorAt_commitFrame_of_kept {s : State} {par : Config.Params} {b : BitVec 1}
    (kept : (disposeFrame par b s).de.disp ≠ .restoreBackground) (h : Memory.wf transparent s.de.rb) {y x : Nat}
    (hp : s.cfg.has y x) (clip : s.frames.vis y x = true → s.de.inClip y x = true) :
    colorAt (commitFrame (disposeFrame par b s)).de.rb y x = s.comp y x := by
  rw [colorAt_commitFrame_of_clip kept, comp_disposeFrame_of_kept kept]
  · rw [rb_disposeFrame_of_kept kept]; exact h
  · rw [cfg_disposeFrame]; exact hp
  · rw [frames_disposeFrame, inClip_disposeFrame]; exact clip

/-- After a disposal to background with delta frames, the commit leaves the Render Buffer clear. -/
theorem rb_commitFrame_of_background {s : State} {par : Config.Params} {b : BitVec 1} (on : s.cfg.deltaAllowed = true)
    (background : (disposeFrame par b s).de.disp = .restoreBackground) :
    (commitFrame (disposeFrame par b s)).de.rb = clearedBuffer := by
  rw [commitFrame_background background]
  exact rb_disposeFrame_of_background on background

/-! ### The delay (R186) -/

/-- Any rounding goes to one of the two nearest. -/
theorem roundDelay_cases (par : Config.Params) (num den : Nat) :
    roundDelay par num den = num / den ∨ roundDelay par num den = num / den + 1 := by
  unfold roundDelay
  split
  · exact .inl rfl
  · exact .inr rfl
  · split
    · exact .inl rfl
    · split
      · exact .inr rfl
      · exact ite_eq_or_eq _ _ _ |>.symm

section
variable {par : Config.Params} {cfg : Cfg} {num den : Nat} (number : 0 < den)
include number

theorem normDelay_zero (zero : num = 0) :
    normDelay par cfg num den = some (if cfg.zeroDelayDefault then par.zeroDelayTicks else 0) := by
  rw [normDelay, if_neg number.ne', if_pos zero]

theorem normDelay_below (pos : 0 < num) (below : num < den) : normDelay par cfg num den = some 1 := by
  rw [normDelay, if_neg number.ne', if_neg pos.ne', if_pos below]

theorem normDelay_above (above : 65535 * den < num) : normDelay par cfg num den = some 65535 := by
  rw [normDelay, if_neg number.ne', if_neg (by omega), if_neg (by omega), if_pos above]

theorem normDelay_inside (low : den ≤ num) (high : num ≤ 65535 * den) :
    normDelay par cfg num den = some (if num % den = 0 then num / den else roundDelay par num den) := by
  rw [normDelay, if_neg number.ne', if_neg (by omega), if_neg (by omega), if_neg (by rw [Config.delayMax]; omega)]

theorem normDelay_whole {d : Nat} (low : 1 ≤ d) (high : d ≤ 65535) (whole : num = d * den) :
    normDelay par cfg num den = some d := by
  subst whole
  rw [normDelay_inside number (Nat.le_mul_of_pos_left den low) (Nat.mul_le_mul_right den high), if_pos (Nat.mul_mod_left d den),
    Nat.mul_div_cancel d number]

theorem exists_normDelay_inside (low : den < num) (high : num ≤ 65535 * den) :
    ∃ d, normDelay par cfg num den = some d ∧ 1 ≤ d ∧ d ≤ 65535 ∧ (d = num / den ∨ d = num / den + 1) := by
  have least : 1 ≤ num / den := (Nat.one_le_div_iff number).2 low.le
  have greatest : num / den ≤ 65535 := Nat.div_le_of_le_mul (by rwa [Nat.mul_comm])
  refine ⟨_, normDelay_inside number low.le high, ?_⟩
  split
  · exact ⟨least, greatest, .inl rfl⟩
  · next fraction =>
    have below : num / den < 65535 := by
      refine (Nat.div_lt_iff_lt_mul number).2 (lt_of_le_of_ne high ?_)
      rintro rfl
      exact fraction (Nat.mul_mod_left 65535 den)
    have rounds := roundDelay_cases par num den
    exact ⟨by omega, by omega, rounds⟩

end

end Sys2Proof.Machine
end

section
/-! PROOF. The statements of the scope: the delta engine. -/

open Sys2Proof Sys2Proof.Machine

/-- Settles O45: `DE.INIT` has one check, of the canvas. -/
theorem initStartsAnAnimation : Obligations.InitStartsAnAnimation := by
  intro s h
  exact ⟨fun wide high => ⟨initCanvas s, (deltaRun_init wide high).exec h, rfl, fun _ _ => rfl⟩, exec_deInit_deConfig h⟩

/-- Settles O46, command by command: out of its step each fails the same check. -/
theorem deltaEngineOrderIsEnforced : Obligations.DeltaEngineOrderIsEnforced := by
  intro i s h
  refine ⟨fun st needs => ⟨exec_badState h needs, fun ready step => ?_⟩, fun wide high => ?_⟩
  · cases i with
    | lzwBegin | lzwPixel | lzwEnd | lzwAbort | ctReset | ctTryGet | ctTryAdd | bwWriteCode | bwFlush | deInit => cases needs
    | deDelta b =>
      cases needs
      have run := DeltaRun.delta (b := b) ready step
      exact ⟨_, run.exec h, run.running h, by rw [deltaFrame_de, ready], by rw [deltaFrame_de, step]⟩
    | deTrim =>
      cases needs
      have run := DeltaRun.trim ready step
      exact ⟨_, run.exec h, run.running h, ready, rfl⟩
    | deDispose b =>
      cases needs
      have run := DeltaRun.dispose (b := b) ready step
      exact ⟨_, run.exec h, run.running h, by rw [ready_disposeFrame, ready], step_disposeFrame _ b s⟩
    | deCommit =>
      cases needs
      have run := DeltaRun.commit ready step
      exact ⟨_, run.exec h, run.running h, by rw [ready_commitFrame, ready], step_commitFrame s⟩
  · have run := deltaRun_init wide high
    exact ⟨_, run.exec h, run.running h, rfl⟩

/-- Settles O47: each operand updates one frame memory over the canvas, pixel by pixel. -/
theorem deltaReplacesUnchangedPixels : Obligations.DeltaReplacesUnchangedPixels := by
  refine ⟨fun b => ?_, fun b s h => exec_badState h rfl, fun s h wf ready step => ?_⟩
  · exact (cmdWord_eq_or 4 1 (0#23 ++ b)).trans (congrArg _ (setWidth_zero_append b))
  · obtain ⟨-, wb, idx, -, -⟩ := wf
    refine ⟨⟨_, (DeltaRun.delta ready step).exec h, deltaFrame_working_frame s, fun y x hp => ?_⟩,
      _, (DeltaRun.delta ready step).exec h, deltaFrame_indexed_frame s, fun y x hp => ?_⟩
    · rw [colorAt_deltaFrame_working wb hp]
      simp only [deltaApplies_iff, and_assoc]
    · rw [indexAt_deltaFrame_indexed idx hp]
      simp only [deltaApplies_iff, and_assoc]

/-- Settles O48, outcome by outcome of the box: the borders kept, a visible pixel, and none. -/
theorem trimGivesTheBoundingBox : Obligations.TrimGivesTheBoundingBox := by
  refine ⟨by decide, fun s h => exec_badState h rfl, fun s h ready step => ?_⟩
  refine ⟨_, (DeltaRun.trim ready step).exec h, trimFrame_eq _ s, fun keep => ?_, fun trims visible => ?_, fun trims invisible => ?_⟩
  · rw [trimFrame_eq, trimBox_keepBorders keep]
    exact ⟨rfl, rfl, rfl, rfl⟩
  · refine ⟨fun y x hp seen => inClip_trimFrame _ hp seen, ?_⟩
    obtain ⟨x0, x1, y0, y1, box, hx, hy, cols, rows, -⟩ := trimBox_visible trims visible Config.params
    have right : x0 + (x1 - x0 + 1) - 1 = x1 := by omega
    have bottom : y0 + (y1 - y0 + 1) - 1 = y1 := by omega
    simp only [trimFrame_eq, box, right, bottom]
    exact ⟨cols x0 (by simp), cols x1 (by simp), rows y0 (by simp), rows y1 (by simp), Nat.le_add_left _ _, Nat.le_add_left _ _⟩
  · rw [trimFrame_eq, trimBox_invisible trims invisible]
    exact ⟨rfl, rfl, rfl, rfl⟩

/-- Settles O49: the rule's three outcomes, by whether delta frames are allowed and the next frame calls for a disposal. -/
theorem disposalIsInferred : Obligations.DisposalIsInferred := by
  refine ⟨fun b => ?_, fun b s h => exec_badState h rfl, fun s b h ready step => ?_⟩
  · exact (cmdWord_eq_or 4 3 (0#23 ++ b)).trans (congrArg _ (setWidth_zero_append b))
  · refine ⟨_, (DeltaRun.dispose ready step).exec h, disposeFrame_frame _ b s, fun off => ?_, fun on transp next shows => ?_,
      fun on kept => ?_⟩
    · rw [disposeFrame_deltaOff off]
      refine ⟨fun background => if_pos background, fun last once => ?_, rfl, rfl⟩
      have foreground : ¬ (b = 1 ∨ s.cfg.looping = true) := by rw [last, once]; decide
      rw [State.setDe_de, if_neg foreground]
      exact lastDisposal_cases _
    · rw [disposeFrame_background on ⟨transp, next, newlyTransparent_iff.2 shows⟩]
      exact ⟨rfl, rfl, fun _ _ => rfl⟩
    · rw [disposeFrame_keeps on]
      · exact ⟨rfl, rfl, rfl⟩
      · rintro ⟨transp, next, new⟩
        obtain ⟨y, x, hp, shown, clear⟩ := newlyTransparent_iff.1 new
        obtain noTransp | last | stays := kept
        · rw [transp] at noTransp; cases noTransp
        · rw [last] at next; cases next
        · exact stays y x hp shown clear

/-- Settles O50: the compositing is an update of the Render Buffer over the canvas. -/
theorem commitComposites : Obligations.CommitComposites := by
  intro s h wf ready step
  have hx := (DeltaRun.commit ready step).exec h
  obtain ⟨rb, -⟩ := wf
  refine ⟨fun background => ?_, fun kept => ⟨_, hx, ?_, fun y x hp => ?_⟩⟩
  · rw [hx, commitFrame_background background]; rfl
  · rw [commitFrame_composites kept]; rfl
  · rw [colorAt_commitFrame kept rb hp]
    simp only [inClip_iff, and_assoc]

/-- Settles O51: the trim keeps every visible pixel in the clip, so that compositing the clip composites the frame. -/
theorem renderBufferFollowsTheFrame : Obligations.RenderBufferFollowsTheFrame := by
  intro s b h wf ready step
  have trims := DeltaRun.trim ready step
  have disposes := DeltaRun.dispose (s := trimFrame Config.params s) (b := b) ready rfl
  have commits := DeltaRun.commit (s := disposeFrame Config.params b (trimFrame Config.params s))
    ((ready_disposeFrame _ _ _).trans ready) (step_disposeFrame _ _ _)
  have trimmed := trims.running h
  have decided := disposes.running trimmed
  refine ⟨_, ?_, commits.running decided, ?_⟩
  · rw [execAll_cons (trims.exec h), execAll_cons (disposes.exec trimmed), execAll_cons (commits.exec decided), execAll]
  rw [disp_commitFrame]
  exact ⟨fun kept y x hp => colorAt_commitFrame_of_kept (s := trimFrame Config.params s) kept wf.1 hp (inClip_trimFrame _ hp),
    fun background on y x => congrArg (colorAt · y x) (rb_commitFrame_of_background (s := trimFrame Config.params s) on background)⟩

/-- Settles O52: the second run finds only pixels that are `TRANSPARENT` already. -/
theorem unchangedFrameBecomesTransparent : Obligations.UnchangedFrameBecomesTransparent := by
  intro s h wf ready step allowed prev transp unchanged
  have on : deltaApplies s = true := deltaApplies_iff.2 ⟨allowed, prev, transp⟩
  obtain ⟨-, wb, -, -, -⟩ := wf
  have cleared : ∀ y x, s.cfg.has y x → colorAt (deltaWorking s).frames.wb y x = transparent := fun y x hp => by
    rw [colorAt_deltaWorking wb hp, if_pos (unchanged y x hp)]
  have again : deltaFrame 0 (deltaWorking s) = deltaWorking s :=
    (deltaFrame_working (s := deltaWorking s) on).trans
      (deltaWorking_eq_self (s := deltaWorking s) (wf_deltaWorking wb) fun y x hp _ => cleared y x hp)
  have first := DeltaRun.delta (b := 0) ready step
  rw [deltaFrame_working on] at first
  have second := (DeltaRun.delta (s := deltaWorking s) (b := 0) ready step).exec (first.running h)
  exact ⟨deltaWorking s, first.exec h, cleared, second.trans (congrArg _ again)⟩

/-- Settles O53, range by range. -/
theorem delayIsNormalised : Obligations.DelayIsNormalised := by
  intro par cfg num den number
  exact ⟨normDelay_zero number, normDelay_below number, normDelay_above number, fun _ => normDelay_whole number,
    exists_normDelay_inside number, rfl⟩

end

section
/-! SUPPORT. Faults (`60_exceptions.md`): the outcomes of an instruction told apart by the fault registers (R201, R207, R210), the illegal
words of the command port (R203), and the operand check of `LZW.BEGIN` (R202). -/

namespace Sys2Proof.Machine

/-- While no fault is taken, an instruction either completes with its bursts accepted, or a check raises one of its causes, or its first
failed burst ends it in `SINK_IO`. -/
theorem exec_outcomes {i : Instr} {s t : State} (h : s.running) (hx : exec i s = .next t) :
    (t.running ∧ ∃ pre, s.sinkFail = pre ++ t.sinkFail ∧ ∀ a ∈ pre, a = SinkAnswer.accepted) ∨
    (∃ c ∈ causesOf i, c ≠ .sinkIo ∧ t = s.raise c (encode i)) ∨
    (.sinkIo ∈ causesOf i ∧ ∃ u, Broke s u ∧ t = u.scramble.raise .sinkIo (encode i)) := by
  rcases exec_cases h hx with ⟨-, ran⟩ | ⟨-, frame⟩ | ⟨c, cause, -, check, ht⟩ | ⟨-, cause, failed⟩
  · exact .inl ⟨(congrArg Flt.cause ran.frame.flt).trans h, ran.answers⟩
  · refine .inl ⟨?_, [], ?_, by simp⟩
    · rw [frame]; exact h
    · rw [frame]; rfl
  · exact .inr (.inl ⟨c, cause, check, ht⟩)
  · exact .inr (.inr ⟨cause, failed⟩)

/-- Where every row that a word selects stands on one port, so does the instruction that the word decodes to (R72). -/
theorem port_of_decode {w : Word} {i : Instr} {p : Port} (rows : ∀ r ∈ opRows, r.selects w = true → r.port = p)
    (hd : decode w = .ok i) : i.port = p := by
  obtain ⟨r, hr, -, port, hs⟩ := exists_row_of_encode i
  exact port ▸ rows r hr (encode_of_decode hd ▸ hs)

/-- The command port takes a word that is no operation of its own as illegal (R77, R78, R203). -/
theorem command_illegal {s : State} (h : s.running) {w : Word} (other : ∀ i, decode w = .ok i → i.port = .internalBus) :
    command .commandPort w s = .next (s.raise .illegalCmd w) := by
  unfold command
  rw [unlessFaulted_running h]
  cases hd : decode w with
  | error e => rfl
  | ok i => exact if_neg (by rw [other i hd]; decide)

theorem exec_lzwBegin_operandRange {s : State} (h : s.running) {n : BitVec 9} (st : s.lzw.st = .idle ∨ s.lzw.st = .done)
    (range : n.toNat = 0 ∨ 256 < n.toNat) :
    exec (.lzwBegin n) s = .next (s.raise .operandRange (encode (.lzwBegin n))) := by
  refine (unlessFaulted_running h _).trans ?_
  rcases st with st | st <;> rw [st] <;> exact if_pos range

end Sys2Proof.Machine
end

section
/-! PROOF. The statements of the scope: exceptions. -/

open Sys2Proof Sys2Proof.Machine

/-- Settles O7: such a word decodes, if at all, to an instruction of the internal bus. -/
theorem illegalWordsFault : Obligations.IllegalWordsFault := by
  intro s rest w h events rows
  rw [step_of_events events]
  exact command_illegal (s := { s with events := rest }) h fun _ => port_of_decode rows

/-- Settles O15: of the three outcomes the other two are a running block and `SINK_IO`. -/
theorem checkFaultsChangeOnlyTheFaultRegisters : Obligations.CheckFaultsChangeOnlyTheFaultRegisters := by
  intro i s t h hx faulted check
  rcases exec_outcomes h hx with ⟨running, -⟩ | ⟨c, -, -, rfl⟩ | ⟨-, u, -, rfl⟩
  · exact absurd running faulted
  · rfl
  · exact absurd rfl check

/-- Settles O16: `SINK_IO` is the outcome of a failed burst and of nothing else; a check fails before the first burst. -/
theorem sinkFailureRaisesSinkIo : Obligations.SinkFailureRaisesSinkIo := by
  intro i s t h hx
  rcases exec_outcomes h hx with ⟨running, accepted⟩ | ⟨c, -, check, rfl⟩ | ⟨-, u, broke, rfl⟩
  · exact ⟨fun sink => absurd (running.symm.trans sink) (by decide), fun _ => accepted⟩
  · exact ⟨fun sink => absurd sink check, fun _ => ⟨[], rfl, by simp⟩⟩
  · exact ⟨fun _ => ⟨rfl, broke.grows, broke.frame.cfg, broke.frame.frames, broke.frame.events, broke.answers⟩,
      fun noSink => absurd rfl noSink⟩

/-- Settles O17: the cause is that of the check that failed, or `SINK_IO` in a command that makes bursts. -/
theorem commandsRaiseOnlyTheirCauses : Obligations.CommandsRaiseOnlyTheirCauses := by
  intro i s t h hx
  rcases exec_outcomes h hx with ⟨running, -⟩ | ⟨c, cause, -, rfl⟩ | ⟨cause, u, -, rfl⟩
  · exact .inl running
  · exact .inr cause
  · exact .inr cause

/-- Settles O9: the fault state is the first check, of an instruction and of a command word. -/
theorem faultStateIgnoresEveryCommand : Obligations.FaultStateIgnoresEveryCommand := by
  refine fun s faulted => ⟨exec_faulted faulted, fun port w rest events => ?_⟩
  rw [step_of_events events]
  exact command_faulted (s := { s with events := rest }) faulted port w

/-- Settles O14: a step without an event is the step of the idle block. -/
theorem idleBlockHoldsItsState : Obligations.IdleBlockHoldsItsState := by
  intro s idle
  unfold step nextEvent
  rw [idle]

/-- Settles O42: the operand is looked at in `IDLE` and `DONE` only. -/
theorem stateIsCheckedBeforeOperands : Obligations.StateIsCheckedBeforeOperands := by
  refine fun s n h => ⟨exec_lzwBegin_badState h, fun st range => exec_lzwBegin_operandRange h st ?_⟩
  rcases range with rfl | high
  · exact .inl rfl
  · exact .inr high

end
